-- ==== Sys2Proof/Word.lean ====
section
/-! DEFINITION. The number types of the spec's notation (00_scope.md R11). -/

namespace Sys2Proof

/-- An 8-bit pattern: a u8, or an i8 read with `BitVec.toInt` (R11). -/
abbrev Byte := BitVec 8

/-- A 32-bit pattern: a u32, or an i32 read with `BitVec.toInt` (R11). `+` on it is the spec's `+₃₂` (R12). -/
abbrev Word := BitVec 32

end Sys2Proof
end

