-- ==== Sys2Proof/Config.lean ====
section
/-! DEFINITION. The implementation parameters of 00_scope.md R9: the fixed ones as constants, the decided and OPEN
ones as the record `Params`, which State carries so that every statement holds for every admitted value. -/

namespace Sys2Proof

/-- PAYLOAD_SIZE, fixed (R9). -/
abbrev payloadSize : Nat := 512

/-- IDX_LSB, fixed (R9). -/
abbrev idxLsb : Nat := 18

/-- IDX_BITS, fixed (R9). -/
abbrev idxBits : Nat := 8

/-- EFF_WIDTH = IDX_LSB + IDX_BITS (R9, R212). -/
abbrev effWidth : Nat := idxLsb + idxBits

/-- QUARTER = 2^EFF_WIDTH / 4 (R9, R272). -/
abbrev quarter : Word := 0x01000000#32

/-- MAX_MSG, the length of a ConfigureMessage body (R123). -/
abbrev maxMsg : Nat := 534

/-- The length of a StatusMessage body (R125). -/
abbrev statusLen : Nat := 5

/-- REC_HDR, the length of a queue record's header (R127). -/
abbrev recHdr : Nat := 2

/-- FRAME_BITS (R9). -/
abbrev frameBits : Nat := 10

/-- The two queues of R52: IN from HOST to CTL, OUT from RT to HOST. -/
inductive QueueId where
  | inbound
  | outbound
deriving DecidableEq, Repr

/-- The parameters a platform may set (R9). -/
structure Params where
  /-- `SINE_TABLE`, 256 entries of i8 (R44). -/
  sineTable : List Byte
  /-- `AUDIO_DIV`, at least 1 (R312). -/
  audioDiv : Nat
  /-- `SAMPLE_COUNTER_RELOAD`: true stands for 1, false for 0 (R231). -/
  reloadOne : Bool
  /-- `ALT_SELECTS_A` (R236). -/
  altSelectsA : Bool
  /-- `K_IN_LOG2`, 3 to 31 (R170). -/
  kInLog2 : Nat
  /-- `K_OUT_LOG2`, 3 to 31 (R170). -/
  kOutLog2 : Nat
  /-- `SAMPLE_RATE`, output samples per second, read by no step (R214, R397). DESIGN CHOICE (log 5): a natural number; the
  spec gives no type and no range. -/
  sampleRate : Nat
deriving DecidableEq, Repr

/-- The values R9 admits. -/
abbrev Params.legal (p : Params) : Prop :=
  p.sineTable.length = 256 ∧ 1 ≤ p.audioDiv ∧ 3 ≤ p.kInLog2 ∧ p.kInLog2 ≤ 31 ∧ 3 ≤ p.kOutLog2 ∧ p.kOutLog2 ≤ 31

/-- The first half cycle of the default table of R44, entries 0 to 127. -/
def defaultSineRising : List Int :=
  [0, 3, 6, 9, 12, 16, 19, 22, 25, 28, 31, 34, 37, 40, 43, 46] ++
  [49, 51, 54, 57, 60, 63, 65, 68, 71, 73, 76, 78, 81, 83, 85, 88] ++
  [90, 92, 94, 96, 98, 100, 102, 104, 106, 107, 109, 111, 112, 113, 115, 116] ++
  [117, 118, 120, 121, 122, 122, 123, 124, 125, 125, 126, 126, 126, 127, 127, 127] ++
  [127, 127, 127, 127, 126, 126, 126, 125, 125, 124, 123, 122, 122, 121, 120, 118] ++
  [117, 116, 115, 113, 112, 111, 109, 107, 106, 104, 102, 100, 98, 96, 94, 92] ++
  [90, 88, 85, 83, 81, 78, 76, 73, 71, 68, 65, 63, 60, 57, 54, 51] ++
  [49, 46, 43, 40, 37, 34, 31, 28, 25, 22, 19, 16, 12, 9, 6, 3]

/-- The second half cycle of the default table of R44, entries 128 to 255. -/
def defaultSineFalling : List Int :=
  [0, -3, -6, -9, -12, -16, -19, -22, -25, -28, -31, -34, -37, -40, -43, -46] ++
  [-49, -51, -54, -57, -60, -63, -65, -68, -71, -73, -76, -78, -81, -83, -85, -88] ++
  [-90, -92, -94, -96, -98, -100, -102, -104, -106, -107, -109, -111, -112, -113, -115, -116] ++
  [-117, -118, -120, -121, -122, -122, -123, -124, -125, -125, -126, -126, -126, -127, -127, -127] ++
  [-127, -127, -127, -127, -126, -126, -126, -125, -125, -124, -123, -122, -122, -121, -120, -118] ++
  [-117, -116, -115, -113, -112, -111, -109, -107, -106, -104, -102, -100, -98, -96, -94, -92] ++
  [-90, -88, -85, -83, -81, -78, -76, -73, -71, -68, -65, -63, -60, -57, -54, -51] ++
  [-49, -46, -43, -40, -37, -34, -31, -28, -25, -22, -19, -16, -12, -9, -6, -3]

/-- The default `SINE_TABLE` of R44, as i8 patterns. -/
def defaultSineTable : List Byte :=
  (defaultSineRising ++ defaultSineFalling).map (BitVec.ofInt 8)

/-- The parameters `State.reset` carries: the spec's defaults where R9 decides one. DESIGN CHOICE (log 5, unsafe):
for the OPEN ones (`AUDIO_DIV`, `K_IN_LOG2`, `K_OUT_LOG2`, `SAMPLE_RATE`) the values of 95_test_vectors.md, and 0. -/
def Params.default : Params where
  sineTable := defaultSineTable
  audioDiv := 1
  reloadOne := true
  altSelectsA := true
  kInLog2 := 10
  kOutLog2 := 6
  sampleRate := 0

end Sys2Proof
end

