-- ==== Sys2Proof/Syntax.lean ====
section
/-! DEFINITION. The typed messages of 30_encoding.md R122 and one constructor of `Instr` per row of
spec/opcode_table.json (R142). -/

namespace Sys2Proof

/-- The fields of a ConfigureMessage (R124), decoded by R126 (log 12). -/
structure ConfigMsg where
  /-- `payload`, 512 bytes. -/
  payload : List Byte
  /-- `samples_per_bit`, u32. -/
  samplesPerBit : Word
  /-- `phase_inc_mark`, u32. -/
  phaseIncMark : Word
  /-- `phase_inc_space`, u32. -/
  phaseIncSpace : Word
  /-- `repeat`, u32: the number of transmissions asked for (R293). -/
  repeats : Word
  /-- `bandwidth_scale`, i32. -/
  bandwidthScale : Word
  /-- `alternate_format`: the body's byte 533 is not 0 (R126, R295). -/
  alternateFormat : Bool
deriving DecidableEq, Repr

/-- `Msg` of R122. -/
inductive Msg where
  | configure (c : ConfigMsg)
  | status (n : Word)
deriving DecidableEq, Repr

/-- The kind a discriminant names (R121). -/
inductive MsgKind where
  | configure
  | status
deriving DecidableEq, Repr

/-- The rows of the opcode table (R142). -/
inductive Instr where
  /-- MSG_CONFIGURE (R124): a ConfigureMessage arrives at the Control Interface. -/
  | msgConfigure (c : ConfigMsg)
  /-- MSG_STATUS (R125): a StatusMessage arrives at the Control Interface. -/
  | msgStatus (n : Word)
  /-- FRAME_A (R130): the format A frame of data byte `d`. -/
  | frameA (d : Byte)
  /-- FRAME_B (R131): the format B frame of data byte `d` with last bit `p`. -/
  | frameB (d : Byte) (p : Bool)
  /-- RESET (R380). -/
  | reset
  /-- FILL of `n` complex samples (R310). -/
  | fill (n : Word)
  /-- CTL_SERVICE (R290). -/
  | ctlService
  /-- PUSH of message `m` to queue `q` (R174). -/
  | push (q : QueueId) (m : Msg)
  /-- POP of queue `q` (R180). -/
  | pop (q : QueueId)
  /-- DOORBELL_TAKE of queue `q` (R188). -/
  | doorbellTake (q : QueueId)
  /-- AUDIO_TICK (R312, R231). -/
  | audioTick
  /-- BIT_PERIOD (R234). -/
  | bitPeriod
  /-- WINDOW_CHECK (R237). -/
  | windowCheck
  /-- RESTART (R240). -/
  | restart
  /-- FINISH (R241). -/
  | finish
  /-- FRAME_BIT (R235). -/
  | frameBit
  /-- BIT_ADVANCE (R239). -/
  | bitAdvance
  /-- TONE_STEP (R210). -/
  | toneStep
  /-- TONE_READ (R211). -/
  | toneRead
  /-- FM_STEP with tone sample `ts`, an i8 (R271). -/
  | fmStep (ts : Byte)
  /-- IQ_READ (R272). -/
  | iqRead
  /-- STATUS_PUSH of report `n` (R185). -/
  | statusPush (n : Word)
  /-- APPLY_CONFIGURATION of `c` (R292). -/
  | applyConfiguration (c : ConfigMsg)
deriving DecidableEq, Repr

end Sys2Proof
end

