-- ==== Sys2Proof/WellFormed.lean ====
section
/-! DEFINITION. What a term of `Instr` must meet to stand for bytes of the spec: the payload of a ConfigureMessage
has exactly 512 bytes (30_encoding.md R124). Every other field has its width in its type. -/

namespace Sys2Proof

/-- `payload[512]` (R124). -/
def ConfigMsg.wellFormed (c : ConfigMsg) : Bool :=
  c.payload.length == payloadSize

/-- A `Msg` whose body has the length its kind requires (R122, R128). -/
def Msg.wellFormed : Msg → Bool
  | .configure c => c.wellFormed
  | .status _ => true

/-- Every message an instruction carries is well formed. -/
def Instr.wellFormed : Instr → Bool
  | .msgConfigure c => c.wellFormed
  | .push _ m => m.wellFormed
  | .applyConfiguration c => c.wellFormed
  | .msgStatus _ | .frameA _ | .frameB _ _ | .reset | .fill _ | .ctlService | .pop _ | .doorbellTake _ => true
  | .audioTick | .bitPeriod | .windowCheck | .restart | .finish | .frameBit | .bitAdvance => true
  | .toneStep | .toneRead | .fmStep _ | .iqRead | .statusPush _ => true

end Sys2Proof
end

