-- ==== Sys2Proof/Decode.lean ====
section
/-! DEFINITION. Decoding, total on any bytes and rejecting by name, and after it the encoder, both from the tables of
30_encoding.md: message bodies (R121 to R126), serial frames (R130, R131), transactions (R136, R137). -/

namespace Sys2Proof

/-- The value of a little-endian field (R86). -/
def leValue : List Byte → Nat
  | [] => 0
  | b :: bs => b.toNat + 256 * leValue bs

/-- The `k` bytes of `v`, least significant first (R86). -/
def leBytes : Nat → Nat → List Byte
  | 0, _ => []
  | k + 1, v => BitVec.ofNat 8 v :: leBytes k (v / 256)

/-- The `n` bytes at offset `o`, as a little-endian value (R86, R126). -/
def leField (bs : List Byte) (o n : Nat) : Nat :=
  leValue ((bs.drop o).take n)

/-- The u32 or i32 pattern at offset `o` (R126). -/
def wordField (bs : List Byte) (o : Nat) : Word :=
  BitVec.ofNat 32 (leField bs o 4)

/-- The byte at offset `o`; the callers check the length first. -/
def byteField (bs : List Byte) (o : Nat) : Byte :=
  bs.getD o 0

/-- Field assembly of a ConfigureMessage body (R126). -/
def decConfig (b : List Byte) : ConfigMsg where
  payload := (b.drop 1).take payloadSize
  samplesPerBit := wordField b 513
  phaseIncMark := wordField b 517
  phaseIncSpace := wordField b 521
  repeats := wordField b 525
  bandwidthScale := wordField b 529
  alternateFormat := byteField b 533 != 0

/-- `dec(body, L)` with L the body's length (R181): the kind and the length must agree. -/
def decMsg (b : List Byte) : Option Msg :=
  if b.length = maxMsg ∧ byteField b 0 = 0x01#8 then some (.configure (decConfig b))
  else if b.length = statusLen ∧ byteField b 0 = 0x02#8 then some (.status (wordField b 1))
  else none

/-- The queue operand: `0x00` is IN, `0x01` is OUT, every other value is illegal (R136, R138). -/
def decQueue (b : Byte) : Option QueueId :=
  if b = 0x00#8 then some .inbound else if b = 0x01#8 then some .outbound else none

/-- Why bytes are not the encoding of an instruction. -/
inductive Reject where
  /-- A transaction op code `0x06` to `0xFF` (R138). -/
  | badOp
  /-- A queue operand `0x02` to `0xFF` (R138). -/
  | badQueue
  /-- A body that is not the encoding of a `Msg` (R122, R137). -/
  | badMessage
  /-- Ten bits that are not a frame of the named format (R130, R131). -/
  | badFrame
  /-- The bytes end before the object does. -/
  | incomplete
  /-- Bytes are left over after the object. -/
  | leftOver
  /-- An internal step has no encoding of its own (R142). -/
  | noEncoding
deriving DecidableEq, Repr

/-- What the front of a transaction byte stream is (R137). -/
inductive Decoded where
  /-- A transaction, and the bytes after it. -/
  | ok (i : Instr) (rest : List Byte)
  /-- An illegal transaction, its reason, and the bytes after it. -/
  | rejected (r : Reject) (rest : List Byte)
  /-- The stream ends before the transaction does. -/
  | incomplete
deriving DecidableEq, Repr

/-- The total length R136 gives the transaction at the front of a stream; an op code the table does not have is one byte. -/
def transactionLength (bs : List Byte) : Nat :=
  match (byteField bs 0).toNat with
  | 1 => 5
  | 3 => 4 + leField bs 2 2
  | 4 => 2
  | 5 => 2
  | _ => 1

/-- A whole transaction, from the bytes R136 gives it. In PUSH the queue operand is checked before the body (R351). -/
def decWhole (bs : List Byte) : Except Reject Instr :=
  match (byteField bs 0).toNat with
  | 0 => .ok .reset
  | 1 => .ok (.fill (wordField bs 1))
  | 2 => .ok .ctlService
  | 3 =>
    match decQueue (byteField bs 1) with
    | none => .error .badQueue
    | some q =>
      match decMsg (bs.drop 4) with
      | none => .error .badMessage
      | some m => .ok (.push q m)
  | 4 =>
    match decQueue (byteField bs 1) with
    | none => .error .badQueue
    | some q => .ok (.pop q)
  | 5 =>
    match decQueue (byteField bs 1) with
    | none => .error .badQueue
    | some q => .ok (.doorbellTake q)
  | _ => .error .badOp

/-- One transaction off the front of a byte stream (R137).
DESIGN CHOICE (log 13): a stream that ends early is incomplete, and an illegal op code is one byte long. -/
def decodeTransaction (bs : List Byte) : Decoded :=
  if bs.length < max 1 (transactionLength bs) then .incomplete
  else
    match decWhole (bs.take (transactionLength bs)) with
    | .ok i => .ok i (bs.drop (transactionLength bs))
    | .error r => .rejected r (bs.drop (transactionLength bs))

/-- A message body as the instruction that delivers it (R121, R124, R125). -/
def decodeBody (b : List Byte) : Except Reject Instr :=
  match decMsg b with
  | some (.configure c) => .ok (.msgConfigure c)
  | some (.status n) => .ok (.msgStatus n)
  | none => .error .badMessage

/-- Ten bits in the named format (R130, R131): bit 9 is 0, and in format A bit 0 is 1. -/
def decodeFrame (fmtA : Bool) (v : BitVec 10) : Except Reject Instr :=
  if v.getLsbD 9 then .error .badFrame
  else if fmtA then
    if v.getLsbD 0 then .ok (.frameA (v.extractLsb' 1 8)) else .error .badFrame
  else .ok (.frameB (v.extractLsb' 1 8) (v.getLsbD 0))

/-- The encoded objects that are instructions (R120, R142). -/
inductive Encoded where
  /-- A transaction's bytes (R136). -/
  | transaction (bs : List Byte)
  /-- A message body (R124, R125). -/
  | body (bs : List Byte)
  /-- Ten bits, and whether they are in format A: the bits alone do not tell (R130, R131, R236). -/
  | frame (fmtA : Bool) (v : BitVec 10)
  /-- No encoding: an internal step (R142). -/
  | unencoded
deriving DecidableEq, Repr

/-- The instruction an encoded object stands for. -/
def decode : Encoded → Except Reject Instr
  | .transaction bs =>
    match decodeTransaction bs with
    | .ok i [] => .ok i
    | .ok _ (_ :: _) => .error .leftOver
    | .rejected r _ => .error r
    | .incomplete => .error .incomplete
  | .body bs => decodeBody bs
  | .frame fmtA v => decodeFrame fmtA v
  | .unencoded => .error .noEncoding

/-! ### The encoder -/

/-- A ConfigureMessage body (R124), with `alternate_format` as 1 or 0 (R126). -/
def encConfig (c : ConfigMsg) : List Byte :=
  0x01#8 :: c.payload ++ leBytes 4 c.samplesPerBit.toNat ++ leBytes 4 c.phaseIncMark.toNat ++
    leBytes 4 c.phaseIncSpace.toNat ++ leBytes 4 c.repeats.toNat ++ leBytes 4 c.bandwidthScale.toNat ++
    [if c.alternateFormat then 0x01#8 else 0x00#8]

/-- A StatusMessage body (R125). -/
def encStatus (n : Word) : List Byte :=
  0x02#8 :: leBytes 4 n.toNat

/-- `enc(m)` (R122). -/
def encMsg : Msg → List Byte
  | .configure c => encConfig c
  | .status n => encStatus n

/-- A queue record: the body's length in two bytes, then the body (R127). -/
def encRecord (m : Msg) : List Byte :=
  leBytes recHdr (encMsg m).length ++ encMsg m

/-- The queue operand's byte (R136). -/
def encQueue : QueueId → Byte
  | .inbound => 0x00#8
  | .outbound => 0x01#8

/-- The format A frame: the byte shifted left by one, bit 0 set (R130). -/
def frameValueA (d : Byte) : BitVec 10 :=
  (d.setWidth 10 <<< 1) ||| 1#10

/-- The format B frame: the byte shifted left by one, bit 0 the parity bit (R131). -/
def frameValueB (d : Byte) (p : Bool) : BitVec 10 :=
  (d.setWidth 10 <<< 1) ||| (if p then 1#10 else 0#10)

/-- The bytes of a PUSH (R136). The length field is a u16: a body that is no `Msg` can be longer than it says (log 23). -/
def encPush (q : QueueId) (m : Msg) : List Byte :=
  0x03#8 :: encQueue q :: leBytes 2 (encMsg m).length ++ encMsg m

/-- The encoded object of an instruction. -/
def encode : Instr → Encoded
  | .msgConfigure c => .body (encConfig c)
  | .msgStatus n => .body (encStatus n)
  | .frameA d => .frame true (frameValueA d)
  | .frameB d p => .frame false (frameValueB d p)
  | .reset => .transaction [0x00#8]
  | .fill n => .transaction (0x01#8 :: leBytes 4 n.toNat)
  | .ctlService => .transaction [0x02#8]
  | .push q m => .transaction (encPush q m)
  | .pop q => .transaction [0x04#8, encQueue q]
  | .doorbellTake q => .transaction [0x05#8, encQueue q]
  | .audioTick | .bitPeriod | .windowCheck | .restart | .finish | .frameBit | .bitAdvance => .unencoded
  | .toneStep | .toneRead | .fmStep _ | .iqRead | .statusPush _ | .applyConfiguration _ => .unencoded

/-! ### The host's question about a row of the opcode table -/

/-- The bytes of a table word, the first at the lowest place, and zeros up to the length R136 gives the transaction. -/
def tableBytes (nbits w : Nat) : List Byte :=
  let given := leBytes ((nbits + 7) / 8) w
  given ++ List.replicate (transactionLength given - given.length) 0

/-- The instruction the decoder reads from a table word. One byte or more than two bytes are a transaction stream; a
word of 9 to 16 bits is one of the table's two 10-bit frame rows, in format A when its stop bit is set.
DESIGN CHOICE (log 16): a byte that several rows share is read as the transaction (R136). -/
def decodeTableWord (nbits w : Nat) : Option Instr :=
  if 8 < nbits ∧ nbits ≤ 16 then
    (decodeFrame (w.testBit 0) (BitVec.ofNat 10 w)).toOption
  else
    match decodeTransaction (tableBytes nbits w) with
    | .ok i _ => some i
    | _ => none

end Sys2Proof
end

