-- ==== Sys2Proof/Machine/State.lean ====
section
/-! DEFINITION. The state of the block (10_state.md R30), grouped as the spec groups it, and beside it the edge of the
block: what arrives at its ports and what it hands back. -/

namespace Sys2Proof.Machine

/-- A byte memory of 20_memory.md R80: (index, byte) pairs with rising indices and no zero byte listed. An unlisted
index reads as 0 (R35, R52; log 6, log 7). -/
abbrev Memory := List Host.Cell

/-- Who issues transactions (R7, R356). -/
inductive Agent where
  /-- The sample callback. -/
  | rt
  /-- The Control Interface. -/
  | ctl
  /-- The control core. -/
  | host
  /-- Power-on, firmware start, spurious doorbells. -/
  | env
deriving DecidableEq, Repr

/-- Why the machine takes no step. -/
inductive Fault where
  /-- A POP, alone or inside CTL_SERVICE, met a record whose discriminant and length disagree (R181, R343). The meaning
  sets the fault mark; `step` answers this fault for every later step but RESET. Safe: no run from RESET reaches it (R183). -/
  | queueCorrupt
deriving DecidableEq, Repr

/-- Why a transaction is refused (R344). The four named refusals are kept in the refusal mark of a next state. -/
inductive Refusal where
  /-- An instruction without a meaning: no arm of `exec` answers it. Safe. -/
  | notModelled (mnemonic : String)
  /-- A transaction op code `0x06` to `0xFF`; raised by the fetch. Safe: nothing is claimed of it. -/
  | badOp
  /-- A queue operand `0x02` to `0xFF`; raised by the fetch. Safe. -/
  | badQueue
  /-- A PUSH whose body is not a `Msg`; raised by the fetch. Safe. -/
  | badMessage
  /-- A transaction by an agent without its role; raised by FILL, CTL_SERVICE, PUSH, POP, DOORBELL_TAKE. Safe. -/
  | wrongAgent
deriving DecidableEq, Repr

/-- A queue's mutual-exclusion lock (R54). -/
inductive Lock where
  | free
  | held (a : Agent)
deriving DecidableEq, Repr

/-- Why a status report was lost (R185). -/
inductive DropReason where
  | full
  | busy
deriving DecidableEq, Repr

/-- The ghost events of R61. -/
inductive Event where
  | statusPushed (n : Word)
  | statusDropped (n : Word) (reason : DropReason)
  | configApplied
  | configIgnored (kind : MsgKind)
  /-- Element `i` of the buffer of one FILL. -/
  | sample (i : Nat) (inPhase quadrature : Byte)
deriving DecidableEq, Repr

/-- What a transaction hands back to its issuer (R340), and what an internal step hands to the next (R211, R237, R272).
DESIGN CHOICE (log 4): the last one is held at the edge of the block. -/
inductive Response where
  /-- Nothing handed back yet. -/
  | none
  | ok
  | full
  | busy
  | empty
  | msg (m : Msg)
  | applied
  | ignored
  | filled
  | notConfigured
  | taken (b : Bool)
  /-- The transaction was refused (R344). -/
  | refused (r : Refusal)
  /-- The transaction met the model fault (R343). -/
  | faulted (f : Fault)
  /-- A blocking acquire found the lock held: the transaction waits at its port (R174). -/
  | waiting
  /-- WINDOW_CHECK: whether the window is a terminator (R237). -/
  | window (terminator : Bool)
  /-- TONE_READ: the tone sample, an i8 (R211). -/
  | toneSample (ts : Byte)
  /-- IQ_READ: the pair (I, Q) of i8 (R272). -/
  | iqPair (inPhase quadrature : Byte)
deriving DecidableEq, Repr

/-- The source's TransmissionState, R30's Config group. -/
structure TransmissionState where
  /-- `configured` (R33). -/
  configured : Bool
  /-- `alternate_format` (R34). -/
  alternateFormat : Bool
  /-- `payload`, 512 bytes (R35). -/
  payload : Memory
  /-- `samples_per_bit`, u32 (R36). -/
  samplesPerBit : Word
  /-- `phase_inc_mark`, u32 (R37). -/
  phaseIncMark : Word
  /-- `phase_inc_space`, u32 (R37). -/
  phaseIncSpace : Word
  /-- `bandwidth_scale`, i32 (R38). -/
  bandwidthScale : Word
  /-- `repeat_count`, u32 (R39). -/
  repeatCount : Word
deriving DecidableEq, Repr

/-- R30's Synth group. -/
structure Synth where
  /-- `tone_phase`, u32 (R40). -/
  tonePhase : Word
  /-- `carrier_phase`, u32 (R41). -/
  carrierPhase : Word
  /-- `div_counter` (R42). -/
  divCounter : Nat
deriving DecidableEq, Repr

/-- The source's EncoderCursor, R30's Cursor group. -/
structure EncoderCursor where
  /-- `bit_position` (R45). -/
  bitPosition : Nat
  /-- `byte_position`, u32 (R46). -/
  bytePosition : Word
  /-- `current_byte`, u8 (R47). -/
  currentByte : Byte
  /-- `next_byte`, u8 (R47). -/
  nextByte : Byte
  /-- `current_bit`: true is mark, 1 (R48, R17). -/
  currentBit : Bool
  /-- `sample_counter`, u32 (R49). -/
  sampleCounter : Word
  /-- `repeat_counter`, u32 (R50). -/
  repeatCounter : Word
deriving DecidableEq, Repr

/-- One queue (R52). -/
structure Queue where
  /-- `ring`, K bytes. -/
  ring : Memory
  /-- `wr`: bytes ever committed, modulo 2^32. -/
  wr : Word
  /-- `rd`: bytes ever consumed, modulo 2^32. -/
  rd : Word
  /-- `lock` (R54). -/
  lock : Lock
  /-- `db_pending` (R55). -/
  dbPending : Bool
deriving DecidableEq, Repr

/-- Transaction bytes waiting at each agent's port (R136: transactions arrive on separate ports). -/
structure Ports where
  rt : List Byte
  ctl : List Byte
  host : List Byte
  env : List Byte
deriving DecidableEq, Repr

/-- A buffer a FILL wrote, as it stood when FILL returned (R398). -/
structure FilledBuffer where
  /-- FILL's n. -/
  count : Nat
  bytes : Memory
deriving DecidableEq, Repr

/-- Who moves next (R349). -/
inductive Turn where
  /-- The agent issues the next transaction of its port. -/
  | port (a : Agent)
  /-- The environment sets a `db_pending` with no record pushed (R189). -/
  | spuriousDoorbell (q : QueueId)
  /-- The harness supplies the buffer of the FILLs to come, with what it has written in it (R399, R385; log 24). -/
  | supplyBuffer (bytes : List Byte)
deriving DecidableEq, Repr

/-- The edge of the block: not block state (R62, R340); the model holds it so that a step is a function of the state
(DESIGN CHOICE, log 2, log 3, log 4, log 7, log 24). -/
structure Edge where
  /-- The caller's sample buffer as bytes: element i has I at 2i and Q at 2i+1 (R85). -/
  buffer : Memory
  /-- Every buffer FILL wrote, oldest first (R398). -/
  filled : List FilledBuffer
  ports : Ports
  /-- The interleaving still to come; any list is a run. -/
  turns : List Turn
  /-- The agent whose port the running transaction came from. -/
  issuer : Agent
  response : Response
deriving DecidableEq, Repr

/-- The state of the block (R30). -/
structure State where
  /-- The parameters and the ROM (R9, R44): nothing writes them. -/
  params : Params
  tx : TransmissionState
  synth : Synth
  cur : EncoderCursor
  /-- `q[IN]`. -/
  qIn : Queue
  /-- `q[OUT]`. -/
  qOut : Queue
  /-- The event history, oldest first (R61). -/
  history : List Event
  /-- The fault mark (R343). -/
  faultMark : Option Fault
  /-- The refusal mark (R344). -/
  refusalMark : Option Refusal
  io : Edge
deriving DecidableEq, Repr

/-- A queue after RESET (R52, R381). The ring's zeros are R52's; R381 leaves them unspecified (log 6). -/
def Queue.reset : Queue where
  ring := []
  wr := 0
  rd := 0
  lock := .free
  dbPending := false

/-- R381's Config values. -/
def TransmissionState.reset : TransmissionState where
  configured := false
  alternateFormat := false
  payload := []
  samplesPerBit := 0
  phaseIncMark := 0
  phaseIncSpace := 0
  bandwidthScale := 0
  repeatCount := 0

/-- R381's Synth values. -/
def Synth.reset : Synth where
  tonePhase := 0
  carrierPhase := 0
  divCounter := 0

/-- R381's Cursor values. -/
def EncoderCursor.reset : EncoderCursor where
  bitPosition := 0
  bytePosition := 0
  currentByte := 0
  nextByte := 0
  currentBit := false
  sampleCounter := 0
  repeatCounter := 0

/-- Nothing waiting, no turn to come, nothing handed back (DESIGN CHOICE, log 2, log 3, log 4, log 7,
log 24). -/
def Edge.reset : Edge where
  buffer := []
  filled := []
  ports := { rt := [], ctl := [], host := [], env := [] }
  turns := []
  issuer := .env
  response := .none

/-- The machine right after reset (R381), with the parameters of `Params.default` and nothing at its edge. -/
def State.reset : State where
  params := Params.default
  tx := TransmissionState.reset
  synth := Synth.reset
  cur := EncoderCursor.reset
  qIn := Queue.reset
  qOut := Queue.reset
  history := []
  faultMark := none
  refusalMark := none
  io := Edge.reset

end Sys2Proof.Machine
end

