-- ==== Sys2Proof/Machine/Ops.lean ====
section
/-! DEFINITION. The operations every meaning is written from: byte memories and rings (20_memory.md R80 to R86), the
queue transactions' shared core (40_queue.md R174, R180), the history, the response, and the two ways a transaction ends
badly (60_exceptions.md R343, R344). The block has no exception to take and none to return from (R341, R352, R353). -/

namespace Sys2Proof.Machine

/-! ### Byte memories -/

/-- The byte at an index. -/
def readByte : Memory → Nat → Byte
  | [], _ => 0
  | (k, v) :: rest, a => if k = a then v else readByte rest a

/-- The memory with one byte written, in canonical form. -/
def writeByte : Memory → Nat → Byte → Memory
  | [], a, b => if b = 0 then [] else [(a, b)]
  | (k, v) :: rest, a, b =>
    if a < k then if b = 0 then (k, v) :: rest else (a, b) :: (k, v) :: rest
    else if a = k then if b = 0 then rest else (a, b) :: rest
    else (k, v) :: writeByte rest a b

/-- The memory that holds the given bytes from index `base` up and zeros elsewhere. -/
def bytesFrom (base : Nat) : List Byte → Memory
  | [] => []
  | b :: bs => if b = 0 then bytesFrom (base + 1) bs else (base, b) :: bytesFrom (base + 1) bs

/-- The cells' indices rise from `lo` up and no byte is zero. -/
def cellsFrom (lo : Nat) : Memory → Bool
  | [] => true
  | (k, v) :: rest => decide (lo ≤ k) && v != 0 && cellsFrom (k + 1) rest

/-- The canonical form: indices strictly rising, no entry equal to what an unlisted index reads as. -/
def Memory.wf (m : Memory) : Bool :=
  cellsFrom 0 m

/-- Every listed index is below `n`. -/
def Memory.below (n : Nat) (m : Memory) : Bool :=
  m.all fun c => decide (c.1 < n)

/-! ### Rings -/

/-- `K_x` (R170). -/
def ringCapacity (p : Params) : QueueId → Nat
  | .inbound => 2 ^ p.kInLog2
  | .outbound => 2 ^ p.kOutLog2

/-- `MemRead(x, c, n)` for a ring of `k` bytes (R82). -/
def ringRead (k : Nat) (ring : Memory) (c : Word) : Nat → List Byte
  | 0 => []
  | n + 1 => readByte ring (c.toNat % k) :: ringRead k ring (c + 1) n

/-- `MemWrite(x, c, n, bytes)` for a ring of `k` bytes (R82). -/
def ringWrite (k : Nat) (ring : Memory) (c : Word) : List Byte → Memory
  | [] => ring
  | b :: bs => ringWrite k (writeByte ring (c.toNat % k) b) (c + 1) bs

/-- `used(x)` (R53). -/
def Queue.used (q : Queue) : Nat :=
  (q.wr - q.rd).toNat

/-! ### The state's queues, history and response -/

/-- `S.q[x]` (R13). -/
def State.queue (s : State) : QueueId → Queue
  | .inbound => s.qIn
  | .outbound => s.qOut

/-- `S.q[x] <- q` (R13). -/
def State.setQueue (s : State) (x : QueueId) (q : Queue) : State :=
  match x with
  | .inbound => { s with qIn := q }
  | .outbound => { s with qOut := q }

/-- `history += e` (R61). -/
def State.record (s : State) (e : Event) : State :=
  { s with history := s.history ++ [e] }

/-- Hands an outcome back to the issuer (R340); no block state changes. -/
def State.respond (s : State) (r : Response) : State :=
  { s with io := { s.io with response := r } }

/-- A refused transaction writes the refusal mark and nothing else (R344).
DEDUCED (log 8): the first reason stays, and the machine goes on. -/
def State.refuse (s : State) (r : Refusal) : State :=
  { s.respond (.refused r) with refusalMark := s.refusalMark.or (some r) }

/-- The model fault sets the fault mark (R343); no later step but RESET is taken (log 9). -/
def State.fail (s : State) (f : Fault) : State :=
  { s.respond (.faulted f) with faultMark := some f }

/-! ### Roles -/

/-- The producer of a queue (R171). -/
def producer : QueueId → Agent
  | .inbound => .host
  | .outbound => .rt

/-- The consumer of a queue (R171). -/
def consumer : QueueId → Agent
  | .inbound => .ctl
  | .outbound => .host

/-- The transaction's effect if its issuer holds the role, else the refusal `WrongAgent` (R344). -/
def State.asAgent (s : State) (a : Agent) (effect : State) : State :=
  if s.io.issuer = a then effect else s.refuse .wrongAgent

/-! ### PUSH and POP -/

/-- The results of PUSH (R173), and the wait of a blocking acquire (R174). -/
inductive PushResult where
  | ok
  | full
  | busy
  | waits
deriving DecidableEq, Repr

/-- RT uses a try-acquire; the others a blocking acquire (R174, D19). -/
def Agent.triesAcquire : Agent → Bool
  | .rt => true
  | .ctl | .host | .env => false

/-- PUSH of record `bytes` under the lock, which the step both takes and gives back (R174): the copy and the commit. -/
def Queue.commit (q : Queue) (k : Nat) (bytes : List Byte) : Queue :=
  { q with
    ring := ringWrite k q.ring q.wr bytes
    wr := q.wr + BitVec.ofNat 32 bytes.length
    lock := .free
    dbPending := true }

/-- PUSH(x, m, a) (R174): the acquire, the space check, the commit, the doorbell (R177). -/
def pushQueue (x : QueueId) (m : Msg) (a : Agent) (s : State) : PushResult × State :=
  let q := s.queue x
  let bytes := encRecord m
  match q.lock with
  | .held _ => (if a.triesAcquire then .busy else .waits, s)
  | .free =>
    if ringCapacity s.params x - q.used < bytes.length then (.full, s)
    else (.ok, s.setQueue x (q.commit (ringCapacity s.params x) bytes))

/-- The results of POP (R179) and the model fault (R183). -/
inductive PopResult where
  | msg (m : Msg)
  | empty
  | corrupt
deriving DecidableEq, Repr

/-- The length header of the record at `rd` (R127, R180). -/
def Queue.headLength (q : Queue) (k : Nat) : Nat :=
  leValue (ringRead k q.ring q.rd recHdr)

/-- The body of the record at `rd` (R180). -/
def Queue.headBody (q : Queue) (k : Nat) : List Byte :=
  ringRead k q.ring (q.rd + BitVec.ofNat 32 recHdr) (q.headLength k)

/-- POP(x) (R180): it never touches the lock (R182) or the doorbell. -/
def popQueue (x : QueueId) (s : State) : PopResult × State :=
  let q := s.queue x
  let k := ringCapacity s.params x
  if q.used = 0 then (.empty, s)
  else
    match decMsg (q.headBody k) with
    | none => (.corrupt, s)
    | some m => (.msg m, s.setQueue x { q with rd := q.rd + BitVec.ofNat 32 (recHdr + q.headLength k) })

end Sys2Proof.Machine
end

