-- ==== Sys2Proof/Machine/Operands.lean ====
section
/-! DEFINITION. The operands of the steps: the bound-safe payload read, the sine table and its index, the window, the
increments and the deviation, the caller's buffer, the decoded configuration. -/

namespace Sys2Proof.Machine

/-- `P(i)`: the payload byte below 512, and 0 from 512 up, with no read (42_frame_encoder.md R238, R60). -/
def payloadByte (s : State) (i : Nat) : Byte :=
  if i < payloadSize then readByte s.tx.payload i else 0

/-- `idx(a)`, bits 25 to 18 of an accumulator (41_tone.md R211). -/
def tableIndex (a : Word) : Nat :=
  (a.toNat >>> idxLsb) % 2 ^ idxBits

/-- `T[k]` (10_state.md R44). -/
def tableEntry (s : State) (k : Nat) : Byte :=
  s.params.sineTable.getD k 0

/-- The increment the current bit selects: mark for 1, space for 0 (R210, R17). -/
def toneIncrement (s : State) : Word :=
  if s.cur.currentBit then s.tx.phaseIncMark else s.tx.phaseIncSpace

/-- The tone sample of the current `tone_phase` (R211, R43). -/
def toneSample (s : State) : Byte :=
  tableEntry s (tableIndex s.synth.tonePhase)

/-- `ts ×₃₂ bandwidth_scale`: the exact signed product, reduced modulo 2^32 (R270, R12). -/
def deviation (ts : Byte) (scale : Word) : Word :=
  BitVec.ofInt 32 (ts.toInt * scale.toInt)

/-- I of the current `carrier_phase` (R272). -/
def inPhase (s : State) : Byte :=
  tableEntry s (tableIndex s.synth.carrierPhase)

/-- Q: the table a quarter cycle on (R272). -/
def quadrature (s : State) : Byte :=
  tableEntry s (tableIndex (s.synth.carrierPhase + quarter))

/-- `BufWrite(i, (I, Q))`: I at byte 2i, Q at byte 2i + 1 (R85, R273). -/
def bufWrite (i : Nat) (iq : Byte × Byte) (s : State) : State :=
  { s with io := { s.io with buffer := writeByte (writeByte s.io.buffer (2 * i) iq.1) (2 * i + 1) iq.2 } }

/-- The harness supplies a buffer that holds these bytes (R399, R385). -/
def supplyBuffer (bytes : List Byte) (s : State) : State :=
  { s with io := { s.io with buffer := bytesFrom 0 bytes } }

/-- FILL of `n` samples returns the buffer it wrote to the harness (R398, R399); FILL of none wrote none (R316). -/
def returnBuffer (n : Word) (s : State) : State :=
  if n = 0 then s
  else { s with io := { s.io with filled := s.io.filled ++ [{ count := n.toNat, bytes := s.io.buffer }] } }

/-- `max(repeat, 1) − 1` (R293). -/
def effectiveRepeat (r : Word) : Word :=
  BitVec.ofNat 32 (max r.toNat 1 - 1)

/-- `SAMPLE_COUNTER_RELOAD` (R231). -/
def reloadValue (s : State) : Word :=
  if s.params.reloadOne then 1 else 0

end Sys2Proof.Machine
end

