-- ==== Sys2Proof/Machine/Flags.lean ====
section
/-! DEFINITION. The one-bit state (10_state.md R57) and the conditions read from it: the format, the terminator, the
gate, the repeat test, the doorbells. There are no condition codes. -/

namespace Sys2Proof.Machine

/-- `fmtA`: the frame uses format A exactly when `alternate_format` = `ALT_SELECTS_A` (42_frame_encoder.md R236). -/
def formatA (s : State) : Bool :=
  s.tx.alternateFormat == s.params.altSelectsA

/-- The loaded window is a terminator: both bytes are zero while configured (R237). -/
def atTerminator (s : State) : Bool :=
  s.tx.configured && s.cur.currentByte == 0 && s.cur.nextByte == 0

/-- `repeat_counter < repeat_count`, unsigned: RESTART rather than FINISH (R240, R241). -/
def repeatsLeft (s : State) : Bool :=
  decide (s.cur.repeatCounter.toNat < s.tx.repeatCount.toNat)

/-- The gate is open: `sample_counter >= samples_per_bit`, unsigned (R231). -/
def gateOpen (s : State) : Bool :=
  decide (s.tx.samplesPerBit.toNat ≤ s.cur.sampleCounter.toNat)

/-- The output sample is an audio tick (45_sample_callback.md R312). -/
def onAudioTick (s : State) : Bool :=
  s.synth.divCounter == 0

/-- The framed value: format A sets bit 0, format B takes bit 0 of the next byte (R235). -/
def framedValue (s : State) : BitVec 10 :=
  if formatA s then frameValueA s.cur.currentByte
  else frameValueB s.cur.currentByte (s.cur.nextByte.getLsbD 0)

/-- `current_bit <- framed[9 - bit_position]` (R235). -/
def sendBit (framed : BitVec 10) (s : State) : State :=
  { s with cur := { s.cur with currentBit := framed.getLsbD (9 - s.cur.bitPosition) } }

/-- `S.q[x].db_pending <- b` (40_queue.md R188, R189). -/
def setDoorbell (x : QueueId) (b : Bool) (s : State) : State :=
  s.setQueue x { s.queue x with dbPending := b }

end Sys2Proof.Machine
end

