-- ==== Sys2Proof/Machine/QueueOps.lean ====
section
/-! DEFINITION. The queue transactions (40_queue.md): PUSH, POP, DOORBELL_TAKE, and the status push of FILL. -/

namespace Sys2Proof.Machine

/-- The outcome a result of PUSH stands for (R340). -/
def PushResult.response : PushResult → Response
  | .ok => .ok
  | .full => .full
  | .busy => .busy
  | .waits => .waiting

/-- PUSH (R174), issued by the producer of the queue (R171). A blocking acquire that finds the lock held is not
enabled: the transaction waits at its port (log 11). -/
def execPush (x : QueueId) (m : Msg) (s : State) : Host.Outcome State Fault Refusal :=
  let r := pushQueue x m s.io.issuer s
  .next (s.asAgent (producer x) (r.2.respond r.1.response))

/-- POP (R180), issued by the consumer of the queue (R171). -/
def execPop (x : QueueId) (s : State) : Host.Outcome State Fault Refusal :=
  .next (s.asAgent (consumer x)
    (match popQueue x s with
      | (.empty, t) => t.respond .empty
      | (.msg m, t) => t.respond (.msg m)
      | (.corrupt, t) => t.fail .queueCorrupt))

/-- DOORBELL_TAKE (R188), issued by the consumer of the queue (R171). -/
def execDoorbellTake (x : QueueId) (s : State) : Host.Outcome State Fault Refusal :=
  .next (s.asAgent (consumer x) ((setDoorbell x false s).respond (.taken (s.queue x).dbPending)))

/-- `push_status(n)` (R185): PUSH(OUT, Status(n), RT) with a try-acquire; a failure drops the report. RT never waits,
so the last case is the try-acquire's. -/
def pushStatus (n : Word) (s : State) : State :=
  match pushQueue .outbound (.status n) .rt s with
  | (.ok, t) => t.record (.statusPushed n)
  | (.full, t) => t.record (.statusDropped n .full)
  | (.busy, t) => t.record (.statusDropped n .busy)
  | (.waits, t) => t.record (.statusDropped n .busy)

/-- STATUS_PUSH as an instruction of its own (R185). -/
def execStatusPush (n : Word) (s : State) : Host.Outcome State Fault Refusal :=
  .next (pushStatus n s)

end Sys2Proof.Machine
end

