-- ==== Sys2Proof/Machine/Control.lean ====
section
/-! DEFINITION. The Control Interface (44_control.md): CTL_SERVICE, APPLY_CONFIGURATION, and the arrival of a message. -/

namespace Sys2Proof.Machine

/-- The Config a ConfigureMessage asks for (R292). -/
def configuredBy (c : ConfigMsg) : TransmissionState where
  configured := true
  alternateFormat := c.alternateFormat
  payload := bytesFrom 0 (c.payload.take payloadSize)
  samplesPerBit := c.samplesPerBit
  phaseIncMark := c.phaseIncMark
  phaseIncSpace := c.phaseIncSpace
  bandwidthScale := c.bandwidthScale
  repeatCount := effectiveRepeat c.repeats

/-- The Cursor's initial values (R292). -/
def initialCursor (c : ConfigMsg) : EncoderCursor where
  bitPosition := 0
  bytePosition := 0
  currentByte := 0
  nextByte := 0
  currentBit := false
  sampleCounter := c.samplesPerBit
  repeatCounter := 0

/-- APPLY_CONFIGURATION(m) (R292): the accumulators are not written (R297). -/
def applyConfiguration (c : ConfigMsg) (s : State) : State :=
  { s with tx := configuredBy c, cur := initialCursor c, synth := { s.synth with divCounter := 0 } }

/-- APPLY_CONFIGURATION as an instruction of its own (R292). -/
def execApplyConfiguration (c : ConfigMsg) (s : State) : Host.Outcome State Fault Refusal :=
  .next (applyConfiguration c s)

/-- What CTL_SERVICE does with the message it took (R290): apply a ConfigureMessage, ignore any other kind (R294). -/
def deliver (m : Msg) (s : State) : State :=
  match m with
  | .configure c => ((applyConfiguration c s).record .configApplied).respond .applied
  | .status _ => (s.record (.configIgnored .status)).respond .ignored

/-- MSG_CONFIGURE: a ConfigureMessage arrives at the Control Interface (R290, R292; DEDUCED, log 14). -/
def execMsgConfigure (c : ConfigMsg) (s : State) : Host.Outcome State Fault Refusal :=
  .next (deliver (.configure c) s)

/-- MSG_STATUS: a StatusMessage arrives at the Control Interface, which ignores it (R294; DEDUCED, log 14). -/
def execMsgStatus (n : Word) (s : State) : Host.Outcome State Fault Refusal :=
  .next (deliver (.status n) s)

/-- CTL_SERVICE's effect (R290): take the IN doorbell, POP IN, deliver what was there. -/
def serviceControl (s : State) : State :=
  match popQueue .inbound (setDoorbell .inbound false s) with
  | (.empty, t) => t.respond .empty
  | (.msg m, t) => deliver m t
  | (.corrupt, t) => t.fail .queueCorrupt

/-- CTL_SERVICE, issued by CTL (R290, R344). -/
def execCtlService (s : State) : Host.Outcome State Fault Refusal :=
  .next (s.asAgent .ctl (serviceControl s))

end Sys2Proof.Machine
end

