-- ==== Sys2Proof/Machine/ResetOp.lean ====
section
/-! DEFINITION. RESET (70_reset_and_hazards.md R380, R381). -/

namespace Sys2Proof.Machine

/-- RESET: every field of R30 at its reset value, history emptied, marks cleared. The parameters stay (R44), and so
does what is outside the block: the waiting transactions, the turns, the caller's buffer and the buffers FILL has
returned (DEDUCED, log 10). -/
def resetBlock (s : State) : State :=
  { State.reset with params := s.params, io := s.io }

/-- RESET as an instruction: any agent may issue it, it cannot fault or be refused (R380, R345). -/
def execReset (s : State) : Host.Outcome State Fault Refusal :=
  .next ((resetBlock s).respond .ok)

end Sys2Proof.Machine
end

