-- ==== Sys2Proof/Machine/Encoder.lean ====
section
/-! DEFINITION. The Frame Encoder (42_frame_encoder.md): BIT_PERIOD and its parts, the gate, and the two frames. -/

namespace Sys2Proof.Machine

/-- The window's load: `P(byte_position)` and `P(byte_position + 1)` (R237). -/
def loadWindow (s : State) : State :=
  { s with
    cur := { s.cur with
      currentByte := payloadByte s s.cur.bytePosition.toNat
      nextByte := payloadByte s (s.cur.bytePosition.toNat + 1) } }

/-- RESTART (R240). -/
def restartPayload (s : State) : State :=
  let rewound := { s with
    cur := { s.cur with
      bitPosition := 0
      bytePosition := 0
      currentByte := payloadByte s 0
      nextByte := payloadByte s 1 } }
  let reported := pushStatus (rewound.cur.repeatCounter + 1) rewound
  { reported with cur := { reported.cur with repeatCounter := reported.cur.repeatCounter + 1 } }

/-- FINISH (R241). -/
def finishTransmission (s : State) : State :=
  let reported := pushStatus 0 s
  { reported with
    cur := { reported.cur with currentByte := 0, nextByte := 0 }
    tx := { reported.tx with configured := false } }

/-- The repeat and terminate branches of BIT_PERIOD (R234), exclusive by the repeat test (R351). -/
def endOfPayload (s : State) : State :=
  if atTerminator s then if repeatsLeft s then restartPayload s else finishTransmission s
  else s

/-- WINDOW_CHECK and what follows it, skipped while not configured (R234, R242). -/
def checkWindow (s : State) : State :=
  if s.tx.configured then endOfPayload (loadWindow s) else s

/-- FRAME_BIT (R235). -/
def frameBit (s : State) : State :=
  sendBit (framedValue s) s

/-- BIT_ADVANCE (R239). -/
def bitAdvance (s : State) : State :=
  if s.cur.bitPosition = 9 then
    { s with
      cur := { s.cur with
        bitPosition := 0
        bytePosition := s.cur.bytePosition + if formatA s then 1 else 2 } }
  else { s with cur := { s.cur with bitPosition := s.cur.bitPosition + 1 } }

/-- BIT_PERIOD (R234). -/
def bitPeriod (s : State) : State :=
  bitAdvance (frameBit (checkWindow s))

/-- `sample_counter <- v` (R231). -/
def setSampleCounter (v : Word) (s : State) : State :=
  { s with cur := { s.cur with sampleCounter := v } }

/-- ENCODER_TICK, the gate (R231); it runs whether or not `configured` is true. -/
def encoderTick (s : State) : State :=
  if gateOpen s then setSampleCounter (reloadValue s) (bitPeriod s)
  else setSampleCounter (s.cur.sampleCounter + 1) s

/-- BIT_PERIOD as an instruction of its own (R234). -/
def execBitPeriod (s : State) : Host.Outcome State Fault Refusal :=
  .next (bitPeriod s)

/-- WINDOW_CHECK as an instruction of its own (R237): the load, and whether the window is a terminator; nothing while
not configured (R242). -/
def execWindowCheck (s : State) : Host.Outcome State Fault Refusal :=
  .next (if s.tx.configured then (loadWindow s).respond (.window (atTerminator (loadWindow s))) else s)

/-- RESTART as an instruction of its own: the branch is taken under its condition, a terminator window and
`repeat_counter < repeat_count` (R240); elsewhere the step does not run (DEDUCED, log 1). -/
def execRestart (s : State) : Host.Outcome State Fault Refusal :=
  .next (if atTerminator s && repeatsLeft s then restartPayload s else s)

/-- FINISH as an instruction of its own: the branch is taken under its condition, a terminator window and
`repeat_counter >= repeat_count` (R241); elsewhere the step does not run (DEDUCED, log 1). -/
def execFinish (s : State) : Host.Outcome State Fault Refusal :=
  .next (if atTerminator s && !repeatsLeft s then finishTransmission s else s)

/-- FRAME_BIT as an instruction of its own (R235). -/
def execFrameBit (s : State) : Host.Outcome State Fault Refusal :=
  .next (frameBit s)

/-- BIT_ADVANCE as an instruction of its own (R239). -/
def execBitAdvance (s : State) : Host.Outcome State Fault Refusal :=
  .next (bitAdvance s)

/-- FRAME_A (R130): the bit of the format A frame of `d` that `bit_position` names is sent (R235; DEDUCED, log 15). -/
def execFrameA (d : Byte) (s : State) : Host.Outcome State Fault Refusal :=
  .next (sendBit (frameValueA d) s)

/-- FRAME_B (R131): the bit of the format B frame of `d` and `p` that `bit_position` names is sent (R235; log 15). -/
def execFrameB (d : Byte) (p : Bool) (s : State) : Host.Outcome State Fault Refusal :=
  .next (sendBit (frameValueB d p) s)

end Sys2Proof.Machine
end

