-- ==== Sys2Proof/Machine/FmIq.lean ====
section
/-! DEFINITION. The FM/IQ Modulator (43_fm_iq.md): FM_STEP and IQ_READ. -/

namespace Sys2Proof.Machine

/-- FM_STEP(ts) (R271): the deviation is added to `carrier_phase`, modulo 2^32. -/
def fmStep (ts : Byte) (s : State) : State :=
  { s with synth := { s.synth with carrierPhase := s.synth.carrierPhase + deviation ts s.tx.bandwidthScale } }

/-- FM_STEP as an instruction of its own (R271). -/
def execFmStep (ts : Byte) (s : State) : Host.Outcome State Fault Refusal :=
  .next (fmStep ts s)

/-- IQ_READ (R272): the pair is handed over; no block state changes. -/
def execIqRead (s : State) : Host.Outcome State Fault Refusal :=
  .next (s.respond (.iqPair (inPhase s) (quadrature s)))

end Sys2Proof.Machine
end

