-- ==== Sys2Proof/Machine/Tone.lean ====
section
/-! DEFINITION. The Tone Synthesizer (41_tone.md): TONE_STEP and TONE_READ. -/

namespace Sys2Proof.Machine

/-- TONE_STEP (R210): `tone_phase` advances by the selected increment, modulo 2^32. -/
def toneStep (s : State) : State :=
  { s with synth := { s.synth with tonePhase := s.synth.tonePhase + toneIncrement s } }

/-- TONE_STEP as an instruction of its own (R210). -/
def execToneStep (s : State) : Host.Outcome State Fault Refusal :=
  .next (toneStep s)

/-- TONE_READ (R211): the tone sample is handed over; no block state changes. -/
def execToneRead (s : State) : Host.Outcome State Fault Refusal :=
  .next (s.respond (.toneSample (toneSample s)))

end Sys2Proof.Machine
end

