-- ==== Sys2Proof/Machine/Sample.lean ====
section
/-! DEFINITION. The sample callback (45_sample_callback.md): AUDIO_TICK and FILL. -/

namespace Sys2Proof.Machine

/-- AUDIO_TICK (R312): the gate, then TONE_STEP, only when `div_counter` is 0. -/
def audioTick (s : State) : State :=
  if onAudioTick s then toneStep (encoderTick s) else s

/-- AUDIO_TICK as an instruction of its own (R312). -/
def execAudioTick (s : State) : Host.Outcome State Fault Refusal :=
  .next (audioTick s)

/-- `div_counter <- (div_counter + 1) mod AUDIO_DIV` (R310). -/
def advanceDivider (s : State) : State :=
  { s with synth := { s.synth with divCounter := (s.synth.divCounter + 1) % s.params.audioDiv } }

/-- One output sample's state changes before its pair is read (R313, steps 1 to 4). -/
def advanceSample (s : State) : State :=
  let ticked := advanceDivider (audioTick s)
  fmStep (toneSample ticked) ticked

/-- Output sample `i` (R313): the pair is read after the phase moved (R274), written, and recorded. -/
def outputSample (i : Nat) (s : State) : State :=
  let t := advanceSample s
  (bufWrite i (inPhase t, quadrature t) t).record (.sample i (inPhase t) (quadrature t))

/-- `n` output samples, the first into element `i` (R310). -/
def fillFrom : Nat → Nat → State → State
  | 0, _, s => s
  | n + 1, i, s => fillFrom n (i + 1) (outputSample i s)

/-- FILL(n) (R310), issued by RT: nothing while not configured (R311); else all n samples, also after a FINISH
(R315), and the buffer is returned. -/
def execFill (n : Word) (s : State) : Host.Outcome State Fault Refusal :=
  .next (s.asAgent .rt
    (if s.tx.configured then (returnBuffer n (fillFrom n.toNat 0 s)).respond .filled else s.respond .notConfigured))

end Sys2Proof.Machine
end

