-- ==== Sys2Proof/Machine/Dispatch.lean ====
section
/-! DEFINITION. The dispatch from the instruction to its meaning, one arm per row of spec/opcode_table.json. -/

namespace Sys2Proof.Machine

/-- The meaning of an instruction. -/
def exec (i : Instr) (s : State) : Host.Outcome State Fault Refusal :=
  match i with
  | .msgConfigure c => Sys2Proof.Machine.execMsgConfigure c s
  | .msgStatus n => Sys2Proof.Machine.execMsgStatus n s
  | .frameA d => Sys2Proof.Machine.execFrameA d s
  | .frameB d p => Sys2Proof.Machine.execFrameB d p s
  | .reset => Sys2Proof.Machine.execReset s
  | .fill n => Sys2Proof.Machine.execFill n s
  | .ctlService => Sys2Proof.Machine.execCtlService s
  | .push q m => Sys2Proof.Machine.execPush q m s
  | .pop q => Sys2Proof.Machine.execPop q s
  | .doorbellTake q => Sys2Proof.Machine.execDoorbellTake q s
  | .audioTick => Sys2Proof.Machine.execAudioTick s
  | .bitPeriod => Sys2Proof.Machine.execBitPeriod s
  | .windowCheck => Sys2Proof.Machine.execWindowCheck s
  | .restart => Sys2Proof.Machine.execRestart s
  | .finish => Sys2Proof.Machine.execFinish s
  | .frameBit => Sys2Proof.Machine.execFrameBit s
  | .bitAdvance => Sys2Proof.Machine.execBitAdvance s
  | .toneStep => Sys2Proof.Machine.execToneStep s
  | .toneRead => Sys2Proof.Machine.execToneRead s
  | .fmStep ts => Sys2Proof.Machine.execFmStep ts s
  | .iqRead => Sys2Proof.Machine.execIqRead s
  | .statusPush n => Sys2Proof.Machine.execStatusPush n s
  | .applyConfiguration c => Sys2Proof.Machine.execApplyConfiguration c s

end Sys2Proof.Machine
end

