-- ==== Sys2Proof/Machine/Fetch.lean ====
section
/-! DEFINITION. How the next transaction is taken from the ports (30_encoding.md R137, 60_exceptions.md R349), and what
becomes of one that is illegal, incomplete, or waiting. The block fetches no instructions of its own (R80, R383). -/

namespace Sys2Proof.Machine

/-- The bytes waiting at an agent's port. -/
def portOf (p : Ports) : Agent → List Byte
  | .rt => p.rt
  | .ctl => p.ctl
  | .host => p.host
  | .env => p.env

/-- The ports with one agent's bytes replaced. -/
def withPort (p : Ports) (a : Agent) (bs : List Byte) : Ports :=
  match a with
  | .rt => { p with rt := bs }
  | .ctl => { p with ctl := bs }
  | .host => { p with host := bs }
  | .env => { p with env := bs }

/-- Agent `a` issues: its port keeps `rest`, the turn is taken, nothing is handed back yet. -/
def State.issue (s : State) (a : Agent) (rest : List Byte) (turns : List Turn) : State :=
  { s with
    io := { s.io with ports := withPort s.io.ports a rest, turns := turns, issuer := a, response := .none } }

/-- The refusal a rejected transaction stands for (R344). Only the first three come from a transaction stream. -/
def refusalFor : Reject → Refusal
  | .badOp => .badOp
  | .badQueue => .badQueue
  | .badMessage => .badMessage
  | .badFrame => .badMessage
  | .incomplete => .badMessage
  | .leftOver => .badMessage
  | .noEncoding => .badOp

/-- What the next turn brings. -/
inductive Fetched where
  /-- The fault mark is set: no step is taken (R343). -/
  | halted
  /-- The turn's whole effect is this state. -/
  | settled (s : State)
  /-- Instruction `i` runs in this state. -/
  | issued (i : Instr) (s : State)
deriving DecidableEq, Repr

/-- The same, unless the fault mark is set (R343). -/
def unlessHalted (s : State) (f : Fetched) : Fetched :=
  if s.faultMark.isSome then .halted else f

/-- The next turn. With no turn to come the block does nothing (R383; log 2). An agent whose port holds no whole
transaction lets its turn pass (DESIGN CHOICE, log 13). RESET runs whatever the marks say (R380). -/
def fetch (s : State) : Fetched :=
  match s.io.turns with
  | [] => unlessHalted s (.settled s)
  | .spuriousDoorbell q :: turns =>
    unlessHalted s (.settled (setDoorbell q true { s with io := { s.io with turns := turns } }))
  | .supplyBuffer bytes :: turns =>
    unlessHalted s (.settled (supplyBuffer bytes { s with io := { s.io with turns := turns } }))
  | .port a :: turns =>
    match decodeTransaction (portOf s.io.ports a) with
    | .ok i rest =>
      if i = .reset then .issued i (s.issue a rest turns)
      else unlessHalted s (.issued i (s.issue a rest turns))
    | .rejected r rest => unlessHalted s (.settled ((s.issue a rest turns).refuse (refusalFor r)))
    | .incomplete => unlessHalted s (.settled (s.issue a (portOf s.io.ports a) turns))

/-- A transaction that waits for the lock stays at its port (R174; log 11): `before` is the state it was fetched in. -/
def keepWaiting (before : State) : Host.Outcome State Fault Refusal → Host.Outcome State Fault Refusal
  | .next t =>
    if t.io.response = .waiting then .next { t with io := { t.io with ports := before.io.ports } } else .next t
  | .fault r => .fault r
  | .refused r => .refused r

/-- The agent whose role the queue operand asks for; an illegal operand names no role (DESIGN CHOICE, log 2: it comes from
the environment). -/
def roleOfQueue (role : QueueId → Agent) (operand : Byte) : Agent :=
  match decQueue operand with
  | some q => role q
  | none => .env

/-- The agent whose role a transaction's bytes ask for (R136, R171). RESET comes from the environment, and so do bytes that
name no role: an illegal op code or queue operand (DESIGN CHOICE, log 2). -/
def roleOf (bs : List Byte) : Agent :=
  match (byteField bs 0).toNat with
  | 1 => .rt
  | 2 => .ctl
  | 3 => roleOfQueue producer (byteField bs 1)
  | 4 => roleOfQueue consumer (byteField bs 1)
  | 5 => roleOfQueue consumer (byteField bs 1)
  | _ => .env

/-- The state with a transaction's bytes placed before what waits at the port of their role, and that port's turn next. -/
def placeTransaction (bs : List Byte) (s : State) : State :=
  { s with
    io := { s.io with
      ports := withPort s.io.ports (roleOf bs) (bs ++ portOf s.io.ports (roleOf bs))
      turns := .port (roleOf bs) :: s.io.turns } }

end Sys2Proof.Machine
end

