-- ==== Sys2Proof/Machine/Step.lean ====
section
/-! DEFINITION. One step of the machine: one turn, with the whole transaction it brings (00_scope.md R8). -/

namespace Sys2Proof.Machine

/-- One step. -/
def step (s : State) : Host.Outcome State Fault Refusal :=
  match fetch s with
  | .halted => .fault .queueCorrupt
  | .settled t => .next t
  | .issued i t => keepWaiting s (exec i t)

/-- The state whose next step fetches the instruction with the given table bits (30_encoding.md R136; log 2, log 16). -/
def State.withFetchWord (s : State) (nbits w : Nat) : State :=
  placeTransaction (tableBytes nbits w) s

end Sys2Proof.Machine
end

