-- ==== Sys2Proof/Machine/Script.lean ====
section
/-! DEFINITION. The transaction scripts of 30_encoding.md R140 and the pseudo-instructions of R141, as what their text
stands for: statements, the transactions they expand to, and a run of them by the machine's step (log 23). -/

namespace Sys2Proof.Machine

/-- `CONFIG` (R140): a field left out is 0, and `[...] * N` repeats the list N times. -/
structure ScriptConfig where
  payload : List Byte := []
  times : Nat := 1
  spb : Nat := 0
  mark : Nat := 0
  space : Nat := 0
  repeats : Nat := 0
  bw : Int := 0
  alt : Nat := 0
deriving DecidableEq, Repr

/-- `msg` (R140). -/
inductive ScriptMsg where
  | config (c : ScriptConfig)
  | status (n : Nat)
deriving DecidableEq, Repr

/-- `stmt` (R140) and the pseudo-instructions (R141); the prefix is an agent. -/
inductive Stmt where
  | reset
  | rtFill (n : Nat)
  | ctlService
  | push (a : Agent) (q : QueueId) (m : ScriptMsg)
  | pop (a : Agent) (q : QueueId)
  | take (a : Agent) (q : QueueId)
  | hostConfigure (m : ScriptMsg)
  | hostDrain
  | ctlDrain
deriving DecidableEq, Repr

/-- The payload of a `CONFIG`, padded with zero bytes to 512 (R140). DESIGN CHOICE (log 23): a longer list is not cut. -/
def ScriptConfig.paddedPayload (c : ScriptConfig) : List Byte :=
  let bs := (List.replicate c.times c.payload).flatten
  bs ++ List.replicate (payloadSize - bs.length) 0

/-- The message a `msg` stands for (R140). DESIGN CHOICE (log 23): numbers are taken modulo the width of their field, and a
payload list over 512 bytes stays as long as it is. Its PUSH carries the length modulo 2^16: it is refused as BadMessage,
but 512 + 65536 j bytes (j at least 1) say 534, so the first 534 bytes are pushed and the others stay at the port. -/
def ScriptMsg.message : ScriptMsg → Msg
  | .config c => .configure {
      payload := c.paddedPayload
      samplesPerBit := BitVec.ofNat 32 c.spb
      phaseIncMark := BitVec.ofNat 32 c.mark
      phaseIncSpace := BitVec.ofNat 32 c.space
      repeats := BitVec.ofNat 32 c.repeats
      bandwidthScale := BitVec.ofInt 32 c.bw
      alternateFormat := BitVec.ofNat 8 c.alt != 0 }
  | .status n => .status (BitVec.ofNat 32 n)

/-- What a statement expands to: one transaction, or one repeated until it returns `Empty` (R141). -/
inductive Expansion where
  | once (a : Agent) (i : Instr)
  | untilEmpty (a : Agent) (q : QueueId) (i : Instr)
deriving DecidableEq, Repr

/-- The expansion of a statement (R140, R141). -/
def Stmt.expand : Stmt → List Expansion
  | .reset => [.once .env .reset]
  | .rtFill n => [.once .rt (.fill (BitVec.ofNat 32 n))]
  | .ctlService => [.once .ctl .ctlService]
  | .push a q m => [.once a (.push q m.message)]
  | .pop a q => [.once a (.pop q)]
  | .take a q => [.once a (.doorbellTake q)]
  | .hostConfigure m => [.once .host (.push .inbound m.message), .once .ctl .ctlService]
  | .hostDrain => [.untilEmpty .host .outbound (.pop .outbound)]
  | .ctlDrain => [.untilEmpty .ctl .inbound .ctlService]

/-- The bytes of a transaction (R136); nothing for what is no transaction. -/
def transactionBytes (i : Instr) : List Byte :=
  match encode i with
  | .transaction bs => bs
  | .body _ => []
  | .frame _ _ => []
  | .unencoded => []

/-- Agent `a` brings a transaction to its port, as the next turn. -/
def State.arrive (a : Agent) (i : Instr) (s : State) : State :=
  { s with
    io := { s.io with
      ports := withPort s.io.ports a (transactionBytes i ++ portOf s.io.ports a)
      turns := .port a :: s.io.turns } }

/-- Goes on from a next state. -/
def andThen (o : Host.Outcome State Fault Refusal) (f : State → Host.Outcome State Fault Refusal) :
    Host.Outcome State Fault Refusal :=
  match o with
  | .next t => f t
  | .fault r => .fault r
  | .refused r => .refused r

/-- The transaction repeated until one returns `Empty`, at most `fuel` times. -/
def repeatUntilEmpty (a : Agent) (i : Instr) : Nat → State → Host.Outcome State Fault Refusal
  | 0, s => .next s
  | fuel + 1, s =>
    andThen (step (s.arrive a i)) fun t =>
      if t.io.response = .empty then .next t else repeatUntilEmpty a i fuel t

/-- One item of an expansion, by the machine's step. A record is at least two bytes long, so a queue of `used` bytes
is empty before `used + 1` pops are over. -/
def Expansion.run (e : Expansion) (s : State) : Host.Outcome State Fault Refusal :=
  match e with
  | .once a i => step (s.arrive a i)
  | .untilEmpty a q i => repeatUntilEmpty a i ((s.queue q).used + 1) s

/-- The items of an expansion, in order. -/
def runExpansions : List Expansion → State → Host.Outcome State Fault Refusal
  | [], s => .next s
  | e :: es, s => andThen (e.run s) (runExpansions es)

/-- A script, line by line (R140). -/
def runScript (stmts : List Stmt) (s : State) : Host.Outcome State Fault Refusal :=
  runExpansions (stmts.flatMap Stmt.expand) s

end Sys2Proof.Machine
end

