-- ==== Sys2Proof/Machine/Rates.lean ====
section
/-! DEFINITION. The physical rates that follow from the parameters (41_tone.md R214, 70_reset_and_hazards.md R397), and
the outcome codes (60_exceptions.md R342). No meaning reads them. -/

namespace Sys2Proof.Machine

/-- The audio tick rate, SAMPLE_RATE / AUDIO_DIV (R397). DESIGN CHOICE (log 5, log 22): SAMPLE_RATE is a whole number. -/
def audioRate (p : Params) : Rat :=
  (p.sampleRate : Rat) / (p.audioDiv : Rat)

/-- The tone frequency of an increment (R214). -/
def toneFrequency (p : Params) (inc : Word) : Rat :=
  ((inc.toNat % 2 ^ effWidth : Nat) : Rat) / ((2 ^ effWidth : Nat) : Rat) * audioRate p

/-- The audio ticks a bit lasts (R232): `samples_per_bit` under reload 1, one more under reload 0, one when it is 0. -/
def ticksPerBit (p : Params) (samplesPerBit : Word) : Nat :=
  if p.reloadOne then max samplesPerBit.toNat 1 else samplesPerBit.toNat + 1

/-- The bit rate (R397). -/
def bitRate (p : Params) (samplesPerBit : Word) : Rat :=
  audioRate p / (ticksPerBit p samplesPerBit : Rat)

/-- The refusal codes (R344); an instruction without a meaning has none. -/
def Refusal.code : Refusal → Option Byte
  | .badOp => some 0xE0#8
  | .badQueue => some 0xE1#8
  | .badMessage => some 0xE2#8
  | .wrongAgent => some 0xE3#8
  | _ => none

/-- The outcome codes (R342); what an internal step hands over has none. -/
def Response.code : Response → Option Byte
  | .ok => some 0x00#8
  | .full => some 0x01#8
  | .busy => some 0x02#8
  | .empty => some 0x03#8
  | .msg _ => some 0x04#8
  | .applied => some 0x05#8
  | .ignored => some 0x06#8
  | .filled => some 0x07#8
  | .notConfigured => some 0x08#8
  | .taken false => some 0x09#8
  | .taken true => some 0x0A#8
  | .refused r => r.code
  | .faulted .queueCorrupt => some 0xF0#8
  | .none => Option.none
  | .waiting => Option.none
  | .window _ => Option.none
  | .toneSample _ => Option.none
  | .iqPair _ _ => Option.none

/-- An outcome as bytes: its code, and after the code of `Msg(m)` the body of m (R342). -/
def Response.bytes : Response → List Byte
  | .msg m => 0x04#8 :: encMsg m
  | r => r.code.toList

end Sys2Proof.Machine
end

