-- ==== Sys2Proof/Safety.lean ====
section
/-! DEFINITION. What counts as a safe run, in the terms the statements use: the invariants of 10_state.md R53, R54, R59,
the whole records a ring holds, the marks, and which outcomes a transaction may hand back (60_exceptions.md R345). -/

namespace Sys2Proof.Machine

/-- Neither mark is set: nothing was refused and nothing faulted (R343, R344, R398). -/
abbrev Unmarked (s : State) : Prop :=
  s.faultMark = none ∧ s.refusalMark = none

/-- The cursor invariants of R59, with R42's range of `div_counter`. -/
structure CursorInv (s : State) : Prop where
  bitPosition : s.cur.bitPosition ≤ 9
  repeatCounter : s.cur.repeatCounter.toNat ≤ s.tx.repeatCount.toNat
  bytePosition : s.tx.configured = true → s.cur.bytePosition.toNat ≤ payloadSize
  evenInFormatB : s.tx.configured = true → formatA s = false → s.cur.bytePosition.toNat % 2 = 0
  sampleCounter : s.cur.sampleCounter.toNat ≤ max s.tx.samplesPerBit.toNat (reloadValue s).toNat
  divCounter : s.synth.divCounter < s.params.audioDiv

/-- The occupied part of a ring of `k` bytes holds exactly the records of `ms`, back to back, oldest first (R53). -/
def Queue.Holds (k : Nat) (q : Queue) (ms : List Msg) : Prop :=
  (∀ m ∈ ms, m.wellFormed = true) ∧ ringRead k q.ring q.rd q.used = ms.flatMap encRecord

/-- A queue between transactions: its lock is free (R54), its ring a canonical memory of `k` bytes. -/
structure QueueInv (k : Nat) (q : Queue) : Prop where
  lock : q.lock = .free
  ringWf : q.ring.wf = true
  ringBelow : q.ring.below k = true

/-- The invariant of the block: legal parameters, canonical memories, the cursor's and the queues' invariants. -/
structure BlockInv (s : State) : Prop where
  legal : s.params.legal
  cursor : CursorInv s
  payloadWf : s.tx.payload.wf = true
  payloadBelow : s.tx.payload.below payloadSize = true
  bufferWf : s.io.buffer.wf = true
  filledWf : ∀ b ∈ s.io.filled, b.bytes.wf = true
  qIn : QueueInv (ringCapacity s.params .inbound) s.qIn
  qOut : QueueInv (ringCapacity s.params .outbound) s.qOut

/-- Queue `x` is within its capacity and holds exactly the messages `ms`, oldest first (R53). -/
structure Contents (s : State) (x : QueueId) (ms : List Msg) : Prop where
  used : (s.queue x).used ≤ ringCapacity s.params x
  records : (s.queue x).Holds (ringCapacity s.params x) ms

/-- The invariant of every state reached from RESET: the block's, whole records in both rings (R53), no fault (R183). -/
structure MachineInv (s : State) : Prop where
  block : BlockInv s
  inbound : ∃ ms, Contents s .inbound ms
  outbound : ∃ ms, Contents s .outbound ms
  faultMark : s.faultMark = none

/-- The rows of the table that are transactions (R136); the others are messages, frames and internal steps. -/
def isTransaction : Instr → Bool
  | .reset | .fill _ | .ctlService | .push _ _ | .pop _ | .doorbellTake _ => true
  | .msgConfigure _ | .msgStatus _ | .frameA _ | .frameB _ _ => false
  | .audioTick | .bitPeriod | .windowCheck | .restart | .finish | .frameBit | .bitAdvance => false
  | .toneStep | .toneRead | .fmStep _ | .iqRead | .statusPush _ | .applyConfiguration _ => false

/-- The outcomes, faults and refusals R345 lists for a transaction. The refusals `BadQueue`, `BadMessage` and `BadOp`
come before a transaction runs (R122), so no instruction hands them back. -/
def mayHandBack : Instr → Response → Bool
  | .reset, r => r == .ok
  | .fill _, r => r == .filled || r == .notConfigured || r == .refused .wrongAgent
  | .ctlService, r =>
    r == .applied || r == .ignored || r == .empty || r == .faulted .queueCorrupt || r == .refused .wrongAgent
  | .push _ _, r => r == .ok || r == .full || r == .busy || r == .refused .wrongAgent
  | .pop _, .msg _ => true
  | .pop _, r => r == .empty || r == .faulted .queueCorrupt || r == .refused .wrongAgent
  | .doorbellTake _, .taken _ => true
  | .doorbellTake _, r => r == .refused .wrongAgent
  | _, _ => false

/-! ### Words for the statements -/

/-- The state with another agent at the port. -/
def State.issuedBy (s : State) (a : Agent) : State :=
  { s with io := { s.io with issuer := a } }

/-- `n` executions of one instruction in a row. -/
def repeatExec (i : Instr) : Nat → State → Option State
  | 0, s => some s
  | n + 1, s =>
    match exec i s with
    | .next t => repeatExec i n t
    | .fault _ => none
    | .refused _ => none

/-- The bits `n` bit periods send, in the order sent, and the state after them. -/
def sendBits : Nat → State → Option (List Bool × State)
  | 0, s => some ([], s)
  | n + 1, s =>
    match exec .bitPeriod s with
    | .next t => (sendBits n t).map fun r => (t.cur.currentBit :: r.1, r.2)
    | .fault _ => none
    | .refused _ => none

/-- The bit sent at bit position `p` of a frame `0 d7 .. d0 last` (R130, R131, R87). -/
def frameBitAt (d : Byte) (last : Bool) (p : Nat) : Bool :=
  if p = 0 then false else if p = 9 then last else d.getLsbD (8 - p)

/-- The last bit of a frame: the stop bit in format A, bit 0 of the next byte in format B (R235). -/
def lastFrameBit (s : State) (next : Byte) : Bool :=
  if formatA s then true else next.getLsbD 0

/-- `bit_position` after a bit period (R239). -/
def nextBitPosition (p : Nat) : Nat :=
  if p = 9 then 0 else p + 1

/-- `byte_position` after a bit period at bit position `p` (R239). -/
def nextBytePosition (s : State) (p : Nat) : Word :=
  if p = 9 then s.cur.bytePosition + (if formatA s then 1 else 2) else s.cur.bytePosition

/-- The event is a `Sample` (R61). -/
def isSample : Event → Bool
  | .sample _ _ _ => true
  | .statusPushed _ | .statusDropped _ _ | .configApplied | .configIgnored _ => false

/-- The report numbers of a history, pushed or dropped, oldest first (R243). -/
def reportNumbers : List Event → List Word
  | [] => []
  | .statusPushed n :: es => n :: reportNumbers es
  | .statusDropped n _ :: es => n :: reportNumbers es
  | .sample _ _ _ :: es => reportNumbers es
  | .configApplied :: es => reportNumbers es
  | .configIgnored _ :: es => reportNumbers es

/-- `t` has the Config, Cursor and divider a ConfigureMessage asks for, and the accumulators of `s` (R292, R297). -/
structure AppliedBy (c : ConfigMsg) (s t : State) : Prop where
  configured : t.tx.configured = true
  payload : ∀ i < payloadSize, payloadByte t i = c.payload.getD i 0
  samplesPerBit : t.tx.samplesPerBit = c.samplesPerBit
  phaseIncMark : t.tx.phaseIncMark = c.phaseIncMark
  phaseIncSpace : t.tx.phaseIncSpace = c.phaseIncSpace
  bandwidthScale : t.tx.bandwidthScale = c.bandwidthScale
  repeatCount : t.tx.repeatCount.toNat = max c.repeats.toNat 1 - 1
  alternateFormat : t.tx.alternateFormat = c.alternateFormat
  cursor : t.cur = { bitPosition := 0, bytePosition := 0, currentByte := 0, nextByte := 0, currentBit := false,
                     sampleCounter := c.samplesPerBit, repeatCounter := 0 }
  synth : t.synth = { s.synth with divCounter := 0 }

end Sys2Proof.Machine
end

