-- ==== Sys2Proof/Certificates/Slice0/Obligations.lean ====
section
/-! DEFINITION. The statements for the provers. The ids are those of OBLIGATIONS.json. -/

open Sys2Proof Sys2Proof.Machine

/-! ### Reset and idle -/

/-- O1, R381: after RESET every field has its listed reset value; the table is unchanged. -/
def Obligations.ResetGivesTheListedValues : Prop :=
  ∀ s : State, ∃ t, exec .reset s = .next t ∧
    t.tx.configured = false ∧ t.tx.alternateFormat = false ∧ (∀ i < payloadSize, payloadByte t i = 0) ∧
    t.tx.samplesPerBit = 0 ∧ t.tx.phaseIncMark = 0 ∧ t.tx.phaseIncSpace = 0 ∧ t.tx.bandwidthScale = 0 ∧
    t.tx.repeatCount = 0 ∧ t.synth.tonePhase = 0 ∧ t.synth.carrierPhase = 0 ∧ t.synth.divCounter = 0 ∧
    t.cur.bitPosition = 0 ∧ t.cur.bytePosition = 0 ∧ t.cur.currentByte = 0 ∧ t.cur.nextByte = 0 ∧
    t.cur.currentBit = false ∧ t.cur.sampleCounter = 0 ∧ t.cur.repeatCounter = 0 ∧
    (∀ x, (t.queue x).wr = 0 ∧ (t.queue x).rd = 0 ∧ (t.queue x).lock = .free ∧ (t.queue x).dbPending = false) ∧
    t.params.sineTable = s.params.sineTable ∧
    t.history = [] ∧ t.faultMark = none ∧ t.refusalMark = none ∧ t.io.response = .ok

/-- O2, R380, R91 and the model's choices: whatever state the block was in, RESET leaves the same one, the ring bytes
included (zero by log 6, where R381 leaves them unspecified), keeping only the parameters and what is outside the block
(log 10); a second RESET changes nothing. -/
def Obligations.ResetForgetsEverything : Prop :=
  ∀ s s' : State, s.params = s'.params → s.io = s'.io →
    ∃ t, exec .reset s = .next t ∧ exec .reset s' = .next t ∧ exec .reset t = .next t ∧ t.params = s.params ∧
      t.io = { s.io with response := .ok }

/-- O3, R382: after RESET, FILL, CTL_SERVICE and POP of OUT find nothing to do; and among transactions only a CTL_SERVICE
that applies a ConfigureMessage leaves Idle. -/
def Obligations.ResetBlockIsIdleUntilConfigured : Prop :=
  (∀ s t : State, exec .reset s = .next t →
    (∀ n, exec (.fill n) (t.issuedBy .rt) = .next ((t.issuedBy .rt).respond .notConfigured)) ∧
    exec .ctlService (t.issuedBy .ctl) = .next ((t.issuedBy .ctl).respond .empty) ∧
    exec (.pop .outbound) (t.issuedBy .host) = .next ((t.issuedBy .host).respond .empty)) ∧
  ∀ (i : Instr) (s t : State), isTransaction i = true → s.tx.configured = false → exec i s = .next t →
    t.tx.configured = true → i = .ctlService ∧ t.io.response = .applied

/-! ### FILL -/

/-- O4, R311: an idle FILL writes no buffer element and no state; only its outcome is handed back. -/
def Obligations.FillWhileIdleDoesNothing : Prop :=
  ∀ (n : Word) (s : State), s.io.issuer = .rt → s.tx.configured = false →
    exec (.fill n) s = .next { s with io := { s.io with response := .notConfigured } }

/-- O5, R316: FILL of no samples writes nothing. -/
def Obligations.FillOfNoSamplesWritesNothing : Prop :=
  ∀ s : State, s.io.issuer = .rt →
    exec (.fill 0) s =
      .next { s with io := { s.io with response := if s.tx.configured then .filled else .notConfigured } }

/-- O6: a configured FILL completes, and keeps the parameters, all of Config but `configured`, IN, the marks, the ports,
OUT's read side, and every buffer byte from 2n up; and it returns the buffer it wrote, as it then stands (R398, log 24). -/
def Obligations.FillCompletesAndKeepsTheRest : Prop :=
  ∀ (n : Word) (s : State), s.io.issuer = .rt → s.tx.configured = true →
    ∃ t, exec (.fill n) s = .next t ∧ t.io.response = .filled ∧ t.params = s.params ∧
      t.tx = { s.tx with configured := t.tx.configured } ∧ t.qIn = s.qIn ∧ t.qOut.rd = s.qOut.rd ∧
      t.qOut.lock = s.qOut.lock ∧ t.faultMark = s.faultMark ∧ t.refusalMark = s.refusalMark ∧
      t.io = { s.io with buffer := t.io.buffer, filled := t.io.filled, response := .filled } ∧
      t.io.filled = (if n = 0 then s.io.filled
        else s.io.filled ++ [{ count := n.toNat, bytes := t.io.buffer }]) ∧
      ∀ a, 2 * n.toNat ≤ a → readByte t.io.buffer a = readByte s.io.buffer a

/-- O7, R85, R61: a configured FILL writes elements 0 to n - 1, each once and in order, I at 2i and Q at 2i + 1, and
records one Sample event for each. -/
def Obligations.FillWritesEachElementOnce : Prop :=
  ∀ (n : Word) (s : State), s.io.issuer = .rt → s.tx.configured = true → s.io.buffer.wf = true →
    ∃ (t : State) (es : List Event) (iq : List (Byte × Byte)), exec (.fill n) s = .next t ∧
      t.history = s.history ++ es ∧ iq.length = n.toNat ∧
      es.filter isSample = iq.mapIdx (fun i p => .sample i p.1 p.2) ∧
      ∀ i p, iq[i]? = some p → readByte t.io.buffer (2 * i) = p.1 ∧ readByte t.io.buffer (2 * i + 1) = p.2

/-- O8, R313, R315: every output sample of a FILL, said of sample `n` as what FILL of n + 1 samples does after FILL of `n`
(also when a FINISH has run among the first `n`): the audio tick's steps, then the divider, TONE_READ from the new tone
phase, FM_STEP with that sample, IQ_READ from the new carrier phase, and the write of element `n`. -/
def Obligations.FillOneSampleFollowsTheOrder : Prop :=
  ∀ (n : Nat) (s : State), s.io.issuer = .rt → s.tx.configured = true → s.params.legal → s.io.buffer.wf = true →
    n + 1 < 2 ^ 32 →
    ∃ (t u v : State) (ts I Q : Byte) (carrier : Word), exec (.fill (BitVec.ofNat 32 n)) s = .next t ∧
      exec .audioTick t = .next u ∧ exec (.fill (BitVec.ofNat 32 (n + 1))) s = .next v ∧
      s.params.sineTable[(u.synth.tonePhase.toNat / 2 ^ 18) % 256]? = some ts ∧
      carrier = BitVec.ofInt 32 ((t.synth.carrierPhase.toNat : Int) + ts.toInt * s.tx.bandwidthScale.toInt) ∧
      s.params.sineTable[(carrier.toNat / 2 ^ 18) % 256]? = some I ∧
      s.params.sineTable[((carrier.toNat + 2 ^ 24) / 2 ^ 18) % 256]? = some Q ∧
      v.synth = { tonePhase := u.synth.tonePhase, carrierPhase := carrier,
                  divCounter := (t.synth.divCounter + 1) % s.params.audioDiv } ∧
      v.cur = u.cur ∧ v.tx = u.tx ∧ v.qIn = u.qIn ∧ v.qOut = u.qOut ∧ v.history = u.history ++ [.sample n I Q] ∧
      readByte v.io.buffer (2 * n) = I ∧ readByte v.io.buffer (2 * n + 1) = Q ∧
      ∀ a, a ≠ 2 * n → a ≠ 2 * n + 1 → readByte v.io.buffer a = readByte t.io.buffer a

/-- O9, R312: FILL of m + n samples leaves the block as FILL of m and then of n, while the block stays configured: the
divider, the accumulators and the cursor run on across buffer boundaries. -/
def Obligations.FillRunsOnAcrossBuffers : Prop :=
  ∀ (m n : Word) (s t : State), s.io.issuer = .rt → m.toNat + n.toNat < 2 ^ 32 → s.tx.configured = true →
    exec (.fill m) s = .next t → t.tx.configured = true →
    ∃ u v, exec (.fill n) t = .next u ∧ exec (.fill (m + n)) s = .next v ∧
      u.tx = v.tx ∧ u.synth = v.synth ∧ u.cur = v.cur ∧ u.qIn = v.qIn ∧ u.qOut = v.qOut ∧
      reportNumbers u.history = reportNumbers v.history

/-- O10, R185, R318: what a FILL adds to OUT is whole Status records after those already there, and it changes no ring
byte outside the ones it committed. -/
def Obligations.FillOnlyAppendsReports : Prop :=
  ∀ (n : Word) (s : State) (ms : List Msg), s.io.issuer = .rt → BlockInv s → Contents s .outbound ms →
    ∃ (t : State) (ns : List Word), exec (.fill n) s = .next t ∧ Contents t .outbound (ms ++ ns.map .status) ∧
      ∀ r, (∀ j < (t.qOut.wr - s.qOut.wr).toNat,
          r ≠ (s.qOut.wr.toNat + j) % ringCapacity s.params .outbound) →
        readByte t.qOut.ring r = readByte s.qOut.ring r

/-- O11, R312, R231: AUDIO_TICK does nothing off the tick; on it, a closed gate counts and an open gate runs BIT_PERIOD and
reloads the counter, and TONE_STEP then uses the bit just sent. -/
def Obligations.AudioTickRunsTheGateThenTheTone : Prop :=
  ∀ s : State,
    (s.synth.divCounter ≠ 0 → exec .audioTick s = .next s) ∧
    (s.synth.divCounter = 0 → s.cur.sampleCounter.toNat < s.tx.samplesPerBit.toNat →
      exec .audioTick s = .next { s with
        cur := { s.cur with sampleCounter := BitVec.ofNat 32 (s.cur.sampleCounter.toNat + 1) }
        synth := { s.synth with
          tonePhase := s.synth.tonePhase + if s.cur.currentBit then s.tx.phaseIncMark else s.tx.phaseIncSpace } }) ∧
    (s.synth.divCounter = 0 → s.tx.samplesPerBit.toNat ≤ s.cur.sampleCounter.toNat →
      ∃ u, exec .bitPeriod s = .next u ∧ exec .audioTick s = .next { u with
        cur := { u.cur with sampleCounter := if s.params.reloadOne then 1 else 0 }
        synth := { s.synth with
          tonePhase := s.synth.tonePhase + if u.cur.currentBit then s.tx.phaseIncMark else s.tx.phaseIncSpace } })

/-! ### The Frame Encoder -/

/-- O12, R234: a bit period whose window is no terminator loads the window, sends the bit of its frame that bit_position
names, and advances; nothing else changes. -/
def Obligations.BitPeriodSendsAWindowBit : Prop :=
  ∀ s : State, s.tx.configured = true → s.cur.bitPosition ≤ 9 →
    ¬(payloadByte s s.cur.bytePosition.toNat = 0 ∧ payloadByte s (s.cur.bytePosition.toNat + 1) = 0) →
    exec .bitPeriod s = .next { s with
      cur := { s.cur with
        currentByte := payloadByte s s.cur.bytePosition.toNat
        nextByte := payloadByte s (s.cur.bytePosition.toNat + 1)
        currentBit := frameBitAt (payloadByte s s.cur.bytePosition.toNat)
          (lastFrameBit s (payloadByte s (s.cur.bytePosition.toNat + 1))) s.cur.bitPosition
        bitPosition := nextBitPosition s.cur.bitPosition
        bytePosition := nextBytePosition s s.cur.bitPosition } }

/-- O13, R242: while not configured a bit period skips the window, frames the two bytes as they stand, and advances. -/
def Obligations.BitPeriodAfterFinishKeepsTheBytes : Prop :=
  ∀ s : State, s.tx.configured = false → s.cur.bitPosition ≤ 9 →
    exec .bitPeriod s = .next { s with
      cur := { s.cur with
        currentBit := frameBitAt s.cur.currentByte (lastFrameBit s s.cur.nextByte) s.cur.bitPosition
        bitPosition := nextBitPosition s.cur.bitPosition
        bytePosition := nextBytePosition s s.cur.bitPosition } }

/-- O14, R240: a terminator with repeats left reports the next repeat, rewinds, and sends the start bit of byte 0. -/
def Obligations.BitPeriodRestartsAtATerminator : Prop :=
  ∀ s : State, s.tx.configured = true → payloadByte s s.cur.bytePosition.toNat = 0 →
    payloadByte s (s.cur.bytePosition.toNat + 1) = 0 → s.cur.repeatCounter.toNat < s.tx.repeatCount.toNat →
    ∃ u, exec (.statusPush (s.cur.repeatCounter + 1)) s = .next u ∧
      exec .bitPeriod s = .next { u with
        cur := { s.cur with
          bitPosition := 1
          bytePosition := 0
          currentByte := payloadByte s 0
          nextByte := payloadByte s 1
          currentBit := false
          repeatCounter := s.cur.repeatCounter + 1 } }

/-- O15, R241: a terminator with no repeats left reports completion, zeroes the window, clears `configured`, and sends the
zero frame's bit. -/
def Obligations.BitPeriodFinishesAtATerminator : Prop :=
  ∀ s : State, s.tx.configured = true → s.cur.bitPosition ≤ 9 → payloadByte s s.cur.bytePosition.toNat = 0 →
    payloadByte s (s.cur.bytePosition.toNat + 1) = 0 → s.tx.repeatCount.toNat ≤ s.cur.repeatCounter.toNat →
    ∃ u, exec (.statusPush 0) s = .next u ∧
      exec .bitPeriod s = .next { u with
        tx := { s.tx with configured := false }
        cur := { s.cur with
          currentByte := 0
          nextByte := 0
          currentBit := frameBitAt 0 (lastFrameBit s 0) s.cur.bitPosition
          bitPosition := nextBitPosition s.cur.bitPosition
          bytePosition := nextBytePosition s s.cur.bitPosition } }

/-- O16, R87: ten bit periods from bit position 0 on a window that is no terminator send one frame: the start bit 0, the
byte from bit 7 down to bit 0, then the stop or parity bit; and the cursor moves on by 1 byte, or by 2 in format B. -/
def Obligations.TenBitPeriodsSendOneFrame : Prop :=
  ∀ s : State, s.tx.configured = true → s.cur.bitPosition = 0 →
    ¬(payloadByte s s.cur.bytePosition.toNat = 0 ∧ payloadByte s (s.cur.bytePosition.toNat + 1) = 0) →
    ∃ t, sendBits 10 s = some
        (false :: (List.range 8).map (fun i => (payloadByte s s.cur.bytePosition.toNat).getLsbD (7 - i)) ++
          [if formatA s then true else (payloadByte s (s.cur.bytePosition.toNat + 1)).getLsbD 0], t) ∧
      t.cur.bitPosition = 0 ∧
      t.cur.bytePosition.toNat = s.cur.bytePosition.toNat + (if formatA s then 1 else 2) ∧
      t.tx = s.tx ∧ t.cur.repeatCounter = s.cur.repeatCounter ∧ t.qOut = s.qOut ∧ t.synth = s.synth

/-- O17, R245, R87: a transmission from the first byte: while the windows are no terminators, ten bit periods each send the
frames of the payload's bytes in order (format B every second byte, its successor's bit 0 last); and when the next window is
a terminator, the very next bit period restarts with the start bit of byte 0, or finishes. -/
def Obligations.TransmissionSendsThePayload : Prop :=
  ∀ (s : State) (n w : Nat), s.tx.configured = true → s.cur.bitPosition = 0 → s.cur.bytePosition = 0 →
    w = (if formatA s then 1 else 2) →
    (∀ i < n, ¬(payloadByte s (w * i) = 0 ∧ payloadByte s (w * i + 1) = 0)) →
    ∃ t, sendBits (10 * n) s = some
        ((List.range n).flatMap (fun i => (List.range 10).map
          (frameBitAt (payloadByte s (w * i)) (lastFrameBit s (payloadByte s (w * i + 1))))), t) ∧
      t.cur.bitPosition = 0 ∧ t.cur.bytePosition.toNat = w * n ∧ t.cur.repeatCounter = s.cur.repeatCounter ∧
      t.tx = s.tx ∧ t.qOut = s.qOut ∧ t.history = s.history ∧ t.synth = s.synth ∧
      (payloadByte s (w * n) = 0 → payloadByte s (w * n + 1) = 0 →
        ∃ v, exec .bitPeriod t = .next v ∧ v.cur.currentBit = false ∧ v.cur.bitPosition = 1 ∧
          (s.cur.repeatCounter.toNat < s.tx.repeatCount.toNat →
            v.tx = s.tx ∧ v.cur.bytePosition = 0 ∧ v.cur.currentByte = payloadByte s 0 ∧
            ∃ u, exec (.statusPush (s.cur.repeatCounter + 1)) t = .next u ∧ v.qOut = u.qOut ∧ v.history = u.history) ∧
          (s.tx.repeatCount.toNat ≤ s.cur.repeatCounter.toNat →
            v.tx.configured = false ∧
            ∃ u, exec (.statusPush 0) t = .next u ∧ v.qOut = u.qOut ∧ v.history = u.history))

/-- O18, R235: FRAME_BIT sends bit 9 - bit_position of the framed value: the start bit, a data bit, or the last bit. -/
def Obligations.FrameBitSendsTheNamedBit : Prop :=
  ∀ s : State, s.cur.bitPosition ≤ 9 →
    exec .frameBit s = .next { s with
      cur := { s.cur with
        currentBit :=
          if s.cur.bitPosition = 0 then false
          else if s.cur.bitPosition = 9 then
            (if s.tx.alternateFormat = s.params.altSelectsA then true else s.cur.nextByte.getLsbD 0)
          else s.cur.currentByte.getLsbD (8 - s.cur.bitPosition) } }

/-- O19, the model's reading of log 15: FRAME_A and FRAME_B send the bit of their frame that bit_position names. -/
def Obligations.FrameRowsSendTheNamedBit : Prop :=
  ∀ (d : Byte) (p : Bool) (s : State), s.cur.bitPosition ≤ 9 →
    exec (.frameA d) s = .next { s with cur := { s.cur with currentBit := frameBitAt d true s.cur.bitPosition } } ∧
    exec (.frameB d p) s = .next { s with cur := { s.cur with currentBit := frameBitAt d p s.cur.bitPosition } }

/-- O20, R130, R131: the framed values: the byte shifted left by one, bit 0 set in format A and the parity bit in B. -/
def Obligations.FramesAreTheSpecPatterns : Prop :=
  ∀ (d : Byte) (p : Bool), ∃ a b : BitVec 10, encode (.frameA d) = .frame true a ∧ encode (.frameB d p) = .frame false b ∧
    a.toNat = 2 * d.toNat + 1 ∧ b.toNat = 2 * d.toNat + (if p then 1 else 0) ∧
    a.getLsbD 9 = false ∧ b.getLsbD 9 = false

/-- O21, R239: BIT_ADVANCE at bit 9 goes back to 0 and on by 1 or 2 bytes, else one bit on; nothing else changes. -/
def Obligations.BitAdvanceMovesTheCursor : Prop :=
  ∀ s : State,
    exec .bitAdvance s = .next { s with
      cur := { s.cur with
        bitPosition := if s.cur.bitPosition = 9 then 0 else s.cur.bitPosition + 1
        bytePosition :=
          if s.cur.bitPosition = 9 then
            BitVec.ofNat 32 (s.cur.bytePosition.toNat +
              (if s.tx.alternateFormat = s.params.altSelectsA then 1 else 2))
          else s.cur.bytePosition } }

/-- O22, R237, R238: WINDOW_CHECK loads the window with the bound-safe read and tells whether it is a terminator; bytes
from 512 up are 0, so the window at 512 always is one; while not configured nothing is loaded. -/
def Obligations.WindowCheckLoadsBoundSafe : Prop :=
  ∀ s : State,
    (s.tx.configured = false → exec .windowCheck s = .next s) ∧
    (s.tx.configured = true → ∃ t, exec .windowCheck s = .next t ∧
      t = { s with
        cur := { s.cur with currentByte := t.cur.currentByte, nextByte := t.cur.nextByte }
        io := { s.io with response := t.io.response } } ∧
      (s.cur.bytePosition.toNat < 512 →
        t.cur.currentByte = readByte s.tx.payload s.cur.bytePosition.toNat) ∧
      (512 ≤ s.cur.bytePosition.toNat → t.cur.currentByte = 0) ∧
      (s.cur.bytePosition.toNat + 1 < 512 →
        t.cur.nextByte = readByte s.tx.payload (s.cur.bytePosition.toNat + 1)) ∧
      (512 ≤ s.cur.bytePosition.toNat + 1 → t.cur.nextByte = 0) ∧
      (t.io.response = .window true ↔ t.cur.currentByte = 0 ∧ t.cur.nextByte = 0) ∧
      (t.io.response = .window false ↔ ¬(t.cur.currentByte = 0 ∧ t.cur.nextByte = 0)))

/-- O23, R240: RESTART under its condition; outside it, the model's reading of log 1, nothing. -/
def Obligations.RestartRewindsAndReports : Prop :=
  ∀ s : State,
    (s.tx.configured = true → s.cur.currentByte = 0 → s.cur.nextByte = 0 →
      s.cur.repeatCounter.toNat < s.tx.repeatCount.toNat →
      ∃ u, exec (.statusPush (s.cur.repeatCounter + 1)) s = .next u ∧
        exec .restart s = .next { u with
          cur := { s.cur with
            bitPosition := 0
            bytePosition := 0
            currentByte := payloadByte s 0
            nextByte := payloadByte s 1
            repeatCounter := BitVec.ofNat 32 (s.cur.repeatCounter.toNat + 1) } }) ∧
    (¬(s.tx.configured = true ∧ s.cur.currentByte = 0 ∧ s.cur.nextByte = 0 ∧
        s.cur.repeatCounter.toNat < s.tx.repeatCount.toNat) → exec .restart s = .next s)

/-- O24, R241: FINISH under its condition; outside it, the model's reading of log 1, nothing. -/
def Obligations.FinishReportsAndDisables : Prop :=
  ∀ s : State,
    (s.tx.configured = true → s.cur.currentByte = 0 → s.cur.nextByte = 0 →
      s.tx.repeatCount.toNat ≤ s.cur.repeatCounter.toNat →
      ∃ u, exec (.statusPush 0) s = .next u ∧
        exec .finish s = .next { u with
          tx := { s.tx with configured := false }
          cur := { s.cur with currentByte := 0, nextByte := 0 } }) ∧
    (¬(s.tx.configured = true ∧ s.cur.currentByte = 0 ∧ s.cur.nextByte = 0 ∧
        s.tx.repeatCount.toNat ≤ s.cur.repeatCounter.toNat) → exec .finish s = .next s)

/-- O25, R232: the audio ticks that are bit periods, after one that is: every s ticks under reload 1 with s at least 1,
every s + 1 under reload 0, every tick when s is 0. -/
def Obligations.BitPeriodsAreEvenlySpaced : Prop :=
  ∀ s : State, s.synth.divCounter = 0 → gateOpen s = true →
    (s.params.reloadOne = true → ∀ k, 1 ≤ k → k ≤ s.tx.samplesPerBit.toNat →
      ∃ t, repeatExec .audioTick k s = some t ∧ t.cur.sampleCounter.toNat = k ∧
        (gateOpen t = true ↔ k = s.tx.samplesPerBit.toNat)) ∧
    (s.params.reloadOne = false → ∀ k, 1 ≤ k → k ≤ s.tx.samplesPerBit.toNat + 1 →
      ∃ t, repeatExec .audioTick k s = some t ∧ t.cur.sampleCounter.toNat = k - 1 ∧
        (gateOpen t = true ↔ k = s.tx.samplesPerBit.toNat + 1)) ∧
    (s.tx.samplesPerBit = 0 → ∀ k, ∃ t, repeatExec .audioTick k s = some t ∧ gateOpen t = true)

/-- O26, R247, R243: an empty payload: the first C bit periods restart and report 1 to C, the next finishes and reports 0,
and every bit sent is 0. -/
def Obligations.EmptyPayloadReportsEachRepeat : Prop :=
  ∀ s : State, s.tx.configured = true → payloadByte s 0 = 0 → payloadByte s 1 = 0 → s.cur.bytePosition = 0 →
    s.cur.bitPosition = 0 → s.cur.repeatCounter = 0 → s.tx.repeatCount.toNat < 2 ^ 32 - 1 →
    (∀ k, 1 ≤ k → k ≤ s.tx.repeatCount.toNat →
      ∃ t, repeatExec .bitPeriod k s = some t ∧ t.tx.configured = true ∧ t.cur.repeatCounter.toNat = k ∧
        t.cur.currentBit = false ∧
        reportNumbers t.history = reportNumbers s.history ++ (List.range k).map fun j => BitVec.ofNat 32 (j + 1)) ∧
    ∃ t, repeatExec .bitPeriod (s.tx.repeatCount.toNat + 1) s = some t ∧ t.tx.configured = false ∧
      t.cur.currentBit = false ∧
      reportNumbers t.history = reportNumbers s.history ++
        (List.range s.tx.repeatCount.toNat).map (fun j => BitVec.ofNat 32 (j + 1)) ++ [0]

/-! ### The queues -/

/-- O27, R185: the status push: with room the record goes to OUT and its doorbell is raised; with none, or with the lock
held, the report is dropped and no queue changes. -/
def Obligations.StatusPushQueuesOrDrops : Prop :=
  ∀ (n : Word) (s : State), s.params.legal → s.qOut.ring.wf = true →
    (s.qOut.lock = .free → 7 ≤ ringCapacity s.params .outbound - s.qOut.used →
      ∃ q : Queue, exec (.statusPush n) s = .next { s with qOut := q, history := s.history ++ [.statusPushed n] } ∧
        q.rd = s.qOut.rd ∧ q.wr = s.qOut.wr + 7 ∧ q.lock = .free ∧ q.dbPending = true ∧
        ringRead (ringCapacity s.params .outbound) q.ring s.qOut.wr 7 =
          [5, 0, 2, n.extractLsb' 0 8, n.extractLsb' 8 8, n.extractLsb' 16 8, n.extractLsb' 24 8] ∧
        ∀ r, (∀ j < 7, r ≠ (s.qOut.wr.toNat + j) % ringCapacity s.params .outbound) →
          readByte q.ring r = readByte s.qOut.ring r) ∧
    (s.qOut.lock = .free → ringCapacity s.params .outbound - s.qOut.used < 7 →
      exec (.statusPush n) s = .next { s with history := s.history ++ [.statusDropped n .full] }) ∧
    (s.qOut.lock ≠ .free → exec (.statusPush n) s = .next { s with history := s.history ++ [.statusDropped n .busy] })

/-- O28, R176, R177: a PUSH by the producer: `Ok` writes exactly the record's bytes from `wr`, all in the free region, then
advances `wr` and raises the doorbell; `Full` exactly when the free space is too small, `Busy` when RT finds the lock held,
and both change nothing. -/
def Obligations.PushCommitsOrChangesNothing : Prop :=
  ∀ (x : QueueId) (m : Msg) (s : State), s.params.legal → (s.queue x).ring.wf = true → m.wellFormed = true →
    s.io.issuer = producer x →
    ((s.queue x).lock = .free → 2 + (encMsg m).length ≤ ringCapacity s.params x - (s.queue x).used →
      ∃ q : Queue, exec (.push x m) s = .next ((s.setQueue x q).respond .ok) ∧ q.rd = (s.queue x).rd ∧
        q.wr = (s.queue x).wr + BitVec.ofNat 32 (2 + (encMsg m).length) ∧ q.lock = .free ∧ q.dbPending = true ∧
        ringRead (ringCapacity s.params x) q.ring (s.queue x).wr (2 + (encMsg m).length) = encRecord m ∧
        ringRead (ringCapacity s.params x) q.ring (s.queue x).rd (s.queue x).used =
          ringRead (ringCapacity s.params x) (s.queue x).ring (s.queue x).rd (s.queue x).used ∧
        ∀ r, (∀ j < 2 + (encMsg m).length, r ≠ ((s.queue x).wr.toNat + j) % ringCapacity s.params x) →
          readByte q.ring r = readByte (s.queue x).ring r) ∧
    ((s.queue x).lock = .free → ringCapacity s.params x - (s.queue x).used < 2 + (encMsg m).length →
      exec (.push x m) s = .next (s.respond .full)) ∧
    ((s.queue x).lock ≠ .free → x = .outbound → exec (.push x m) s = .next (s.respond .busy))

/-- O29, R174 and the model's form of a wait (log 11): HOST's PUSH that finds the lock held waits: the step changes nothing
but the turn, and the transaction stays at the port. -/
def Obligations.HostPushWaitsForTheLock : Prop :=
  ∀ (m : Msg) (s : State) (rest : List Byte) (turns : List Turn), m.wellFormed = true → s.faultMark = none →
    s.qIn.lock ≠ .free → s.io.turns = .port .host :: turns → s.io.ports.host = encPush .inbound m ++ rest →
    step s = .next { s with io := { s.io with turns := turns, issuer := .host, response := .waiting } }

/-- O30, R180: POP by the consumer: `Empty` changes nothing; else the first message is returned and only `rd` moves. -/
def Obligations.PopReturnsTheFirstMessage : Prop :=
  ∀ (x : QueueId) (s : State), s.io.issuer = consumer x →
    ((s.queue x).used = 0 → exec (.pop x) s = .next (s.respond .empty)) ∧
    ∀ m ms, Contents s x (m :: ms) →
      exec (.pop x) s = .next ((s.setQueue x { s.queue x with
        rd := (s.queue x).rd + BitVec.ofNat 32 (2 + (encMsg m).length) }).respond (.msg m))

/-- O31, R184, R178: PUSH and POP refine a FIFO of messages: an `Ok` appends, a `Full` keeps, POP takes the first, and
`Empty` comes exactly when nothing is held. -/
def Obligations.QueueRefinesAFifo : Prop :=
  ∀ (x : QueueId) (ms : List Msg) (s : State), s.params.legal → QueueInv (ringCapacity s.params x) (s.queue x) →
    Contents s x ms →
    (∀ m, m.wellFormed = true → s.io.issuer = producer x →
      ∃ t, exec (.push x m) s = .next t ∧
        ((t.io.response = .ok ∧ Contents t x (ms ++ [m])) ∨ (t.io.response = .full ∧ Contents t x ms)) ∧
        (t.io.response = .full ↔ ringCapacity s.params x < (ms.flatMap encRecord).length + 2 + (encMsg m).length)) ∧
    (s.io.issuer = consumer x →
      ∃ t, exec (.pop x) s = .next t ∧
        match ms with
        | [] => t.io.response = .empty ∧ Contents t x []
        | m :: rest => t.io.response = .msg m ∧ Contents t x rest)

/-- O32, R181, R343 and the model's fault mark (log 9): POP of a record whose kind and length disagree sets the fault mark
and changes nothing else. -/
def Obligations.PopOfAMalformedRecordSetsTheFaultMark : Prop :=
  ∀ (x : QueueId) (s : State) (body : List Byte), s.io.issuer = consumer x → (s.queue x).used ≠ 0 →
    body = ringRead (ringCapacity s.params x) (s.queue x).ring ((s.queue x).rd + 2)
      (leValue (ringRead (ringCapacity s.params x) (s.queue x).ring (s.queue x).rd 2)) →
    ¬(body.length = 534 ∧ body[0]? = some 1) → ¬(body.length = 5 ∧ body[0]? = some 2) →
    exec (.pop x) s =
      .next { s with faultMark := some .queueCorrupt, io := { s.io with response := .faulted .queueCorrupt } }

/-- O33, R188: DOORBELL_TAKE returns the previous bit and clears it; a second one returns false and changes nothing else. -/
def Obligations.DoorbellTakeClearsTheBit : Prop :=
  ∀ (x : QueueId) (s : State), s.io.issuer = consumer x →
    ∃ t, t = (s.setQueue x { s.queue x with dbPending := false }).respond (.taken (s.queue x).dbPending) ∧
      exec (.doorbellTake x) s = .next t ∧ exec (.doorbellTake x) t = .next (t.respond (.taken false))

/-! ### The Control Interface -/

/-- O34, R290, R292: CTL_SERVICE with a ConfigureMessage first in IN takes the doorbell, removes the record and applies it;
the accumulators, OUT and the marks stay. -/
def Obligations.CtlServiceAppliesAConfiguration : Prop :=
  ∀ (c : ConfigMsg) (ms : List Msg) (s : State), s.io.issuer = .ctl → Contents s .inbound (.configure c :: ms) →
    ∃ t, exec .ctlService s = .next t ∧ t.io.response = .applied ∧ AppliedBy c s t ∧
      t.qIn = { s.qIn with rd := s.qIn.rd + 536, dbPending := false } ∧ Contents t .inbound ms ∧ t.qOut = s.qOut ∧
      t.history = s.history ++ [.configApplied] ∧ t.params = s.params ∧ t.faultMark = s.faultMark ∧
      t.refusalMark = s.refusalMark ∧ t.io = { s.io with response := .applied }

/-- O35, R290, R294: CTL_SERVICE with nothing in IN only clears the doorbell; with a StatusMessage first it consumes and
ignores it; with a record whose kind and length disagree it sets the fault mark, the doorbell cleared (log 19). -/
def Obligations.CtlServiceWithoutAConfiguration : Prop :=
  ∀ s : State, s.io.issuer = .ctl →
    (s.qIn.used = 0 →
      exec .ctlService s = .next { s with
        qIn := { s.qIn with dbPending := false }
        io := { s.io with response := .empty } }) ∧
    (∀ (n : Word) (ms : List Msg), Contents s .inbound (.status n :: ms) →
      exec .ctlService s = .next { s with
        qIn := { s.qIn with rd := s.qIn.rd + 7, dbPending := false }
        history := s.history ++ [.configIgnored .status]
        io := { s.io with response := .ignored } }) ∧
    ∀ body : List Byte, s.qIn.used ≠ 0 →
      body = ringRead (ringCapacity s.params .inbound) s.qIn.ring (s.qIn.rd + 2)
        (leValue (ringRead (ringCapacity s.params .inbound) s.qIn.ring s.qIn.rd 2)) →
      ¬(body.length = 534 ∧ body[0]? = some 1) → ¬(body.length = 5 ∧ body[0]? = some 2) →
      exec .ctlService s = .next { s with
        qIn := { s.qIn with dbPending := false }
        faultMark := some .queueCorrupt
        io := { s.io with response := .faulted .queueCorrupt } }

/-- O36, R292, R293, R295, R297: APPLY_CONFIGURATION writes all of Config, Cursor and the divider, whatever they held, and
nothing else; both accumulators keep their phase. The `alternate_format` byte of the body it is decoded from is false for 0
and true for any other value. -/
def Obligations.ApplyConfigurationReplacesConfigAndCursor : Prop :=
  (∀ (c : ConfigMsg) (s : State), c.wellFormed = true →
    ∃ t, exec (.applyConfiguration c) s = .next t ∧ AppliedBy c s t ∧ t.params = s.params ∧ t.qIn = s.qIn ∧
      t.qOut = s.qOut ∧ t.history = s.history ∧ t.faultMark = s.faultMark ∧ t.refusalMark = s.refusalMark ∧
      t.io = s.io) ∧
  ∀ b : List Byte, b.length = 534 → b[0]? = some 1 →
    ∃ c, decode (.body b) = .ok (.msgConfigure c) ∧ c.wellFormed = true ∧
      (c.alternateFormat = false ↔ b[533]? = some 0)

/-- O37, R233: the first output sample after a configuration is a bit period and carries the start bit: the gate is open and
`div_counter` is 0, whatever the divider and the payload. -/
def Obligations.FirstSampleCarriesTheStartBit : Prop :=
  ∀ (c : ConfigMsg) (s : State), c.wellFormed = true → s.io.issuer = .rt →
    ∃ t u v, exec (.applyConfiguration c) s = .next t ∧ exec .bitPeriod t = .next u ∧ exec (.fill 1) t = .next v ∧
      v.tx = u.tx ∧ v.qOut = u.qOut ∧
      v.cur = { u.cur with sampleCounter := if s.params.reloadOne then 1 else 0 } ∧ v.cur.currentBit = false ∧
      v.cur.bitPosition = 1 ∧ v.cur.bytePosition = 0 ∧ v.synth.tonePhase = s.synth.tonePhase + c.phaseIncSpace

/-- O38, the model's reading of log 14: the message rows are their message's arrival at the Control Interface: a
ConfigureMessage is applied and reported to the history, a StatusMessage changes no state of the block. -/
def Obligations.MessageRowsArriveAtControl : Prop :=
  ∀ s : State,
    (∀ c : ConfigMsg, c.wellFormed = true → ∃ t u, exec (.applyConfiguration c) s = .next u ∧
      exec (.msgConfigure c) s = .next t ∧
      t = { u with history := s.history ++ [.configApplied], io := { s.io with response := .applied } } ∧
      AppliedBy c s t) ∧
    ∀ n : Word, exec (.msgStatus n) s = .next { s with
      history := s.history ++ [.configIgnored .status]
      io := { s.io with response := .ignored } }

/-! ### The Tone Synthesizer and the modulator -/

/-- O39, R210: TONE_STEP adds the selected increment modulo 2^32 and writes `tone_phase` only. -/
def Obligations.ToneStepAddsTheSelectedIncrement : Prop :=
  ∀ s : State, exec .toneStep s = .next { s with
    synth := { s.synth with
      tonePhase := BitVec.ofNat 32 (s.synth.tonePhase.toNat +
        (if s.cur.currentBit = true then s.tx.phaseIncMark.toNat else s.tx.phaseIncSpace.toNat)) } }

/-- O40, R211: TONE_READ hands over the table entry at bits 25 to 18 of `tone_phase`, and writes no state. -/
def Obligations.ToneReadGivesTheTableEntry : Prop :=
  ∀ s : State, s.params.legal → ∃ ts, s.params.sineTable[(s.synth.tonePhase.toNat / 2 ^ 18) % 256]? = some ts ∧
    exec .toneRead s = .next { s with io := { s.io with response := .toneSample ts } }

/-- O41, R212: the tone sample depends on the accumulator modulo 2^26 only, and the index sequence on the increment
modulo 2^26 only. -/
def Obligations.OnlyTheEffectivePhaseIsHeard : Prop :=
  (∀ (s : State) (a b : Word), a.toNat % 2 ^ 26 = b.toNat % 2 ^ 26 →
    ∃ ts u v, exec .toneRead { s with synth := { s.synth with tonePhase := a } } = .next u ∧
      exec .toneRead { s with synth := { s.synth with tonePhase := b } } = .next v ∧
      u.io.response = .toneSample ts ∧ v.io.response = .toneSample ts) ∧
  ∀ (s : State) (mark mark' space space' : Word) (n : Nat), mark.toNat % 2 ^ 26 = mark'.toNat % 2 ^ 26 →
    space.toNat % 2 ^ 26 = space'.toNat % 2 ^ 26 →
    ∃ u v, repeatExec .toneStep n { s with tx := { s.tx with phaseIncMark := mark, phaseIncSpace := space } } = some u ∧
      repeatExec .toneStep n { s with tx := { s.tx with phaseIncMark := mark', phaseIncSpace := space' } } = some v ∧
      tableIndex u.synth.tonePhase = tableIndex v.synth.tonePhase

/-- O42, R215: periodicity of the tone: an increment that divides 2^26 returns to its index exactly after 2^26 / I steps,
one that divides 2^32 to its phase after 2^32 / I, and any other comes within I of its phase, and within ceil(I / 2^18)
entries of its index, after floor(2^26 / I). -/
def Obligations.TonePhaseIsPeriodic : Prop :=
  ∀ (s : State) (inc : Nat), inc ≠ 0 → inc = (toneIncrement s).toNat →
    (inc ∣ 2 ^ 26 → ∃ t, repeatExec .toneStep (2 ^ 26 / inc) s = some t ∧
      t.synth.tonePhase.toNat % 2 ^ 26 = s.synth.tonePhase.toNat % 2 ^ 26 ∧
      tableIndex t.synth.tonePhase = tableIndex s.synth.tonePhase) ∧
    (inc ∣ 2 ^ 32 → ∃ t, repeatExec .toneStep (2 ^ 32 / inc) s = some t ∧
      t.synth.tonePhase = s.synth.tonePhase) ∧
    ∃ t d e, repeatExec .toneStep (2 ^ 26 / inc) s = some t ∧ d < inc ∧
      (t.synth.tonePhase.toNat + d) % 2 ^ 26 = s.synth.tonePhase.toNat % 2 ^ 26 ∧
      e ≤ (inc + 2 ^ 18 - 1) / 2 ^ 18 ∧ (tableIndex t.synth.tonePhase + e) % 256 = tableIndex s.synth.tonePhase

/-- O43, R270, R271: FM_STEP adds the exact signed product of the tone sample and `bandwidth_scale`, modulo 2^32, and
writes `carrier_phase` only. -/
def Obligations.FmStepAddsTheDeviation : Prop :=
  ∀ (ts : Byte) (s : State), exec (.fmStep ts) s = .next { s with
    synth := { s.synth with
      carrierPhase := BitVec.ofInt 32 ((s.synth.carrierPhase.toNat : Int) + ts.toInt * s.tx.bandwidthScale.toInt) } }

/-- O44, R272: IQ_READ hands over the entry at bits 25 to 18 of `carrier_phase` and the entry a quarter of the table on,
and writes no state. -/
def Obligations.IqReadIsAQuarterApart : Prop :=
  ∀ s : State, s.params.legal →
    ∃ I Q, s.params.sineTable[(s.synth.carrierPhase.toNat / 2 ^ 18) % 256]? = some I ∧
      s.params.sineTable[((s.synth.carrierPhase.toNat / 2 ^ 18) % 256 + 64) % 256]? = some Q ∧
      exec .iqRead s = .next { s with io := { s.io with response := .iqPair I Q } }

/-! ### Outcomes, refusals, faults -/

/-- O45, R344, with the mark's form of log 8: a transaction by an agent without its role writes the refusal mark and
nothing else. -/
def Obligations.WrongAgentIsRefused : Prop :=
  ∀ s t : State,
    t = { s with
      refusalMark := if s.refusalMark = none then some .wrongAgent else s.refusalMark
      io := { s.io with response := .refused .wrongAgent } } →
    (s.io.issuer ≠ .rt → ∀ n, exec (.fill n) s = .next t) ∧
    (s.io.issuer ≠ .ctl → exec .ctlService s = .next t) ∧
    (s.io.issuer ≠ .host → ∀ m, exec (.push .inbound m) s = .next t) ∧
    (s.io.issuer ≠ .rt → ∀ m, exec (.push .outbound m) s = .next t) ∧
    (s.io.issuer ≠ .ctl → exec (.pop .inbound) s = .next t ∧ exec (.doorbellTake .inbound) s = .next t) ∧
    (s.io.issuer ≠ .host → exec (.pop .outbound) s = .next t ∧ exec (.doorbellTake .outbound) s = .next t)

/-- O46, R138, R344 (the mark's form: log 8): an illegal op code, queue operand or body at a port is refused by name, and
the block, its history and the caller's buffer are unchanged. -/
def Obligations.IllegalTransactionsAreRefused : Prop :=
  ∀ (s : State) (a : Agent) (turns : List Turn) (bs : List Byte), s.faultMark = none →
    s.io.turns = .port a :: turns → portOf s.io.ports a = bs →
    ∀ r : Refusal,
      ((r = .badOp ∧ ∃ op rest, bs = op :: rest ∧ 6 ≤ op.toNat) ∨
        (r = .badQueue ∧ ∃ op q rest, bs = op :: q :: rest ∧ (op = 4 ∨ op = 5) ∧ 2 ≤ q.toNat) ∨
        (r = .badQueue ∧ ∃ q body rest, bs = 3 :: q :: leBytes 2 body.length ++ body ++ rest ∧
          body.length < 65536 ∧ 2 ≤ q.toNat) ∨
        (r = .badMessage ∧ ∃ q body rest, bs = 3 :: q :: leBytes 2 body.length ++ body ++ rest ∧
          body.length < 65536 ∧ q.toNat < 2 ∧ ¬(body.length = 534 ∧ body[0]? = some 1) ∧
          ¬(body.length = 5 ∧ body[0]? = some 2))) →
      ∃ t, step s = .next t ∧ t.refusalMark = (if s.refusalMark = none then some r else s.refusalMark) ∧
        t.io.response = .refused r ∧ t.params = s.params ∧ t.tx = s.tx ∧ t.synth = s.synth ∧ t.cur = s.cur ∧
        t.qIn = s.qIn ∧ t.qOut = s.qOut ∧ t.history = s.history ∧ t.faultMark = none ∧ t.io.buffer = s.io.buffer ∧
        t.io.filled = s.io.filled

/-- O47, R345: with both locks free (R54), a transaction hands back only an outcome, fault or refusal of its row. -/
def Obligations.OutcomesAreThoseOfTheTable : Prop :=
  ∀ (i : Instr) (s : State), isTransaction i = true → s.qIn.lock = .free → s.qOut.lock = .free →
    ∃ t, exec i s = .next t ∧ mayHandBack i t.io.response = true

/-- O48, R32, R31: no transaction writes the parameters; only RESET and CTL_SERVICE write Config other than `configured`;
only RESET and FILL move the accumulators; only RESET, CTL_SERVICE and FILL write the cursor, the divider or
`configured`; IN changes only by RESET, CTL_SERVICE and the queue transactions on IN, OUT only by RESET, FILL and the
queue transactions on OUT; only FILL writes the buffer and returns one. -/
def Obligations.OnlyTheListedTransactionsWrite : Prop :=
  ∀ (i : Instr) (s : State), isTransaction i = true → ∃ t, exec i s = .next t ∧
    t.params = s.params ∧
    (i ≠ .reset → i ≠ .ctlService → t.tx = { s.tx with configured := t.tx.configured }) ∧
    (i ≠ .reset → (∀ n, i ≠ .fill n) →
      t.synth.tonePhase = s.synth.tonePhase ∧ t.synth.carrierPhase = s.synth.carrierPhase) ∧
    (i ≠ .reset → i ≠ .ctlService → (∀ n, i ≠ .fill n) →
      t.cur = s.cur ∧ t.synth = s.synth ∧ t.tx = s.tx) ∧
    (i ≠ .reset → i ≠ .ctlService → (∀ m, i ≠ .push .inbound m) → i ≠ .pop .inbound → i ≠ .doorbellTake .inbound →
      t.qIn = s.qIn) ∧
    (i ≠ .reset → (∀ n, i ≠ .fill n) → (∀ m, i ≠ .push .outbound m) → i ≠ .pop .outbound →
      i ≠ .doorbellTake .outbound → t.qOut = s.qOut) ∧
    ((∀ n, i ≠ .fill n) → t.io.buffer = s.io.buffer ∧ t.io.filled = s.io.filled)

/-- O49, R61, R340: the history, the marks and the last outcome are no hardware state: they change nothing an instruction
does to the block or the buffer. -/
def Obligations.GhostStateChangesNothing : Prop :=
  ∀ (i : Instr) (s : State) (h : List Event) (f : Option Fault) (m : Option Refusal) (r : Response),
    ∃ t u, exec i s = .next t ∧
      exec i { s with history := h, faultMark := f, refusalMark := m, io := { s.io with response := r } } = .next u ∧
      t.params = u.params ∧ t.tx = u.tx ∧ t.synth = u.synth ∧ t.cur = u.cur ∧ t.qIn = u.qIn ∧ t.qOut = u.qOut ∧
      t.io.buffer = u.io.buffer ∧ t.io.filled = u.io.filled

/-! ### The step -/

/-- O50: a step runs the decoded instruction: the next turn's agent issues the transaction at the front of its port, which
is well formed; the step is exec of it in the state with the turn and the bytes taken and the issuer named. -/
def Obligations.StepRunsTheDecodedTransaction : Prop :=
  ∀ (s : State) (a : Agent) (turns : List Turn) (i : Instr) (rest : List Byte),
    s.io.turns = .port a :: turns → decodeTransaction (portOf s.io.ports a) = .ok i rest →
    (s.faultMark = none ∨ i = .reset) →
    i.wellFormed = true ∧ isTransaction i = true ∧
      step s = keepWaiting s (exec i { s with
        io := { s.io with
          ports := withPort s.io.ports a rest, turns := turns, issuer := a, response := .none } }) ∧
      ∀ t, exec i (s.issue a rest turns) = .next t → t.io.response ≠ .waiting → step s = .next t

/-- O51, R189, R383, R399: a spurious doorbell sets `db_pending` and nothing else of the block; a buffer the harness supplies
(log 24) replaces the caller's buffer, byte for byte, and nothing else; with no turn to come (log 2) a step changes nothing. -/
def Obligations.EnvironmentTurnsWriteOneField : Prop :=
  ∀ s : State, s.faultMark = none →
    (s.io.turns = [] → step s = .next s) ∧
    (∀ turns, s.io.turns = .spuriousDoorbell .inbound :: turns →
      step s = .next { s with qIn := { s.qIn with dbPending := true }, io := { s.io with turns := turns } }) ∧
    (∀ turns, s.io.turns = .spuriousDoorbell .outbound :: turns →
      step s = .next { s with qOut := { s.qOut with dbPending := true }, io := { s.io with turns := turns } }) ∧
    ∀ bytes turns, s.io.turns = .supplyBuffer bytes :: turns →
      ∃ m : Memory, step s = .next { s with io := { s.io with buffer := m, turns := turns } } ∧ m.wf = true ∧
        ∀ a, readByte m a = bytes.getD a 0

/-- O52, R343, R380 (the mark's form: log 9): with the fault mark set no step is taken but RESET, and RESET clears both
marks. -/
def Obligations.FaultMarkStopsAllButReset : Prop :=
  ∀ (s : State) (f : Fault), s.faultMark = some f →
    (∀ a turns rest, s.io.turns = .port a :: turns → decodeTransaction (portOf s.io.ports a) = .ok .reset rest →
      ∃ t, step s = .next t ∧ t.faultMark = none ∧ t.refusalMark = none ∧ t.history = []) ∧
    ((∀ a turns rest, s.io.turns = .port a :: turns →
        decodeTransaction (portOf s.io.ports a) ≠ .ok .reset rest) → step s = .fault .queueCorrupt)

/-! ### Encoding -/

/-- O53, R126, R130, R131, R136: every well-formed instruction that has an encoding decodes from it. -/
def Obligations.DecodeUndoesEncode : Prop :=
  ∀ i : Instr, i.wellFormed = true → encode i ≠ .unencoded → decode (encode i) = .ok i

/-- O54, R137, R126: on a stream, decoding takes exactly the bytes of one transaction: it accepts a transaction's bytes
whatever follows, and whatever it accepts is the encoding of what it gives, but for an `alternate_format` byte 2 to 255,
which is read as true and encoded as 1. -/
def Obligations.StreamDecodingIsExact : Prop :=
  (∀ (i : Instr) (bs rest : List Byte), i.wellFormed = true → encode i = .transaction bs →
    decodeTransaction (bs ++ rest) = .ok i rest) ∧
  ∀ (i : Instr) (bs rest : List Byte), decodeTransaction bs = .ok i rest →
    i.wellFormed = true ∧ ∃ front enc : List Byte, encode i = .transaction enc ∧ bs = front ++ rest ∧
      (front = enc ∨ ∃ q c pre alt, i = .push q (.configure c) ∧ 2 ≤ BitVec.toNat (w := 8) alt ∧
        front = pre ++ [alt] ∧ enc = pre ++ [1])

/-- O55: words written out from the spec's encodings (R125, R130, R131, R136; vectors E-2, E-7, E-8, E-11, E-14 to E-20). -/
def Obligations.SpecWordsDecode : Prop :=
  decode (.body [0x02, 0x04, 0x03, 0x02, 0x01]) = .ok (.msgStatus 0x01020304) ∧
  decode (.frame true 0b0010000011) = .ok (.frameA 0x41) ∧
  decode (.frame false 0b0010000010) = .ok (.frameB 0x41 false) ∧
  decode (.transaction [0x00]) = .ok .reset ∧
  decode (.transaction [0x01, 0x18, 0x00, 0x00, 0x00]) = .ok (.fill 24) ∧
  decode (.transaction [0x02]) = .ok .ctlService ∧
  decode (.transaction [0x03, 0x01, 0x05, 0x00, 0x02, 0x01, 0x00, 0x00, 0x00]) = .ok (.push .outbound (.status 1)) ∧
  decode (.transaction [0x04, 0x01]) = .ok (.pop .outbound) ∧
  decode (.transaction [0x05, 0x01]) = .ok (.doorbellTake .outbound) ∧
  decode (.transaction [0x06]) = .error .badOp ∧
  decode (.transaction [0x04, 0x02]) = .error .badQueue ∧
  decode (.transaction [0x03, 0x00, 0x05, 0x00, 0x03, 0x00, 0x00, 0x00, 0x00]) = .error .badMessage

/-! ### The invariants -/

/-- O56, R59, R54, R82: every step keeps the block's invariant: legal parameters, the cursor's ranges, canonical memories of
the right size, free locks. -/
def Obligations.StepKeepsTheBlockInvariant : Prop :=
  ∀ s t : State, BlockInv s → step s = .next t → BlockInv t

/-- O57, R53, R183: from every state that meets the machine's invariant the step is taken, and the next state meets it: the
rings hold whole records, the occupancy stays within capacity, and QueueCorrupt is never met. -/
def Obligations.StepNeverMeetsACorruptQueue : Prop :=
  ∀ s : State, MachineInv s → ∃ t, step s = .next t ∧ MachineInv t

/-- O58: the reset state, and the state after RESET under any legal parameters and any canonical buffers, meet the
machine's invariant. -/
def Obligations.ResetMeetsTheInvariant : Prop :=
  MachineInv State.reset ∧
  ∀ s t : State, s.params.legal → s.io.buffer.wf = true → (∀ b ∈ s.io.filled, b.bytes.wf = true) →
    exec .reset s = .next t → MachineInv t

/-! ### Scripts -/

/-- O59, R141, R136, R174, R290, R292 (the ports and scripts: log 2, log 23): `host.configure` on a block whose IN is empty
and large enough: the configuration the Control Interface applies is field for field the one HOST sent as bytes, IN is empty
again, and OUT, the accumulators, the buffer and the other ports are unchanged. -/
def Obligations.ConfigurationSentIsTheOneApplied : Prop :=
  ∀ (c : ScriptConfig) (m : ConfigMsg) (s : State), BlockInv s → s.faultMark = none → Contents s .inbound [] →
    536 ≤ ringCapacity s.params .inbound → (ScriptMsg.config c).message = .configure m → m.payload.length = 512 →
    ∃ t, runScript [.hostConfigure (.config c)] s = .next t ∧ AppliedBy m s t ∧ Contents t .inbound [] ∧
      t.qIn.dbPending = false ∧ t.qOut = s.qOut ∧ t.history = s.history ++ [.configApplied] ∧ t.params = s.params ∧
      t.faultMark = none ∧ t.refusalMark = s.refusalMark ∧
      t.io = { s.io with issuer := .ctl, response := .applied }

/-- O60, R141, R180, R184 (the ports and scripts: log 2, log 23): `host.drain OUT` hands back the messages OUT holds in
order, one a pop, then `Empty`: one pop more than there are records; OUT is empty after it and nothing else of the block
changes. -/
def Obligations.DrainHandsBackEveryMessageInOrder : Prop :=
  ∀ (ms : List Msg) (s : State), s.faultMark = none → Contents s .outbound ms →
    (∀ k m, ms[k]? = some m → ∃ u, repeatUntilEmpty .host (.pop .outbound) (k + 1) s = .next u ∧ u.io.response = .msg m) ∧
    ∃ t, repeatUntilEmpty .host (.pop .outbound) (ms.length + 1) s = .next t ∧
      runScript [.hostDrain] s = .next t ∧ Contents t .outbound [] ∧
      t = { s with
        qOut := { s.qOut with rd := s.qOut.wr }
        io := { s.io with issuer := .host, response := .empty } }
end

