-- ==== Sys2Proof/Laws/Codec.lean ====
section
/-! SUPPORT. The laws of the message encodings: little-endian fields, body lengths, and that a body decodes to the
message it encodes. -/

namespace Sys2Proof

@[simp] theorem leBytes_length : ∀ k v : Nat, (leBytes k v).length = k
  | 0, _ => rfl
  | k + 1, v => by rw [leBytes, List.length_cons, leBytes_length k]

/-- A field reads back the value written into it, modulo its width. -/
theorem leValue_leBytes : ∀ k v : Nat, leValue (leBytes k v) = v % 256 ^ k
  | 0, v => by simp [leBytes, leValue, Nat.mod_one]
  | k + 1, v => by
    rw [leBytes, leValue, leValue_leBytes k, BitVec.toNat_ofNat, show 2 ^ 8 = 256 from rfl, pow_succ', Nat.mod_mul]

/-- A field whose bytes stand at its offset. -/
theorem leField_append (a b c : List Byte) {o n : Nat} (ho : a.length = o) (hn : b.length = n) :
    leField (a ++ (b ++ c)) o n = leValue b := by
  rw [leField, List.drop_left' ho, List.take_left' hn]

/-- A u32 field reads back the word written into it. -/
theorem wordField_append (a c : List Byte) (w : Word) {o : Nat} (ho : a.length = o) :
    wordField (a ++ (leBytes 4 w.toNat ++ c)) o = w := by
  rw [wordField, leField_append a _ c ho (leBytes_length 4 _), leValue_leBytes]
  apply BitVec.eq_of_toNat_eq
  rw [BitVec.toNat_ofNat]
  have := w.isLt
  omega

theorem encStatus_length (n : Word) : (encStatus n).length = statusLen := by
  simp [encStatus]

theorem encConfig_length {c : ConfigMsg} (h : c.wellFormed = true) : (encConfig c).length = maxMsg := by
  have hp : c.payload.length = 512 := by simpa [ConfigMsg.wellFormed] using h
  simp [encConfig, hp]

/-- A well-formed message's body is 534 or 5 bytes (R123). -/
theorem encMsg_length {m : Msg} (h : m.wellFormed = true) : (encMsg m).length = maxMsg ∨ (encMsg m).length = statusLen := by
  cases m with
  | configure c => exact .inl (encConfig_length h)
  | status n => exact .inr (encStatus_length n)

@[simp] theorem encRecord_length (m : Msg) : (encRecord m).length = recHdr + (encMsg m).length := by
  simp [encRecord]

theorem decConfig_encConfig {c : ConfigMsg} (h : c.wellFormed = true) : decConfig (encConfig c) = c := by
  have hp : c.payload.length = 512 := by simpa [ConfigMsg.wellFormed] using h
  obtain ⟨payload, spb, mark, space, repeats, scale, alt⟩ := c
  simp only at hp
  have e : ∀ tail : List Byte, 0x01#8 :: payload ++ tail = [0x01#8] ++ (payload ++ tail) := fun _ => rfl
  rw [decConfig, ConfigMsg.mk.injEq]
  refine ⟨?_, ?_, ?_, ?_, ?_, ?_, ?_⟩
  · simp only [encConfig, List.append_assoc, List.cons_append, List.drop_succ_cons, List.drop_zero]
    exact List.take_left' hp
  all_goals simp only [encConfig, List.append_assoc]
  · exact wordField_append (0x01#8 :: payload) _ spb (by simp [hp])
  · rw [← List.append_assoc]
    exact wordField_append _ _ mark (by simp [hp])
  · rw [← List.append_assoc, ← List.append_assoc]
    exact wordField_append _ _ space (by simp [hp])
  · rw [← List.append_assoc, ← List.append_assoc, ← List.append_assoc]
    exact wordField_append _ _ repeats (by simp [hp])
  · rw [← List.append_assoc, ← List.append_assoc, ← List.append_assoc, ← List.append_assoc]
    exact wordField_append _ _ scale (by simp [hp])
  · rw [← List.append_assoc, ← List.append_assoc, ← List.append_assoc, ← List.append_assoc, ← List.append_assoc,
      byteField, List.getD_append_right _ _ _ _ (by simp [hp])]
    cases alt <;> simp [hp]

/-- `dec` undoes `enc` on every well-formed message (R126, R181). -/
theorem decMsg_encMsg {m : Msg} (h : m.wellFormed = true) : decMsg (encMsg m) = some m := by
  cases m with
  | configure c =>
    rw [encMsg, decMsg, if_pos ⟨encConfig_length h, rfl⟩, decConfig_encConfig h]
  | status n =>
    rw [encMsg, decMsg, if_neg (by simp [encStatus_length]), if_pos ⟨encStatus_length n, rfl⟩]
    have := wordField_append [0x02#8] [] n (o := 1) rfl
    rw [List.append_nil] at this
    exact congrArg (some ∘ Msg.status) this

theorem decConfig_wellFormed {b : List Byte} (h : b.length = maxMsg) : (decConfig b).wellFormed = true := by
  simp [decConfig, ConfigMsg.wellFormed, h, payloadSize]

/-- Whatever `dec` gives is well formed. -/
theorem decMsg_wellFormed {b : List Byte} {m : Msg} (h : decMsg b = some m) : m.wellFormed = true := by
  unfold decMsg at h
  split at h
  · cases h; exact decConfig_wellFormed (by tauto)
  · split at h
    · cases h; rfl
    · cases h

end Sys2Proof
end

