-- ==== Sys2Proof/Laws/Memory.lean ====
section
/-! SUPPORT. The laws of byte memories: reads after writes, and that every memory operation keeps the canonical form. -/

namespace Sys2Proof.Machine

/-! ### The canonical form -/

theorem cellsFrom_mono {lo lo' : Nat} (h : lo' ≤ lo) : ∀ {m : Memory}, cellsFrom lo m = true → cellsFrom lo' m = true
  | [], _ => rfl
  | (k, v) :: rest, hm => by
    simp only [cellsFrom, Bool.and_eq_true, decide_eq_true_eq] at hm ⊢
    exact ⟨⟨by omega, hm.1.2⟩, hm.2⟩

/-- Below the first listed index everything reads as 0. -/
theorem readByte_below {lo a : Nat} (h : a < lo) : ∀ {m : Memory}, cellsFrom lo m = true → readByte m a = 0
  | [], _ => rfl
  | (k, v) :: rest, hm => by
    simp only [cellsFrom, Bool.and_eq_true, decide_eq_true_eq] at hm
    have hk : k ≠ a := by omega
    rw [readByte, if_neg hk]
    exact readByte_below (by omega) hm.2

theorem cellsFrom_writeByte {lo a : Nat} (b : Byte) (h : lo ≤ a) :
    ∀ {m : Memory}, cellsFrom lo m = true → cellsFrom lo (writeByte m a b) = true
  | [], _ => by
    unfold writeByte
    split <;> simp_all [cellsFrom]
  | (k, v) :: rest, hm => by
    simp only [cellsFrom, Bool.and_eq_true, decide_eq_true_eq] at hm
    unfold writeByte
    split
    · split
      · simpa [cellsFrom] using hm
      · simp only [cellsFrom, Bool.and_eq_true, decide_eq_true_eq]
        exact ⟨⟨h, by simpa using ‹¬b = 0›⟩, ⟨by omega, hm.1.2⟩, hm.2⟩
    · split
      · split
        · exact cellsFrom_mono (by omega) hm.2
        · subst a
          simp only [cellsFrom, Bool.and_eq_true, decide_eq_true_eq]
          exact ⟨⟨h, by simpa using ‹¬b = 0›⟩, hm.2⟩
      · simp only [cellsFrom, Bool.and_eq_true, decide_eq_true_eq]
        exact ⟨hm.1, cellsFrom_writeByte b (by omega) hm.2⟩

/-- A write keeps the canonical form. -/
theorem writeByte_wf {m : Memory} (a : Nat) (b : Byte) (h : m.wf = true) : (writeByte m a b : Memory).wf = true :=
  cellsFrom_writeByte b (Nat.zero_le a) h

theorem cellsFrom_bytesFrom (base : Nat) : ∀ bs : List Byte, cellsFrom base (bytesFrom base bs) = true
  | [] => rfl
  | b :: bs => by
    unfold bytesFrom
    split
    · exact cellsFrom_mono (by omega) (cellsFrom_bytesFrom (base + 1) bs)
    · simp only [cellsFrom, Bool.and_eq_true, decide_eq_true_eq]
      exact ⟨⟨le_refl _, by simpa using ‹¬b = 0›⟩, cellsFrom_bytesFrom (base + 1) bs⟩

/-- A memory made from a list of bytes is canonical. -/
theorem bytesFrom_wf (base : Nat) (bs : List Byte) : (bytesFrom base bs : Memory).wf = true :=
  cellsFrom_mono (Nat.zero_le base) (cellsFrom_bytesFrom base bs)

/-- A ring write keeps the canonical form. -/
theorem ringWrite_wf (k : Nat) : ∀ (bs : List Byte) {ring : Memory} (c : Word), ring.wf = true →
    (ringWrite k ring c bs : Memory).wf = true
  | [], _, _, h => h
  | b :: bs, _, c, h => ringWrite_wf k bs (c + 1) (writeByte_wf _ b h)

/-- Writing a sample keeps the buffer canonical. -/
theorem bufWrite_wf (i : Nat) (iq : Byte × Byte) (s : State) (h : s.io.buffer.wf = true) :
    (bufWrite i iq s).io.buffer.wf = true :=
  writeByte_wf _ _ (writeByte_wf _ _ h)

/-- The memories of the reset state are canonical. -/
theorem reset_memories_wf : State.reset.tx.payload.wf = true ∧ State.reset.qIn.ring.wf = true ∧
    State.reset.qOut.ring.wf = true ∧ State.reset.io.buffer.wf = true := by decide

/-! ### Bounds -/

theorem below_cons (n k : Nat) (v : Byte) (rest : Memory) :
    Memory.below n ((k, v) :: rest) = (decide (k < n) && Memory.below n rest) := rfl

theorem writeByte_below {n a : Nat} (b : Byte) (ha : a < n) :
    ∀ {m : Memory}, m.below n = true → (writeByte m a b : Memory).below n = true
  | [], _ => by
    unfold writeByte
    split
    · rfl
    · simpa [Memory.below] using ha
  | (k, v) :: rest, hm => by
    rw [below_cons, Bool.and_eq_true] at hm
    unfold writeByte
    split
    · split
      · rw [below_cons, hm.1, hm.2, Bool.and_self]
      · rw [below_cons, below_cons, hm.1, hm.2, decide_eq_true ha, Bool.and_self, Bool.and_self]
    · split
      · split
        · exact hm.2
        · rw [below_cons, decide_eq_true ha, hm.2, Bool.and_self]
      · rw [below_cons, hm.1, writeByte_below b ha hm.2, Bool.and_self]

theorem ringWrite_below {k : Nat} (hk : 0 < k) : ∀ (bs : List Byte) {ring : Memory} (c : Word), ring.below k = true →
    (ringWrite k ring c bs : Memory).below k = true
  | [], _, _, h => h
  | b :: bs, _, c, h => ringWrite_below hk bs (c + 1) (writeByte_below b (Nat.mod_lt _ hk) h)

theorem bytesFrom_below {n : Nat} : ∀ (base : Nat) (bs : List Byte), base + bs.length ≤ n →
    (bytesFrom base bs : Memory).below n = true
  | _, [], _ => rfl
  | base, b :: bs, h => by
    rw [List.length_cons] at h
    have ih := bytesFrom_below (n := n) (base + 1) bs (by omega)
    unfold bytesFrom
    split
    · exact ih
    · rw [below_cons, ih, decide_eq_true (by omega), Bool.and_self]

/-! ### Reads after writes -/

/-- A write leaves every other byte alone. -/
theorem readByte_writeByte_ne {a a' : Nat} (b : Byte) (h : a' ≠ a) :
    ∀ m : Memory, readByte (writeByte m a b) a' = readByte m a'
  | [] => by
    unfold writeByte
    split
    · rfl
    · simp [readByte, Ne.symm h]
  | (k, v) :: rest => by
    unfold writeByte
    split
    · split
      · rfl
      · rw [readByte, if_neg (Ne.symm h)]
    · split
      · subst a
        split <;> simp [readByte, Ne.symm h]
      · simp only [readByte, readByte_writeByte_ne b h rest]

/-- A read gives the byte last written. -/
theorem readByte_writeByte_self (a : Nat) (b : Byte) :
    ∀ {lo : Nat} {m : Memory}, cellsFrom lo m = true → readByte (writeByte m a b) a = b
  | _, [], _ => by
    unfold writeByte
    split <;> simp_all [readByte]
  | _, (k, v) :: rest, hm => by
    simp only [cellsFrom, Bool.and_eq_true, decide_eq_true_eq] at hm
    unfold writeByte
    split
    · split
      · subst b
        have hk : k ≠ a := by omega
        rw [readByte, if_neg hk]
        exact readByte_below (by omega) hm.2
      · simp [readByte]
    · split
      · subst a
        split
        · subst b
          exact readByte_below (by omega) hm.2
        · simp [readByte]
      · have hk : k ≠ a := by omega
        rw [readByte, if_neg hk]
        exact readByte_writeByte_self a b hm.2

/-- Read after write, in canonical memories. -/
theorem readByte_writeByte {m : Memory} (hm : m.wf = true) (a a' : Nat) (b : Byte) :
    readByte (writeByte m a b) a' = if a' = a then b else readByte m a' := by
  split
  · subst a'
    exact readByte_writeByte_self a b hm
  · exact readByte_writeByte_ne b ‹_› m

/-- A memory made from a list reads the list's bytes. -/
theorem readByte_bytesFrom : ∀ (base i : Nat) (bs : List Byte), readByte (bytesFrom base bs) (base + i) = bs.getD i 0
  | _, _, [] => by simp [bytesFrom, readByte]
  | base, 0, b :: bs => by
    unfold bytesFrom
    split
    · subst b
      exact readByte_below (lo := base + 1) (by omega) (cellsFrom_bytesFrom _ bs)
    · simp [readByte]
  | base, i + 1, b :: bs => by
    have ih := readByte_bytesFrom (base + 1) i bs
    rw [show base + 1 + i = base + (i + 1) by omega] at ih
    unfold bytesFrom
    split
    · simpa using ih
    · rw [readByte, if_neg (by omega)]
      simpa using ih

end Sys2Proof.Machine
end

