-- ==== Sys2Proof/Laws/Ring.lean ====
section
/-! SUPPORT. The laws of rings: a ring of K bytes, K a power of two no larger than 2^31, read and written across its wrap
(20_memory.md R82). -/

namespace Sys2Proof.Machine

variable {k : Nat} {ring : Memory}

@[simp] theorem ringRead_length : ∀ (n : Nat) (c : Word), (ringRead k ring c n).length = n
  | 0, _ => rfl
  | n + 1, c => by rw [ringRead, List.length_cons, ringRead_length n]

/-- A capacity R170 admits divides 2^32, so indexing is consistent across the counters' wrap. -/
theorem capacity_dvd {j : Nat} (h : j ≤ 31) : 2 ^ j ∣ 2 ^ 32 := pow_dvd_pow 2 (by omega)

theorem counter_mod (hk : k ∣ 2 ^ 32) (c : Word) (i : Nat) : (c + BitVec.ofNat 32 i).toNat % k = (c.toNat + i) % k := by
  rw [BitVec.toNat_add, BitVec.toNat_ofNat, Nat.mod_mod_of_dvd _ hk, Nat.add_mod, Nat.mod_mod_of_dvd _ hk, ← Nat.add_mod]

theorem counter_assoc (c : Word) (i j : Nat) :
    c + BitVec.ofNat 32 i + BitVec.ofNat 32 j = c + BitVec.ofNat 32 (i + j) := by
  rw [BitVec.add_assoc, BitVec.ofNat_add]

/-- A read of `m + n` bytes is a read of `m` and then of `n`. -/
theorem ringRead_add (m n : Nat) (c : Word) :
    ringRead k ring c (m + n) = ringRead k ring c m ++ ringRead k ring (c + BitVec.ofNat 32 m) n := by
  induction m generalizing c with
  | zero => simp [ringRead]
  | succ m ih =>
    rw [Nat.succ_add, ringRead, ringRead, ih (c + 1), List.cons_append]
    have : c + 1 + BitVec.ofNat 32 m = c + BitVec.ofNat 32 (m + 1) := by
      have := counter_assoc c 1 m
      rwa [Nat.add_comm 1 m] at this
    rw [this]

/-- A write changes no ring byte outside its own. -/
theorem readByte_ringWrite_ne (hk : k ∣ 2 ^ 32) {r : Nat} : ∀ (bs : List Byte) (ring : Memory) (c : Word),
    (∀ i < bs.length, r ≠ (c.toNat + i) % k) → readByte (ringWrite k ring c bs) r = readByte ring r
  | [], _, _, _ => rfl
  | b :: bs, ring, c, h => by
    rw [ringWrite, readByte_ringWrite_ne hk bs _ (c + 1), readByte_writeByte_ne]
    · simpa using h 0 (by simp)
    · intro i hi
      have h1 := h (i + 1) (by simpa using hi)
      have e : (c + 1).toNat % k = (c.toNat + 1) % k := counter_mod hk c 1
      rwa [Nat.add_mod, e, ← Nat.add_mod, Nat.add_assoc, Nat.add_comm 1 i]

/-- A read whose bytes a write does not touch is unchanged. -/
theorem ringRead_ringWrite_disjoint (hk : k ∣ 2 ^ 32) (bs : List Byte) (c : Word) : ∀ (n : Nat) (d : Word),
    (∀ i < n, ∀ j < bs.length, (d.toNat + i) % k ≠ (c.toNat + j) % k) →
    ringRead k (ringWrite k ring c bs) d n = ringRead k ring d n
  | 0, _, _ => rfl
  | n + 1, d, h => by
    rw [ringRead, ringRead, readByte_ringWrite_ne hk, ringRead_ringWrite_disjoint hk bs c n (d + 1)]
    · intro i hi j hj
      have h1 := h (i + 1) (by omega) j hj
      have e : (d + 1).toNat % k = (d.toNat + 1) % k := counter_mod hk d 1
      rwa [Nat.add_mod, e, ← Nat.add_mod, Nat.add_assoc, Nat.add_comm 1 i]
    · intro j hj
      simpa using h 0 (by omega) j hj

/-- Two offsets less than K apart are different ring bytes. -/
theorem offsets_ne {x i j : Nat} (hij : i < j) (hjk : j < i + k) : (x + i) % k ≠ (x + j) % k := by
  intro h
  have hd : k ∣ (x + j) - (x + i) := (Nat.modEq_iff_dvd' (by omega)).mp h
  rw [show x + j - (x + i) = j - i by omega] at hd
  have := Nat.le_of_dvd (by omega) hd
  omega

/-- A ring reads back what was written, if it fits (R82). -/
theorem ringRead_ringWrite_self (hk : k ∣ 2 ^ 32) : ∀ (bs : List Byte) (ring : Memory) (c : Word), ring.wf = true →
    bs.length ≤ k → ringRead k (ringWrite k ring c bs) c bs.length = bs
  | [], _, _, _, _ => rfl
  | b :: bs, ring, c, hwf, hlen => by
    rw [List.length_cons] at hlen
    rw [List.length_cons, ringRead, ringWrite,
      ringRead_ringWrite_self hk bs _ (c + 1) (writeByte_wf _ b hwf) (by omega), readByte_ringWrite_ne hk,
      readByte_writeByte hwf, if_pos rfl]
    intro i hi
    have e : (c + 1).toNat % k = (c.toNat + 1) % k := counter_mod hk c 1
    rw [Nat.add_mod (c + 1).toNat, e, ← Nat.add_mod, Nat.add_assoc, Nat.add_comm 1 i]
    exact offsets_ne (x := c.toNat) (i := 0) (j := i + 1) (by omega) (by omega)

end Sys2Proof.Machine
end

