-- ==== Sys2Proof/Laws/State.lean ====
section
/-! SUPPORT. One lemma per field per update of the state, so that no proof unfolds a record update. -/

namespace Sys2Proof.Machine

variable (s : State) (x : QueueId) (q : Queue) (e : Event) (r : Response) (f : Fault) (w : Refusal)

@[simp] theorem queue_inbound : s.queue .inbound = s.qIn := rfl
@[simp] theorem queue_outbound : s.queue .outbound = s.qOut := rfl
@[simp] theorem setQueue_inbound : s.setQueue .inbound q = { s with qIn := q } := rfl
@[simp] theorem setQueue_outbound : s.setQueue .outbound q = { s with qOut := q } := rfl

@[simp] theorem setQueue_queue : (s.setQueue x q).queue x = q := by cases x <;> rfl
@[simp] theorem setQueue_params : (s.setQueue x q).params = s.params := by cases x <;> rfl
@[simp] theorem setQueue_tx : (s.setQueue x q).tx = s.tx := by cases x <;> rfl
@[simp] theorem setQueue_synth : (s.setQueue x q).synth = s.synth := by cases x <;> rfl
@[simp] theorem setQueue_cur : (s.setQueue x q).cur = s.cur := by cases x <;> rfl
@[simp] theorem setQueue_history : (s.setQueue x q).history = s.history := by cases x <;> rfl
@[simp] theorem setQueue_faultMark : (s.setQueue x q).faultMark = s.faultMark := by cases x <;> rfl
@[simp] theorem setQueue_refusalMark : (s.setQueue x q).refusalMark = s.refusalMark := by cases x <;> rfl
@[simp] theorem setQueue_io : (s.setQueue x q).io = s.io := by cases x <;> rfl

/-- A queue's write leaves the other queue alone. -/
theorem setQueue_queue_ne {y : QueueId} (h : y ≠ x) : (s.setQueue x q).queue y = s.queue y := by
  cases x <;> cases y <;> first | rfl | exact absurd rfl h

@[simp] theorem record_params : (s.record e).params = s.params := rfl
@[simp] theorem record_tx : (s.record e).tx = s.tx := rfl
@[simp] theorem record_synth : (s.record e).synth = s.synth := rfl
@[simp] theorem record_cur : (s.record e).cur = s.cur := rfl
@[simp] theorem record_qIn : (s.record e).qIn = s.qIn := rfl
@[simp] theorem record_qOut : (s.record e).qOut = s.qOut := rfl
@[simp] theorem record_history : (s.record e).history = s.history ++ [e] := rfl
@[simp] theorem record_faultMark : (s.record e).faultMark = s.faultMark := rfl
@[simp] theorem record_refusalMark : (s.record e).refusalMark = s.refusalMark := rfl
@[simp] theorem record_io : (s.record e).io = s.io := rfl
@[simp] theorem record_queue : (s.record e).queue x = s.queue x := by cases x <;> rfl

@[simp] theorem respond_params : (s.respond r).params = s.params := rfl
@[simp] theorem respond_tx : (s.respond r).tx = s.tx := rfl
@[simp] theorem respond_synth : (s.respond r).synth = s.synth := rfl
@[simp] theorem respond_cur : (s.respond r).cur = s.cur := rfl
@[simp] theorem respond_qIn : (s.respond r).qIn = s.qIn := rfl
@[simp] theorem respond_qOut : (s.respond r).qOut = s.qOut := rfl
@[simp] theorem respond_history : (s.respond r).history = s.history := rfl
@[simp] theorem respond_faultMark : (s.respond r).faultMark = s.faultMark := rfl
@[simp] theorem respond_refusalMark : (s.respond r).refusalMark = s.refusalMark := rfl
@[simp] theorem respond_buffer : (s.respond r).io.buffer = s.io.buffer := rfl
@[simp] theorem respond_filled : (s.respond r).io.filled = s.io.filled := rfl
@[simp] theorem respond_ports : (s.respond r).io.ports = s.io.ports := rfl
@[simp] theorem respond_turns : (s.respond r).io.turns = s.io.turns := rfl
@[simp] theorem respond_issuer : (s.respond r).io.issuer = s.io.issuer := rfl
@[simp] theorem respond_response : (s.respond r).io.response = r := rfl
@[simp] theorem respond_queue : (s.respond r).queue x = s.queue x := by cases x <;> rfl

@[simp] theorem refuse_params : (s.refuse w).params = s.params := rfl
@[simp] theorem refuse_tx : (s.refuse w).tx = s.tx := rfl
@[simp] theorem refuse_synth : (s.refuse w).synth = s.synth := rfl
@[simp] theorem refuse_cur : (s.refuse w).cur = s.cur := rfl
@[simp] theorem refuse_qIn : (s.refuse w).qIn = s.qIn := rfl
@[simp] theorem refuse_qOut : (s.refuse w).qOut = s.qOut := rfl
@[simp] theorem refuse_history : (s.refuse w).history = s.history := rfl
@[simp] theorem refuse_faultMark : (s.refuse w).faultMark = s.faultMark := rfl
@[simp] theorem refuse_refusalMark : (s.refuse w).refusalMark = s.refusalMark.or (some w) := rfl
@[simp] theorem refuse_buffer : (s.refuse w).io.buffer = s.io.buffer := rfl
@[simp] theorem refuse_filled : (s.refuse w).io.filled = s.io.filled := rfl
@[simp] theorem refuse_ports : (s.refuse w).io.ports = s.io.ports := rfl
@[simp] theorem refuse_turns : (s.refuse w).io.turns = s.io.turns := rfl
@[simp] theorem refuse_issuer : (s.refuse w).io.issuer = s.io.issuer := rfl
@[simp] theorem refuse_response : (s.refuse w).io.response = .refused w := rfl
@[simp] theorem refuse_queue : (s.refuse w).queue x = s.queue x := by cases x <;> rfl

@[simp] theorem fail_params : (s.fail f).params = s.params := rfl
@[simp] theorem fail_tx : (s.fail f).tx = s.tx := rfl
@[simp] theorem fail_synth : (s.fail f).synth = s.synth := rfl
@[simp] theorem fail_cur : (s.fail f).cur = s.cur := rfl
@[simp] theorem fail_qIn : (s.fail f).qIn = s.qIn := rfl
@[simp] theorem fail_qOut : (s.fail f).qOut = s.qOut := rfl
@[simp] theorem fail_history : (s.fail f).history = s.history := rfl
@[simp] theorem fail_faultMark : (s.fail f).faultMark = some f := rfl
@[simp] theorem fail_refusalMark : (s.fail f).refusalMark = s.refusalMark := rfl
@[simp] theorem fail_response : (s.fail f).io.response = .faulted f := rfl
@[simp] theorem fail_buffer : (s.fail f).io.buffer = s.io.buffer := rfl
@[simp] theorem fail_filled : (s.fail f).io.filled = s.io.filled := rfl
@[simp] theorem fail_ports : (s.fail f).io.ports = s.io.ports := rfl
@[simp] theorem fail_turns : (s.fail f).io.turns = s.io.turns := rfl
@[simp] theorem fail_issuer : (s.fail f).io.issuer = s.io.issuer := rfl
@[simp] theorem fail_queue : (s.fail f).queue x = s.queue x := by cases x <;> rfl

section Buffers
variable (n : Word) (bytes : List Byte)

@[simp] theorem returnBuffer_params : (returnBuffer n s).params = s.params := by unfold returnBuffer; split <;> rfl
@[simp] theorem returnBuffer_tx : (returnBuffer n s).tx = s.tx := by unfold returnBuffer; split <;> rfl
@[simp] theorem returnBuffer_synth : (returnBuffer n s).synth = s.synth := by unfold returnBuffer; split <;> rfl
@[simp] theorem returnBuffer_cur : (returnBuffer n s).cur = s.cur := by unfold returnBuffer; split <;> rfl
@[simp] theorem returnBuffer_qIn : (returnBuffer n s).qIn = s.qIn := by unfold returnBuffer; split <;> rfl
@[simp] theorem returnBuffer_qOut : (returnBuffer n s).qOut = s.qOut := by unfold returnBuffer; split <;> rfl
@[simp] theorem returnBuffer_history : (returnBuffer n s).history = s.history := by unfold returnBuffer; split <;> rfl
@[simp] theorem returnBuffer_faultMark : (returnBuffer n s).faultMark = s.faultMark := by unfold returnBuffer; split <;> rfl
@[simp] theorem returnBuffer_refusalMark : (returnBuffer n s).refusalMark = s.refusalMark := by
  unfold returnBuffer; split <;> rfl
@[simp] theorem returnBuffer_buffer : (returnBuffer n s).io.buffer = s.io.buffer := by
  unfold returnBuffer; split <;> rfl
@[simp] theorem returnBuffer_ports : (returnBuffer n s).io.ports = s.io.ports := by unfold returnBuffer; split <;> rfl
@[simp] theorem returnBuffer_turns : (returnBuffer n s).io.turns = s.io.turns := by unfold returnBuffer; split <;> rfl
@[simp] theorem returnBuffer_issuer : (returnBuffer n s).io.issuer = s.io.issuer := by
  unfold returnBuffer; split <;> rfl
@[simp] theorem returnBuffer_response : (returnBuffer n s).io.response = s.io.response := by
  unfold returnBuffer; split <;> rfl
@[simp] theorem returnBuffer_queue : (returnBuffer n s).queue x = s.queue x := by cases x <;> simp

/-- FILL of no samples returns no buffer (R316). -/
@[simp] theorem returnBuffer_zero : returnBuffer 0#32 s = s := rfl

/-- The buffers returned so far, and after them the one just written (R398). -/
theorem returnBuffer_filled : (returnBuffer n s).io.filled =
    if n = 0 then s.io.filled else s.io.filled ++ [{ count := n.toNat, bytes := s.io.buffer }] := by
  unfold returnBuffer; split <;> rfl

/-- Supplying a buffer writes nothing else. -/
theorem supplyBuffer_eq : supplyBuffer bytes s = { s with io := { s.io with buffer := bytesFrom 0 bytes } } := rfl

end Buffers

section Edge
variable (a : Agent) (rest : List Byte) (turns : List Turn) (p : Ports)

@[simp] theorem issue_params : (s.issue a rest turns).params = s.params := rfl
@[simp] theorem issue_tx : (s.issue a rest turns).tx = s.tx := rfl
@[simp] theorem issue_synth : (s.issue a rest turns).synth = s.synth := rfl
@[simp] theorem issue_cur : (s.issue a rest turns).cur = s.cur := rfl
@[simp] theorem issue_qIn : (s.issue a rest turns).qIn = s.qIn := rfl
@[simp] theorem issue_qOut : (s.issue a rest turns).qOut = s.qOut := rfl
@[simp] theorem issue_history : (s.issue a rest turns).history = s.history := rfl
@[simp] theorem issue_faultMark : (s.issue a rest turns).faultMark = s.faultMark := rfl
@[simp] theorem issue_refusalMark : (s.issue a rest turns).refusalMark = s.refusalMark := rfl
@[simp] theorem issue_buffer : (s.issue a rest turns).io.buffer = s.io.buffer := rfl
@[simp] theorem issue_filled : (s.issue a rest turns).io.filled = s.io.filled := rfl
@[simp] theorem issue_ports : (s.issue a rest turns).io.ports = withPort s.io.ports a rest := rfl
@[simp] theorem issue_turns : (s.issue a rest turns).io.turns = turns := rfl
@[simp] theorem issue_issuer : (s.issue a rest turns).io.issuer = a := rfl
@[simp] theorem issue_response : (s.issue a rest turns).io.response = .none := rfl
@[simp] theorem issue_queue : (s.issue a rest turns).queue x = s.queue x := by cases x <;> rfl

@[simp] theorem portOf_withPort : portOf (withPort p a rest) a = rest := by cases a <;> rfl

/-- Taking bytes from one port leaves the others alone. -/
theorem portOf_withPort_ne {b : Agent} (h : b ≠ a) : portOf (withPort p a rest) b = portOf p b := by
  cases a <;> cases b <;> first | rfl | exact absurd rfl h

/-- A port given back the bytes it holds is unchanged. -/
theorem withPort_self : withPort p a (portOf p a) = p := by cases a <;> rfl

end Edge

/-- What a role check can do: the effect for the role's agent, the refusal for any other (R344). -/
theorem asAgent_cases (a : Agent) (t : State) :
    (s.io.issuer = a ∧ s.asAgent a t = t) ∨ (s.io.issuer ≠ a ∧ s.asAgent a t = s.refuse .wrongAgent) := by
  by_cases h : s.io.issuer = a
  · exact .inl ⟨h, if_pos h⟩
  · exact .inr ⟨h, if_neg h⟩

/-- The role's agent gets the effect. -/
theorem asAgent_of_issuer {a : Agent} (h : s.io.issuer = a) (t : State) : s.asAgent a t = t := if_pos h

end Sys2Proof.Machine
end

