-- ==== Sys2Proof/Laws/Queue.lean ====
section
/-! SUPPORT. What the queue operations can do, said once: PUSH and POP by cases, and their effect on the messages a queue
holds (40_queue.md R174, R176, R180). -/

namespace Sys2Proof.Machine

/-- Everything PUSH can do (R174). -/
theorem pushQueue_cases (x : QueueId) (m : Msg) (a : Agent) (s : State) :
    ((∃ b, (s.queue x).lock = .held b) ∧
        pushQueue x m a s = (if a.triesAcquire then .busy else .waits, s)) ∨
      ((s.queue x).lock = .free ∧ ringCapacity s.params x - (s.queue x).used < (encRecord m).length ∧
        pushQueue x m a s = (.full, s)) ∨
      ((s.queue x).lock = .free ∧ (encRecord m).length ≤ ringCapacity s.params x - (s.queue x).used ∧
        pushQueue x m a s = (.ok, s.setQueue x ((s.queue x).commit (ringCapacity s.params x) (encRecord m)))) := by
  unfold pushQueue
  cases hl : (s.queue x).lock with
  | held b => exact .inl ⟨⟨b, rfl⟩, by simp only [hl]⟩
  | free =>
    by_cases h : ringCapacity s.params x - (s.queue x).used < (encRecord m).length
    · exact .inr (.inl ⟨rfl, h, by simp only [hl, if_pos h]⟩)
    · exact .inr (.inr ⟨rfl, by omega, by simp only [hl, if_neg h]⟩)

/-- Everything POP can do (R180). -/
theorem popQueue_cases (x : QueueId) (s : State) :
    ((s.queue x).used = 0 ∧ popQueue x s = (.empty, s)) ∨
      ((s.queue x).used ≠ 0 ∧ decMsg ((s.queue x).headBody (ringCapacity s.params x)) = none ∧
        popQueue x s = (.corrupt, s)) ∨
      ∃ m, (s.queue x).used ≠ 0 ∧ decMsg ((s.queue x).headBody (ringCapacity s.params x)) = some m ∧
        popQueue x s = (.msg m, s.setQueue x { s.queue x with
          rd := (s.queue x).rd +
            BitVec.ofNat 32 (recHdr + (s.queue x).headLength (ringCapacity s.params x)) }) := by
  unfold popQueue
  by_cases h : (s.queue x).used = 0
  · exact .inl ⟨h, if_pos h⟩
  · cases hd : decMsg ((s.queue x).headBody (ringCapacity s.params x)) with
    | none => exact .inr (.inl ⟨h, rfl, by simp only [if_neg h, hd]⟩)
    | some m => exact .inr (.inr ⟨m, h, rfl, by simp only [if_neg h, hd]⟩)

/-! ### Capacities -/

theorem ringCapacity_dvd {p : Params} (h : p.legal) (x : QueueId) : ringCapacity p x ∣ 2 ^ 32 := by
  obtain ⟨_, _, _, hi, _, ho⟩ := h
  cases x
  · exact capacity_dvd hi
  · exact capacity_dvd ho

theorem ringCapacity_le {p : Params} (h : p.legal) (x : QueueId) : ringCapacity p x ≤ 2 ^ 31 := by
  obtain ⟨_, _, _, hi, _, ho⟩ := h
  cases x
  · exact Nat.pow_le_pow_right (by omega) hi
  · exact Nat.pow_le_pow_right (by omega) ho

theorem ringCapacity_pos (p : Params) (x : QueueId) : 0 < ringCapacity p x := by
  cases x <;> exact Nat.two_pow_pos _

/-! ### The messages a queue holds -/

/-- The occupancy after a commit (R176). -/
theorem commit_used {q : Queue} {k : Nat} {bytes : List Byte} (h : q.used + bytes.length < 2 ^ 32) :
    (q.commit k bytes).used = q.used + bytes.length := by
  unfold Queue.used at h ⊢
  have e : (q.commit k bytes).wr - (q.commit k bytes).rd = (q.wr - q.rd) + BitVec.ofNat 32 bytes.length := by
    simp only [Queue.commit]; abel
  rw [e, BitVec.toNat_add, BitVec.toNat_ofNat]
  omega

/-- The producer's count is the consumer's plus the occupancy. -/
theorem wr_eq_rd_add (q : Queue) : q.wr = q.rd + BitVec.ofNat 32 q.used := by
  rw [Queue.used, BitVec.ofNat_toNat, BitVec.setWidth_eq]; abel

/-- A commit that fits writes no occupied byte (R176). -/
theorem commit_keeps_occupied {q : Queue} {k : Nat} {bytes : List Byte} (hk : k ∣ 2 ^ 32)
    (h : q.used + bytes.length ≤ k) :
    ringRead k (q.commit k bytes).ring q.rd q.used = ringRead k q.ring q.rd q.used := by
  refine ringRead_ringWrite_disjoint hk bytes q.wr q.used q.rd fun i hi j hj => ?_
  have e : q.wr.toNat % k = (q.rd.toNat + q.used) % k := by
    conv_lhs => rw [wr_eq_rd_add q]
    exact counter_mod hk _ _
  rw [Nat.add_mod q.wr.toNat, e, ← Nat.add_mod, Nat.add_assoc]
  exact offsets_ne (by omega) (by omega)

/-- A committed record is at the end of what the queue holds. -/
theorem commit_holds {q : Queue} {k : Nat} {m : Msg} {ms : List Msg} (hk : k ∣ 2 ^ 32) (hk' : k < 2 ^ 32)
    (hwf : q.ring.wf = true) (hm : m.wellFormed = true) (h : q.Holds k ms)
    (hroom : q.used + (encRecord m).length ≤ k) : (q.commit k (encRecord m)).Holds k (ms ++ [m]) := by
  refine ⟨?_, ?_⟩
  · simpa [or_imp, forall_and] using ⟨h.1, hm⟩
  · rw [commit_used (by omega), ringRead_add, List.flatMap_append, ← h.2]
    have hrd : (q.commit k (encRecord m)).rd = q.rd := rfl
    have hring : (q.commit k (encRecord m)).ring = ringWrite k q.ring q.wr (encRecord m) := rfl
    rw [hrd, commit_keeps_occupied hk hroom, ← wr_eq_rd_add, hring, ringRead_ringWrite_self hk _ _ _ hwf (by omega)]
    simp

/-- The length header at the head of a queue that holds `m` first (R127). -/
theorem headLength_of_holds {q : Queue} {k : Nat} {m : Msg} {ms : List Msg} (h : q.Holds k (m :: ms)) :
    q.headLength k = (encMsg m).length ∧ q.headBody k = encMsg m ∧
      ∃ r, q.used = (encRecord m).length + r ∧
        ringRead k q.ring (q.rd + BitVec.ofNat 32 (encRecord m).length) r = ms.flatMap encRecord := by
  obtain ⟨hwf, hread⟩ := h
  rw [List.flatMap_cons] at hread
  have hlen := congrArg List.length hread
  rw [ringRead_length, List.length_append] at hlen
  have hL : (encMsg m).length < 256 ^ 2 := by
    rcases encMsg_length (hwf m (by simp)) with h | h <;> rw [h] <;> decide
  rw [hlen, ringRead_add] at hread
  obtain ⟨hrec, hrest⟩ := List.append_inj hread (by rw [ringRead_length])
  rw [encRecord_length, ringRead_add] at hrec
  obtain ⟨hhdr, hbody⟩ := List.append_inj hrec (by rw [ringRead_length, leBytes_length])
  have hl : q.headLength k = (encMsg m).length := by
    rw [Queue.headLength, hhdr, leValue_leBytes, Nat.mod_eq_of_lt hL]
  exact ⟨hl, by rw [Queue.headBody, hl, hbody], _, hlen, hrest⟩

/-- POP of a queue that holds `m` first (R180): `m` is returned and the rest stays. -/
theorem popQueue_of_contents {s : State} {x : QueueId} {m : Msg} {ms : List Msg} (h : Contents s x (m :: ms)) :
    popQueue x s = (.msg m, s.setQueue x { s.queue x with
        rd := (s.queue x).rd + BitVec.ofNat 32 (encRecord m).length }) ∧
      Contents (s.setQueue x { s.queue x with
        rd := (s.queue x).rd + BitVec.ofNat 32 (encRecord m).length }) x ms := by
  obtain ⟨hl, hb, r, hu, hr⟩ := headLength_of_holds h.records
  have hpos : (s.queue x).used ≠ 0 := by rw [hu, encRecord_length]; unfold recHdr; omega
  have hdec : decMsg ((s.queue x).headBody (ringCapacity s.params x)) = some m := by
    rw [hb, decMsg_encMsg (h.records.1 m (by simp))]
  have hused : ({ s.queue x with rd := (s.queue x).rd + BitVec.ofNat 32 (encRecord m).length } : Queue).used = r := by
    unfold Queue.used at hu ⊢
    have hlt := ((s.queue x).wr - (s.queue x).rd).isLt
    have e : (s.queue x).wr - ((s.queue x).rd + BitVec.ofNat 32 (encRecord m).length) =
        ((s.queue x).wr - (s.queue x).rd) - BitVec.ofNat 32 (encRecord m).length := by abel
    simp only
    rw [e, BitVec.toNat_sub, BitVec.toNat_ofNat]
    omega
  constructor
  · rcases popQueue_cases x s with h0 | h0 | ⟨m', _, h2, h3⟩
    · exact absurd h0.1 hpos
    · rw [hdec] at h0; exact absurd h0.2.1 (by simp)
    · rw [hdec] at h2
      cases h2
      rw [h3, hl, encRecord_length]
  · refine ⟨?_, ?_, ?_⟩
    · rw [setQueue_queue, setQueue_params, hused]
      have := h.used
      omega
    · exact fun m' hm' => h.records.1 m' (List.mem_cons_of_mem _ hm')
    · rw [setQueue_queue, setQueue_params, hused]
      exact hr

/-- A queue that holds nothing is empty. -/
theorem used_of_contents_nil {s : State} {x : QueueId} (h : Contents s x []) : (s.queue x).used = 0 := by
  have := congrArg List.length h.records.2
  simpa using this

/-! ### The status push -/

/-- Everything the status push can do (R185): the OUT queue and the history, nothing else. -/
theorem pushStatus_cases (n : Word) (s : State) :
    (s.qOut.lock = .free ∧ (encRecord (.status n)).length ≤ ringCapacity s.params .outbound - s.qOut.used ∧
        pushStatus n s = ({ s with
          qOut := s.qOut.commit (ringCapacity s.params .outbound) (encRecord (.status n)) } : State).record
            (.statusPushed n)) ∨
      (∃ r, pushStatus n s = s.record (.statusDropped n r)) := by
  unfold pushStatus
  rcases pushQueue_cases .outbound (.status n) .rt s with ⟨_, h⟩ | ⟨_, _, h⟩ | ⟨hl, hr, h⟩
  · right; rw [h]; exact ⟨.busy, rfl⟩
  · right; rw [h]; exact ⟨.full, rfl⟩
  · left; rw [h]; exact ⟨hl, hr, rfl⟩

/-- The status push reads and writes nothing of the cursor. -/
theorem pushStatus_setCur (n : Word) (s : State) (c : EncoderCursor) :
    pushStatus n { s with cur := c } = { pushStatus n s with cur := c } := by
  unfold pushStatus pushQueue State.queue State.setQueue
  cases hl : s.qOut.lock with
  | free =>
    simp only [hl]
    by_cases h : ringCapacity s.params .outbound - s.qOut.used < (encRecord (.status n)).length
    · simp only [h, if_true]; rfl
    · simp only [h, if_false]; rfl
  | held b => simp only [hl]; rfl

/-- The status push reads and writes nothing of the edge. -/
theorem pushStatus_setIo (n : Word) (s : State) (io : Edge) :
    pushStatus n { s with io := io } = { pushStatus n s with io := io } := by
  unfold pushStatus pushQueue State.queue State.setQueue
  cases hl : s.qOut.lock with
  | free =>
    simp only [hl]
    by_cases h : ringCapacity s.params .outbound - s.qOut.used < (encRecord (.status n)).length
    · simp only [h, if_true]; rfl
    · simp only [h, if_false]; rfl
  | held b => simp only [hl]; rfl

section StatusFrame
variable (n : Word) (s : State)

@[simp] theorem pushStatus_params : (pushStatus n s).params = s.params := by
  rcases pushStatus_cases n s with ⟨_, _, h⟩ | ⟨r, h⟩ <;> rw [h] <;> rfl

@[simp] theorem pushStatus_tx : (pushStatus n s).tx = s.tx := by
  rcases pushStatus_cases n s with ⟨_, _, h⟩ | ⟨r, h⟩ <;> rw [h] <;> rfl

@[simp] theorem pushStatus_synth : (pushStatus n s).synth = s.synth := by
  rcases pushStatus_cases n s with ⟨_, _, h⟩ | ⟨r, h⟩ <;> rw [h] <;> rfl

@[simp] theorem pushStatus_cur : (pushStatus n s).cur = s.cur := by
  rcases pushStatus_cases n s with ⟨_, _, h⟩ | ⟨r, h⟩ <;> rw [h] <;> rfl

@[simp] theorem pushStatus_qIn : (pushStatus n s).qIn = s.qIn := by
  rcases pushStatus_cases n s with ⟨_, _, h⟩ | ⟨r, h⟩ <;> rw [h] <;> rfl

@[simp] theorem pushStatus_faultMark : (pushStatus n s).faultMark = s.faultMark := by
  rcases pushStatus_cases n s with ⟨_, _, h⟩ | ⟨r, h⟩ <;> rw [h] <;> rfl

@[simp] theorem pushStatus_refusalMark : (pushStatus n s).refusalMark = s.refusalMark := by
  rcases pushStatus_cases n s with ⟨_, _, h⟩ | ⟨r, h⟩ <;> rw [h] <;> rfl

@[simp] theorem pushStatus_io : (pushStatus n s).io = s.io := by
  rcases pushStatus_cases n s with ⟨_, _, h⟩ | ⟨r, h⟩ <;> rw [h] <;> rfl

end StatusFrame

end Sys2Proof.Machine
end

