-- ==== Sys2Proof/Laws/Encoder.lean ====
section
/-! SUPPORT. What the encoder's and the sample callback's steps can do, said once, and what they leave unchanged
(42_frame_encoder.md R234, 45_sample_callback.md R310). -/

namespace Sys2Proof.Machine

/-- Everything the window check and what follows it can do (R234). -/
theorem checkWindow_cases (s : State) :
    (s.tx.configured = false ∧ checkWindow s = s) ∨
      (s.tx.configured = true ∧ atTerminator (loadWindow s) = false ∧ checkWindow s = loadWindow s) ∨
      (s.tx.configured = true ∧ atTerminator (loadWindow s) = true ∧ repeatsLeft (loadWindow s) = true ∧
        checkWindow s = restartPayload (loadWindow s)) ∨
      (s.tx.configured = true ∧ atTerminator (loadWindow s) = true ∧ repeatsLeft (loadWindow s) = false ∧
        checkWindow s = finishTransmission (loadWindow s)) := by
  unfold checkWindow endOfPayload
  cases s.tx.configured <;> cases atTerminator (loadWindow s) <;> cases repeatsLeft (loadWindow s) <;> simp

/-- A terminator window: both of its bytes are zero (R237). -/
theorem atTerminator_iff (s : State) :
    atTerminator s = true ↔ s.tx.configured = true ∧ s.cur.currentByte = 0 ∧ s.cur.nextByte = 0 := by
  simp [atTerminator, and_assoc]

/-- The window just loaded, a terminator when both bytes `P` gives are zero (R237, R238). -/
theorem loadWindow_terminator_iff {s : State} (h : s.tx.configured = true) :
    atTerminator (loadWindow s) = true ↔
      payloadByte s s.cur.bytePosition.toNat = 0 ∧ payloadByte s (s.cur.bytePosition.toNat + 1) = 0 := by
  rw [atTerminator_iff]
  exact ⟨fun h' => h'.2, fun h' => ⟨h, h'⟩⟩

/-- RESTART as one status push and one new cursor (R240). -/
theorem restartPayload_eq (s : State) :
    restartPayload s = { pushStatus (s.cur.repeatCounter + 1) s with
      cur := { s.cur with
        bitPosition := 0
        bytePosition := 0
        currentByte := payloadByte s 0
        nextByte := payloadByte s 1
        repeatCounter := s.cur.repeatCounter + 1 } } := by
  unfold restartPayload
  simp only [pushStatus_setCur]

/-- A status push after the window's load is one before it. -/
theorem pushStatus_loadWindow (n : Word) (s : State) :
    pushStatus n (loadWindow s) = { pushStatus n s with cur := (loadWindow s).cur } := pushStatus_setCur n s _

section Edge
variable (s : State) (io : Edge)

/-- No step of the encoder reads or writes the edge: said of the window check, and so of the bit period, the gate and the
audio tick. -/
theorem checkWindow_setIo : checkWindow { s with io := io } = { checkWindow s with io := io } := by
  unfold checkWindow endOfPayload
  have hr : restartPayload { loadWindow s with io := io } = { restartPayload (loadWindow s) with io := io } := by
    rw [restartPayload_eq, restartPayload_eq, pushStatus_setIo]; rfl
  have hf : finishTransmission { loadWindow s with io := io } = { finishTransmission (loadWindow s) with io := io } := by
    unfold finishTransmission; rw [pushStatus_setIo]
  show (if s.tx.configured then
      if atTerminator (loadWindow s) then
        if repeatsLeft (loadWindow s) then restartPayload { loadWindow s with io := io }
        else finishTransmission { loadWindow s with io := io }
      else { loadWindow s with io := io }
    else { s with io := io }) = _
  rw [hr, hf]
  split
  · split
    · split <;> rfl
    · rfl
  · rfl

theorem bitPeriod_setIo : bitPeriod { s with io := io } = { bitPeriod s with io := io } := by
  unfold bitPeriod
  rw [checkWindow_setIo]
  show bitAdvance { frameBit (checkWindow s) with io := io } = _
  unfold bitAdvance
  split <;> rfl

theorem audioTick_setIo : audioTick { s with io := io } = { audioTick s with io := io } := by
  unfold audioTick
  show (if onAudioTick s then toneStep (if gateOpen s then setSampleCounter (reloadValue s) (bitPeriod { s with io := io })
    else { setSampleCounter (s.cur.sampleCounter + 1) s with io := io }) else { s with io := io }) = _
  rw [bitPeriod_setIo]
  unfold encoderTick
  split
  · split <;> rfl
  · rfl

end Edge

section Frames
variable (s : State)

/-- What every step of the encoder keeps: everything but the cursor, `configured`, OUT and the history. -/
structure KeepsOutsideEncoder (s t : State) : Prop where
  params : t.params = s.params
  tx : t.tx = { s.tx with configured := t.tx.configured }
  synth : t.synth = s.synth
  qIn : t.qIn = s.qIn
  faultMark : t.faultMark = s.faultMark
  refusalMark : t.refusalMark = s.refusalMark
  io : t.io = s.io

theorem KeepsOutsideEncoder.rfl' : KeepsOutsideEncoder s s := ⟨rfl, rfl, rfl, rfl, rfl, rfl, rfl⟩

theorem KeepsOutsideEncoder.trans' {s t u : State} (h : KeepsOutsideEncoder s t) (h' : KeepsOutsideEncoder t u) :
    KeepsOutsideEncoder s u :=
  ⟨h'.params.trans h.params, by rw [h'.tx, h.tx], h'.synth.trans h.synth, h'.qIn.trans h.qIn,
    h'.faultMark.trans h.faultMark, h'.refusalMark.trans h.refusalMark, h'.io.trans h.io⟩

theorem restartPayload_keeps : KeepsOutsideEncoder s (restartPayload s) := by
  constructor <;> simp [restartPayload]

theorem finishTransmission_keeps : KeepsOutsideEncoder s (finishTransmission s) := by
  constructor <;> simp [finishTransmission]

theorem checkWindow_keeps : KeepsOutsideEncoder s (checkWindow s) := by
  have hl : KeepsOutsideEncoder s (loadWindow s) := ⟨rfl, rfl, rfl, rfl, rfl, rfl, rfl⟩
  rcases checkWindow_cases s with ⟨_, h⟩ | ⟨_, _, h⟩ | ⟨_, _, _, h⟩ | ⟨_, _, _, h⟩ <;> rw [h]
  · exact .rfl' s
  · exact hl
  · exact hl.trans' (restartPayload_keeps _)
  · exact hl.trans' (finishTransmission_keeps _)

theorem frameBit_keeps : KeepsOutsideEncoder s (frameBit s) := ⟨rfl, rfl, rfl, rfl, rfl, rfl, rfl⟩

theorem bitAdvance_keeps : KeepsOutsideEncoder s (bitAdvance s) := by
  unfold bitAdvance
  split <;> exact ⟨rfl, rfl, rfl, rfl, rfl, rfl, rfl⟩

theorem bitPeriod_keeps : KeepsOutsideEncoder s (bitPeriod s) :=
  ((checkWindow_keeps s).trans' (frameBit_keeps _)).trans' (bitAdvance_keeps _)

theorem setSampleCounter_keeps (v : Word) : KeepsOutsideEncoder s (setSampleCounter v s) :=
  ⟨rfl, rfl, rfl, rfl, rfl, rfl, rfl⟩

theorem encoderTick_keeps : KeepsOutsideEncoder s (encoderTick s) := by
  unfold encoderTick
  split
  · exact (bitPeriod_keeps s).trans' (setSampleCounter_keeps _ _)
  · exact setSampleCounter_keeps _ _

end Frames

/-- What every step of the sample callback keeps: the parameters, the configuration but for `configured`, IN, the marks,
and the edge but for the buffer (R318). -/
structure KeepsOutsideFill (s t : State) : Prop where
  params : t.params = s.params
  tx : t.tx = { s.tx with configured := t.tx.configured }
  qIn : t.qIn = s.qIn
  faultMark : t.faultMark = s.faultMark
  refusalMark : t.refusalMark = s.refusalMark
  io : t.io = { s.io with buffer := t.io.buffer }

theorem KeepsOutsideFill.trans' {s t u : State} (h : KeepsOutsideFill s t) (h' : KeepsOutsideFill t u) :
    KeepsOutsideFill s u :=
  ⟨h'.params.trans h.params, by rw [h'.tx, h.tx], h'.qIn.trans h.qIn, h'.faultMark.trans h.faultMark,
    h'.refusalMark.trans h.refusalMark, by rw [h'.io, h.io]⟩

theorem audioTick_keeps (s : State) : KeepsOutsideFill s (audioTick s) := by
  have h := encoderTick_keeps s
  unfold audioTick
  split
  · exact ⟨h.params, h.tx, h.qIn, h.faultMark, h.refusalMark, h.io ▸ rfl⟩
  · exact ⟨rfl, rfl, rfl, rfl, rfl, rfl⟩

theorem outputSample_keeps (i : Nat) (s : State) : KeepsOutsideFill s (outputSample i s) := by
  have h := audioTick_keeps s
  refine h.trans' ⟨rfl, rfl, rfl, rfl, rfl, rfl⟩

theorem fillFrom_keeps : ∀ (n i : Nat) (s : State), KeepsOutsideFill s (fillFrom n i s)
  | 0, _, _ => ⟨rfl, rfl, rfl, rfl, rfl, rfl⟩
  | n + 1, i, s => (outputSample_keeps i s).trans' (fillFrom_keeps n (i + 1) (outputSample i s))

/-- FILL of `m + n` samples is `m` samples and then `n` more. -/
theorem fillFrom_add (m n : Nat) : ∀ (i : Nat) (s : State),
    fillFrom (m + n) i s = fillFrom n (i + m) (fillFrom m i s) := by
  induction m with
  | zero => intro i s; rw [Nat.zero_add, Nat.add_zero, fillFrom]
  | succ m ih => intro i s; rw [Nat.succ_add, fillFrom, fillFrom, ih, Nat.add_assoc, Nat.add_comm 1 m]

/-- A property every output sample keeps, FILL keeps. -/
theorem fillFrom_induction {P : State → Prop} (h : ∀ i s, P s → P (outputSample i s)) :
    ∀ (n i : Nat) (s : State), P s → P (fillFrom n i s)
  | 0, _, _, hs => hs
  | n + 1, i, s, hs => fillFrom_induction h n (i + 1) (outputSample i s) (h i s hs)

/-! ### The frame bits -/

/-- The format A frame's bits (R130). -/
theorem frameValueA_bits (d : Byte) :
    (frameValueA d).getLsbD 9 = false ∧ (frameValueA d).getLsbD 0 = true ∧
      ∀ i < 8, (frameValueA d).getLsbD (i + 1) = d.getLsbD i := by
  refine ⟨?_, ?_, ?_⟩
  · simp [frameValueA]
  · simp [frameValueA]
  · intro i hi
    interval_cases i <;> simp [frameValueA]

/-- The format B frame's bits (R131). -/
theorem frameValueB_bits (d : Byte) (p : Bool) :
    (frameValueB d p).getLsbD 9 = false ∧ (frameValueB d p).getLsbD 0 = p ∧
      ∀ i < 8, (frameValueB d p).getLsbD (i + 1) = d.getLsbD i := by
  refine ⟨?_, ?_, ?_⟩
  · cases p <;> simp [frameValueB]
  · cases p <;> simp [frameValueB]
  · intro i hi
    cases p <;> interval_cases i <;> simp [frameValueB]

/-- The bit of the format A frame that a bit position names (R130, R235). -/
theorem frameValueA_named (d : Byte) {p : Nat} (h : p ≤ 9) : (frameValueA d).getLsbD (9 - p) = frameBitAt d true p := by
  obtain ⟨h9, h0, hb⟩ := frameValueA_bits d
  unfold frameBitAt
  split
  · subst p; exact h9
  · split
    · subst p; exact h0
    · have := hb (8 - p) (by omega)
      rwa [show 8 - p + 1 = 9 - p by omega] at this

/-- The bit of the format B frame that a bit position names (R131, R235). -/
theorem frameValueB_named (d : Byte) (b : Bool) {p : Nat} (h : p ≤ 9) :
    (frameValueB d b).getLsbD (9 - p) = frameBitAt d b p := by
  obtain ⟨h9, h0, hb⟩ := frameValueB_bits d b
  unfold frameBitAt
  split
  · subst p; exact h9
  · split
    · subst p; exact h0
    · have := hb (8 - p) (by omega)
      rwa [show 8 - p + 1 = 9 - p by omega] at this

/-- The bit of the framed value that `bit_position` names (R235). -/
theorem framedValue_named {s : State} (h : s.cur.bitPosition ≤ 9) :
    (framedValue s).getLsbD (9 - s.cur.bitPosition) =
      frameBitAt s.cur.currentByte (lastFrameBit s s.cur.nextByte) s.cur.bitPosition := by
  unfold framedValue lastFrameBit
  split
  · exact frameValueA_named _ h
  · exact frameValueB_named _ _ h

end Sys2Proof.Machine
end

