-- ==== Sys2Proof/Laws/PerInstr.lean ====
section
/-! SUPPORT. Statements about every instruction as syntax, one lemma per constructor. -/

namespace Sys2Proof.Laws.EncodedLength

open Sys2Proof.Machine

/-- The encoded object of a well-formed instruction has the length its table gives it (R120, R130, R136): a transaction
as many bytes as its own first bytes announce, a body 534 or 5, a frame ten bits of which the first is 0; and every
transaction has an encoding (R142). -/
def Statement (i : Instr) : Prop :=
  i.wellFormed = true →
    match encode i with
    | .transaction bs => bs ≠ [] ∧ bs.length = transactionLength bs
    | .body bs => bs.length = maxMsg ∨ bs.length = statusLen
    | .frame _ v => v.getLsbD 9 = false
    | .unencoded => isTransaction i = false

theorem msgConfigure (c : ConfigMsg) : Statement (.msgConfigure c) := fun h => .inl (encConfig_length h)
theorem msgStatus (n : Word) : Statement (.msgStatus n) := fun _ => .inr (encStatus_length n)
theorem frameA (d : Byte) : Statement (.frameA d) := fun _ => (frameValueA_bits d).1
theorem frameB (d : Byte) (p : Bool) : Statement (.frameB d p) := fun _ => (frameValueB_bits d p).1
theorem reset : Statement .reset := fun _ => ⟨by simp, rfl⟩
theorem fill (n : Word) : Statement (.fill n) := fun _ => ⟨by simp, rfl⟩
theorem ctlService : Statement .ctlService := fun _ => ⟨by simp, rfl⟩

theorem push (q : QueueId) (m : Msg) : Statement (.push q m) := fun h => by
  have hl : (encMsg m).length < 256 ^ 2 := by
    rcases encMsg_length (m := m) h with h | h <;> rw [h] <;> decide
  have hf : leField (encPush q m) 2 2 = (encMsg m).length := by
    have := leField_append [0x03#8, encQueue q] (leBytes 2 (encMsg m).length) (encMsg m) (o := 2) (n := 2) rfl (by simp)
    rw [leValue_leBytes, Nat.mod_eq_of_lt hl] at this
    exact this
  refine ⟨by simp [encPush], ?_⟩
  have ht : transactionLength (encPush q m) = 4 + leField (encPush q m) 2 2 := rfl
  rw [ht, hf]
  simp [encPush]
  omega

theorem pop (q : QueueId) : Statement (.pop q) := fun _ => ⟨by simp, rfl⟩
theorem doorbellTake (q : QueueId) : Statement (.doorbellTake q) := fun _ => ⟨by simp, rfl⟩
theorem audioTick : Statement .audioTick := fun _ => rfl
theorem bitPeriod : Statement .bitPeriod := fun _ => rfl
theorem windowCheck : Statement .windowCheck := fun _ => rfl
theorem restart : Statement .restart := fun _ => rfl
theorem finish : Statement .finish := fun _ => rfl
theorem frameBit : Statement .frameBit := fun _ => rfl
theorem bitAdvance : Statement .bitAdvance := fun _ => rfl
theorem toneStep : Statement .toneStep := fun _ => rfl
theorem toneRead : Statement .toneRead := fun _ => rfl
theorem fmStep (ts : Byte) : Statement (.fmStep ts) := fun _ => rfl
theorem iqRead : Statement .iqRead := fun _ => rfl
theorem statusPush (n : Word) : Statement (.statusPush n) := fun _ => rfl
theorem applyConfiguration (c : ConfigMsg) : Statement (.applyConfiguration c) := fun _ => rfl

end Sys2Proof.Laws.EncodedLength
end

