-- ==== Sys2Proof/Laws/Step.lean ====
section
/-! SUPPORT. Everything the fetch can bring, said once (60_exceptions.md R343, R349), the sine table's index, and that the
default parameters are legal. -/

namespace Sys2Proof.Machine

/-- What the next turn can bring. -/
theorem fetch_cases (s : State) :
    (s.faultMark ≠ none ∧ fetch s = .halted) ∨
      (s.faultMark = none ∧ fetch s = .settled s) ∨
      (∃ q turns, s.faultMark = none ∧
        fetch s = .settled (setDoorbell q true { s with io := { s.io with turns := turns } })) ∨
      (∃ bytes turns, s.faultMark = none ∧
        fetch s = .settled (supplyBuffer bytes { s with io := { s.io with turns := turns } })) ∨
      (∃ a rest turns r, s.faultMark = none ∧ fetch s = .settled ((s.issue a rest turns).refuse r)) ∨
      (∃ a rest turns, s.faultMark = none ∧ fetch s = .settled (s.issue a rest turns)) ∨
      ∃ a rest turns i, decodeTransaction (portOf s.io.ports a) = .ok i rest ∧ (s.faultMark = none ∨ i = .reset) ∧
        fetch s = .issued i (s.issue a rest turns) := by
  unfold fetch unlessHalted
  cases s.faultMark with
  | none =>
    split
    · exact .inr (.inl ⟨rfl, rfl⟩)
    · exact .inr (.inr (.inl ⟨_, _, rfl, rfl⟩))
    · exact .inr (.inr (.inr (.inl ⟨_, _, rfl, rfl⟩)))
    · split
      · exact .inr (.inr (.inr (.inr (.inr (.inr ⟨_, _, _, _, ‹_›, .inl rfl, by split <;> rfl⟩)))))
      · exact .inr (.inr (.inr (.inr (.inl ⟨_, _, _, _, rfl, rfl⟩))))
      · exact .inr (.inr (.inr (.inr (.inr (.inl ⟨_, _, _, rfl, rfl⟩)))))
  | some f =>
    have hf : some f ≠ (none : Option Fault) := by simp
    split
    · exact .inl ⟨hf, rfl⟩
    · exact .inl ⟨hf, rfl⟩
    · exact .inl ⟨hf, rfl⟩
    · split
      · split
        · exact .inr (.inr (.inr (.inr (.inr (.inr ⟨_, _, _, _, ‹_›, .inr ‹_›, rfl⟩)))))
        · exact .inl ⟨hf, rfl⟩
      · exact .inl ⟨hf, rfl⟩
      · exact .inl ⟨hf, rfl⟩

/-- FILL of a configured block, issued by RT (R310). -/
theorem exec_fill (n : Word) {s : State} (hi : s.io.issuer = .rt) (hc : s.tx.configured = true) :
    exec (.fill n) s = .next ((returnBuffer n (fillFrom n.toNat 0 s)).respond .filled) := by
  show Host.Outcome.next (s.asAgent _ _) = _
  rw [asAgent_of_issuer s hi, if_pos hc]

/-- Bits 25 to 18 of an accumulator, as a quotient (R211). -/
theorem tableIndex_eq (a : Word) : tableIndex a = a.toNat / 2 ^ 18 % 256 := by
  rw [tableIndex, Nat.shiftRight_eq_div_pow, show 2 ^ idxLsb = 2 ^ 18 from rfl, show 2 ^ idxBits = 256 from rfl]

/-- An index within a legal table reads the entry (R44). -/
theorem tableEntry_eq {s : State} (h : s.params.legal) {k : Nat} (hk : k < 256) :
    s.params.sineTable[k]? = some (tableEntry s k) := by
  have hl : k < s.params.sineTable.length := by rw [h.1]; exact hk
  simp [tableEntry, hl]

/-- The parameters of the reset state are legal (R9). -/
theorem default_legal : Params.default.legal := ⟨by decide +kernel, by decide⟩

end Sys2Proof.Machine
end

