-- ==== Sys2Proof/Tests/Slice0.lean ====
section
/-! SUPPORT. Tests with the expected values of 95_test_vectors.md (the vector's name stands beside each), and for every
obligation with hypotheses a witness that meets them. -/

namespace Sys2Proof.Tests

-- One thread: the kernel's evaluations below would otherwise wait in a thread each.
set_option Elab.async false

open Sys2Proof Sys2Proof.Machine

/-! ### Helpers -/

/-- The next state of an outcome; the reset state where there is none. -/
def nextOf : Host.Outcome State Fault Refusal → State
  | .next t => t
  | .fault _ => State.reset
  | .refused _ => State.reset

/-- Every instruction answers a next state. -/
theorem exec_next (i : Instr) (s : State) : exec i s = .next (nextOf (exec i s)) := by
  cases i <;> rfl

/-- With no fault mark a step answers a next state. -/
theorem step_next {s : State} (h : s.faultMark = none) : step s = .next (nextOf (step s)) := by
  unfold step
  rcases fetch_cases s with ⟨h', _⟩ | ⟨_, e⟩ | ⟨_, _, _, e⟩ | ⟨_, _, _, e⟩ | ⟨_, _, _, _, _, e⟩ |
    ⟨_, _, _, _, e⟩ | ⟨_, _, _, i, _, _, e⟩
  · exact absurd h h'
  all_goals rw [e]
  · rfl
  · rfl
  · rfl
  · rfl
  · rfl
  · show keepWaiting s (exec i _) = .next (nextOf (keepWaiting s (exec i _)))
    rw [exec_next i, keepWaiting]
    split <;> rfl

/-- A payload of 512 bytes. -/
def padded (bs : List Byte) : List Byte := bs ++ List.replicate (512 - bs.length) 0

/-- A configuration with the increments and the scale of program P1. -/
def config (payload : List Byte) (samplesPerBit repeats : Word) (alt : Byte) : ConfigMsg where
  payload := padded payload
  samplesPerBit := samplesPerBit
  phaseIncMark := 0x400000
  phaseIncSpace := 0x200000
  repeats := repeats
  bandwidthScale := 0x4000
  alternateFormat := alt != 0

/-- P1's ConfigureMessage body, written out from R124 (E-3). -/
def bodyP1 : List Byte :=
  0x01 :: padded [0x41] ++ [0x01, 0x00, 0x00, 0x00] ++ [0x00, 0x00, 0x40, 0x00] ++ [0x00, 0x00, 0x20, 0x00] ++
    [0x02, 0x00, 0x00, 0x00] ++ [0x00, 0x40, 0x00, 0x00] ++ [0x01]

/-- The state after a configuration, RT about to issue. -/
def configured (c : ConfigMsg) : State := (applyConfiguration c State.reset).issuedBy .rt

/-- A cursor at a bit and byte position. -/
def atPosition (s : State) (bit : Nat) (byte : Word) : State :=
  { s with cur := { s.cur with bitPosition := bit, bytePosition := byte } }

/-- OUT of 2^j bytes with the given counters and ring. -/
def outQueue (j : Nat) (ring : Memory) (wr rd : Word) (db : Bool) : State :=
  { State.reset with
    params := { Params.default with kOutLog2 := j }
    qOut := { ring := ring, wr := wr, rd := rd, lock := .free, dbPending := db } }

/-- OUT of 16 bytes that holds Status(1) (Q-1). -/
def oneReport : State := outQueue 4 [(0, 5), (2, 2), (3, 1)] 7 0 true

/-- IN that holds one ConfigureMessage, pushed by HOST, CTL about to issue (C-1). -/
def oneConfiguration (c : ConfigMsg) : State :=
  (nextOf (exec (.push .inbound (.configure c)) (State.reset.issuedBy .host))).issuedBy .ctl

/-- IN that holds Status(7), CTL about to issue (C-2). -/
def oneStatus : State :=
  (nextOf (exec (.push .inbound (.status 7)) (State.reset.issuedBy .host))).issuedBy .ctl

/-- The state with bytes at an agent's port and that port's turn. -/
def atPort (s : State) (a : Agent) (bs : List Byte) : State :=
  { s with io := { s.io with ports := withPort s.io.ports a bs, turns := [.port a] } }

/-! ### Well-formedness -/

theorem test_short_payload_is_refused :
    let c : ConfigMsg := { config [0x41] 1 1 1 with payload := [0x41] }
    c.wellFormed = false ∧ (Msg.configure c).wellFormed = false ∧ (Instr.msgConfigure c).wellFormed = false ∧
      (Instr.push .inbound (.configure c)).wellFormed = false ∧ (Instr.applyConfiguration c).wellFormed = false := by
  decide +kernel

theorem test_long_payload_is_refused :
    (Instr.msgConfigure { config [] 1 1 1 with payload := List.replicate 513 0 }).wellFormed = false := by decide +kernel

theorem test_full_payload_is_accepted :
    (Instr.push .inbound (.configure (config [0x41] 1 1 1))).wellFormed = true := by decide +kernel

/-! ### Decoding, from the words of the spec -/

-- E-3: the body of P1's configuration.
theorem test_decode_msgConfigure : decode (.body bodyP1) = .ok (.msgConfigure (config [0x41] 1 2 1)) := by decide +kernel

-- E-2.
theorem test_decode_msgStatus : decode (.body [0x02, 0x04, 0x03, 0x02, 0x01]) = .ok (.msgStatus 0x01020304) := by decide

-- E-4, E-5: the signed field, little-endian.
theorem test_decode_bandwidthScale : (wordField (List.replicate 529 0 ++ [0x00, 0xE0, 0xFF, 0xFF, 0x01]) 529).toInt = -8192 ∧
    (wordField (List.replicate 529 0 ++ [0x00, 0x00, 0x00, 0x80, 0x01]) 529).toInt = -0x80000000 := by decide +kernel

-- E-7, E-9: the ten bits `0 dddddddd 1`.
theorem test_decode_frameA : decode (.frame true 0b0010000011) = .ok (.frameA 0x41) ∧
    decode (.frame true 0b0000000001) = .ok (.frameA 0x00) := by decide

-- E-8, E-10: the ten bits `0 dddddddd p`.
theorem test_decode_frameB : decode (.frame false 0b0010000010) = .ok (.frameB 0x41 false) ∧
    decode (.frame false 0b0111111110) = .ok (.frameB 0xFF false) := by decide

-- R130: a set start bit, or a clear stop bit in format A, is no frame.
theorem test_decode_bad_frame : decode (.frame true 0b1010000011) = .error .badFrame ∧
    decode (.frame true 0b0010000010) = .error .badFrame ∧ decode (.frame false 0b1010000010) = .error .badFrame := by
  decide

-- E-17.
theorem test_decode_reset : decode (.transaction [0x00]) = .ok .reset := by decide
theorem test_decode_ctlService : decode (.transaction [0x02]) = .ok .ctlService := by decide

-- E-11, E-12.
theorem test_decode_fill : decode (.transaction [0x01, 0x18, 0x00, 0x00, 0x00]) = .ok (.fill 24) ∧
    decode (.transaction [0x01, 0x01, 0x14, 0x00, 0x00]) = .ok (.fill 5121) := by decide

-- E-13, E-14.
theorem test_decode_push_configure : decode (.transaction ([0x03, 0x00, 0x16, 0x02] ++ bodyP1)) =
    .ok (.push .inbound (.configure (config [0x41] 1 2 1))) := by decide +kernel
theorem test_decode_push_status : decode (.transaction [0x03, 0x01, 0x05, 0x00, 0x02, 0x01, 0x00, 0x00, 0x00]) =
    .ok (.push .outbound (.status 1)) := by decide

-- E-15, E-16.
theorem test_decode_pop : decode (.transaction [0x04, 0x01]) = .ok (.pop .outbound) ∧
    decode (.transaction [0x04, 0x00]) = .ok (.pop .inbound) := by decide
theorem test_decode_doorbellTake : decode (.transaction [0x05, 0x01]) = .ok (.doorbellTake .outbound) := by decide

-- E-18 to E-22.
theorem test_decode_illegal : decode (.transaction [0x06]) = .error .badOp ∧
    decode (.transaction [0x04, 0x02]) = .error .badQueue ∧
    decode (.transaction [0x03, 0x00, 0x05, 0x00, 0x03, 0x00, 0x00, 0x00, 0x00]) = .error .badMessage ∧
    decode (.transaction [0x03, 0x00, 0x04, 0x00, 0x02, 0x00, 0x00, 0x00]) = .error .badMessage ∧
    decode (.transaction ([0x03, 0x00, 0x16, 0x02, 0x02] ++ List.replicate 533 0)) = .error .badMessage := by
  decide +kernel

-- R142: the internal steps have no encoding.
theorem test_internal_steps_have_no_encoding : encode .toneStep = .unencoded ∧
    decode .unencoded = .error .noEncoding := by decide

/-! ### Messages and frames -/

-- C-5.
theorem test_msgConfigure : let t := nextOf (exec (.msgConfigure (config [0x41] 4 3 0)) State.reset)
    t.tx.repeatCount = 2 ∧ t.tx.alternateFormat = false ∧ t.cur.sampleCounter = 4 ∧ t.io.response = .applied := by
  decide +kernel

-- R294.
theorem test_msgStatus : let t := nextOf (exec (.msgStatus 7) State.reset)
    t.io.response = .ignored ∧ t.tx = State.reset.tx ∧ t.history = [.configIgnored .status] := by decide +kernel

-- E-7: the ten bits in the order sent.
theorem test_frameA : (List.range 10).map (fun p =>
      (nextOf (exec (.frameA 0x41) (atPosition State.reset p 0))).cur.currentBit) =
    [false, false, true, false, false, false, false, false, true, true] := by decide +kernel

-- E-10.
theorem test_frameB : (List.range 10).map (fun p =>
      (nextOf (exec (.frameB 0xFF false) (atPosition State.reset p 0))).cur.currentBit) =
    [false, true, true, true, true, true, true, true, true, false] := by decide +kernel

/-! ### Transactions -/

-- RS-1.
theorem test_reset : let t := nextOf (exec .reset (atPosition (configured (config [0x41] 1 2 1)) 5 3))
    t.tx.configured = false ∧ t.cur = EncoderCursor.reset ∧ t.io.response.code = some 0x00 := by decide +kernel

-- S-4.
theorem test_fill : let t := nextOf (exec (.fill 3) (configured (config [0x41] 1 2 1)))
    t.io.buffer = [(0, 3), (1, 127), (2, 12), (3, 126), (4, 31), (5, 123)] ∧ t.synth.carrierPhase = 0x00290000 := by
  decide +kernel

-- S-1: the buffer holds (9, 9).
theorem test_fill_idle : let s := { State.reset with io := { Edge.reset with buffer := [(0, 9), (1, 9)], issuer := .rt } }
    exec (.fill 4) s = .next (s.respond .notConfigured) ∧ (Response.code .notConfigured) = some 0x08 := by
  intro s; exact ⟨rfl, rfl⟩

-- C-1.
theorem test_ctlService : let t := nextOf (exec .ctlService (oneConfiguration (config [0x41] 1 2 1)))
    t.io.response = .applied ∧ t.tx.configured = true ∧ t.cur.sampleCounter = 1 ∧ t.qIn.wr = 536 ∧ t.qIn.rd = 536 ∧
      t.qIn.dbPending = false := by decide +kernel

-- C-3.
theorem test_ctlService_empty : let t := nextOf (exec .ctlService (setDoorbell .inbound true (State.reset.issuedBy .ctl)))
    t.io.response = .empty ∧ t.qIn.dbPending = false := by decide +kernel

-- Q-14: the record wraps, and so does the counter.
theorem test_push_wraps : let t := nextOf (exec (.push .outbound (.status 1))
      ((outQueue 4 [] 0xFFFFFFFC 0xFFFFFFFC false).issuedBy .rt))
    t.qOut.wr = 3 ∧ t.qOut.ring = [(12, 5), (14, 2), (15, 1)] ∧ t.qOut.dbPending = true := by decide +kernel

-- Q-3: used 14 of 16.
theorem test_push_full : let s := (outQueue 4 [(0, 5), (2, 2), (3, 1), (7, 5), (9, 2), (10, 2)] 14 0 false).issuedBy .rt
    nextOf (exec (.push .outbound (.status 3)) s) = s.respond .full := by decide +kernel

-- Q-4.
theorem test_pop : let t := nextOf (exec (.pop .outbound) (oneReport.issuedBy .host))
    t.io.response = .msg (.status 1) ∧ t.qOut.rd = 7 ∧ t.qOut.dbPending = true := by decide +kernel

-- X-12: header 05 00, then discriminant 01.
theorem test_pop_corrupt : let t := nextOf (exec (.pop .outbound) ((outQueue 4 [(0, 5), (2, 1)] 7 0 true).issuedBy .host))
    t.faultMark = some .queueCorrupt ∧ t.io.response.code = some 0xF0 ∧ t.qOut.rd = 0 := by decide +kernel

-- Q-12.
theorem test_doorbellTake : let t := nextOf (exec (.doorbellTake .outbound) (oneReport.issuedBy .host))
    t.io.response = .taken true ∧ t.qOut.dbPending = false ∧
      (nextOf (exec (.doorbellTake .outbound) t)).io.response = .taken false := by decide +kernel

-- X-11.
theorem test_wrong_agent : let t := nextOf (exec (.pop .inbound) (State.reset.issuedBy .host))
    t.refusalMark = some .wrongAgent ∧ t.io.response.code = some 0xE3 ∧
      (nextOf (exec (.fill 1) (State.reset.issuedBy .ctl))).io.response = .refused .wrongAgent := by decide +kernel

/-! ### Internal steps -/

-- T-1, and sample 0 of P1: the start bit, then the space increment.
theorem test_audioTick : let t := nextOf (exec .audioTick (configured (config [0x41] 1 2 1)))
    t.synth.tonePhase = 0x00200000 ∧ t.cur.bitPosition = 1 ∧ t.cur.sampleCounter = 1 := by decide +kernel

-- FE-11: reload 0, the second of two ticks between bit periods.
theorem test_audioTick_reload_zero :
    let s := configured (config [0x41] 2 1 1)
    let u := { s with params := { s.params with reloadOne := false } }
    (repeatExec .audioTick 3 u).map (fun t => (t.cur.bitPosition, t.cur.sampleCounter)) = some (1, 2) ∧
      (repeatExec .audioTick 4 u).map (fun t => (t.cur.bitPosition, t.cur.sampleCounter)) = some (2, 0) := by
  decide +kernel

-- FE-1: the first ten bits, and the byte advance.
theorem test_bitPeriod : (sendBits 10 (configured (config [0x41] 1 1 1))).map (fun r => (r.1, r.2.cur.bytePosition)) =
    some ([false, false, true, false, false, false, false, false, true, true], 1) := by decide +kernel

-- FE-13: after byte 0 the window at byte 1 is a terminator.
theorem test_bitPeriod_finish :
    let t := nextOf (exec .bitPeriod (atPosition (configured (config [0x41, 0, 0, 0x41] 1 1 1)) 0 1))
    t.tx.configured = false ∧ t.history = [.statusPushed 0] ∧ t.cur.bitPosition = 1 ∧ t.cur.currentBit = false := by
  decide +kernel

-- R238: the window at byte 511 has 0 above it; the one at 512 is a terminator.
theorem test_windowCheck :
    let s := configured (config (List.replicate 512 0xFF) 1 1 1)
    let t := nextOf (exec .windowCheck (atPosition s 0 511))
    let u := nextOf (exec .windowCheck (atPosition s 0 512))
    t.cur.currentByte = 0xFF ∧ t.cur.nextByte = 0 ∧ t.io.response = .window false ∧ u.io.response = .window true := by
  decide +kernel

-- R240's example: repeat_count 2, repeat_counter 0 at a terminator.
theorem test_restart :
    let t := nextOf (exec .restart (atPosition (configured (config [0x41] 1 3 1)) 0 1))
    t.history = [.statusPushed 1] ∧ t.cur.repeatCounter = 1 ∧ t.cur.bytePosition = 0 ∧ t.cur.currentByte = 0x41 := by
  decide +kernel

-- R241; the position stays.
theorem test_finish :
    let t := nextOf (exec .finish (atPosition (configured (config [0x41] 1 1 1)) 0 1))
    t.history = [.statusPushed 0] ∧ t.tx.configured = false ∧ t.cur.bytePosition = 1 ∧ t.qOut.wr = 7 := by
  decide +kernel

-- R235: bit 7 of 0x083 is the third bit.
theorem test_frameBit :
    let s := configured (config [0x41] 1 1 1)
    (nextOf (exec .frameBit { s with cur := { s.cur with bitPosition := 2, currentByte := 0x41 } })).cur.currentBit =
      true := by decide +kernel

-- R239: format B moves by two.
theorem test_bitAdvance :
    let t := nextOf (exec .bitAdvance (atPosition (configured (config [0x41] 1 1 0)) 9 0))
    t.cur.bitPosition = 0 ∧ t.cur.bytePosition = 2 := by decide +kernel

/-- A Synth with a tone phase, an increment for the given bit. -/
def toneState (phase : Word) (bit : Bool) (inc : Word) : State :=
  { State.reset with
    synth := { Synth.reset with tonePhase := phase }
    cur := { EncoderCursor.reset with currentBit := bit }
    tx := { TransmissionState.reset with
      phaseIncMark := if bit then inc else 0x11111111
      phaseIncSpace := if bit then 0x11111111 else inc } }

-- T-2, T-4.
theorem test_toneStep : (nextOf (exec .toneStep (toneState 0xFFFC0000 true 0x00040000))).synth.tonePhase = 0 ∧
    (nextOf (exec .toneStep (toneState 0x00FC0000 false 0x00040000))).synth.tonePhase = 0x01000000 := by decide +kernel

-- The index vectors 0x12345678 and 0x03FC0000.
theorem test_toneRead :
    (nextOf (exec .toneRead (toneState 0x12345678 true 0))).io.response = .toneSample (BitVec.ofInt 8 (-40)) ∧
    (nextOf (exec .toneRead (toneState 0x03FC0000 true 0))).io.response = .toneSample (BitVec.ofInt 8 (-3)) := by
  decide +kernel

/-- A Synth with a carrier phase, and a scale. -/
def carrierState (phase scale : Word) : State :=
  { State.reset with
    synth := { Synth.reset with carrierPhase := phase }
    tx := { TransmissionState.reset with bandwidthScale := scale } }

-- F-2, F-3, F-5, F-8.
theorem test_fmStep :
    (nextOf (exec (.fmStep 127) (carrierState 0 0x7FFFFFFF))).synth.carrierPhase = 0x7FFFFF81 ∧
    (nextOf (exec (.fmStep 129) (carrierState 0 1))).synth.carrierPhase = 0xFFFFFF81 ∧
    (nextOf (exec (.fmStep 100) (carrierState 0 0x80000000))).synth.carrierPhase = 0 ∧
    (nextOf (exec (.fmStep 128) (carrierState 0 0x7FFFFFFF))).synth.carrierPhase = 0x80 := by decide +kernel

-- F-6, and P1's sample 5.
theorem test_iqRead :
    (nextOf (exec .iqRead (carrierState 0x12345678 0))).io.response =
      .iqPair (BitVec.ofInt 8 (-40)) (BitVec.ofInt 8 (-121)) ∧
    (nextOf (exec .iqRead (carrierState 0x00800000 0))).io.response = .iqPair 90 90 := by decide +kernel

-- Q-1.
theorem test_statusPush : let t := nextOf (exec (.statusPush 1) (outQueue 4 [] 0 0 false))
    t.qOut.ring = [(0, 5), (2, 2), (3, 1)] ∧ t.qOut.wr = 7 ∧ t.qOut.dbPending = true := by decide +kernel

-- Q-16: 1 byte free of 8.
theorem test_statusPush_full : let s := outQueue 3 [(0, 5), (2, 2), (3, 1)] 7 0 true
    nextOf (exec (.statusPush 0) s) = { s with history := [.statusDropped 0 .full] } := by decide +kernel

-- C-4.
theorem test_applyConfiguration :
    ([0, 1, 2, 5, 0xFFFFFFFF] : List Word).map (fun r =>
      (nextOf (exec (.applyConfiguration (config [] 1 r 0)) State.reset)).tx.repeatCount) =
    [0, 0, 1, 4, 0xFFFFFFFE] := by decide +kernel

-- C-6.
theorem test_applyConfiguration_keeps_phase :
    (nextOf (exec (.applyConfiguration (config [] 2 1 0)) (carrierState 0x0060C000 0))).synth.carrierPhase = 0x0060C000 := by
  decide +kernel

/-! ### The step -/

-- FILL from the table's row, on a state nobody configured (X-6).
theorem test_step_fetches : (nextOf (step (State.reset.withFetchWord 40 0x0000000401))).io.response = .notConfigured ∧
    decodeTableWord 40 0x0000000401 = some (.fill 4) ∧ decodeTableWord 10 0x083 = some (.frameA 0x41) := by decide +kernel

-- X-8, X-9: refused, and nothing but the marks and the port changes.
theorem test_step_refuses :
    (nextOf (step (atPort State.reset .host [0x06, 0x02]))).io.response.code = some 0xE0 ∧
    (nextOf (step (atPort State.reset .host [0x04, 0x02]))).refusalMark = some .badQueue ∧
    (nextOf (step (atPort State.reset .host [0x06, 0x02]))).io.ports.host = [0x02] := by decide +kernel

/-! ### Witnesses: states and operands that meet each statement's hypotheses -/

/-- A configured state, RT about to issue. -/
def running : State := configured (config [0x41] 1 2 1)

/-- The block's invariant of a state whose parts can be evaluated. -/
theorem blockInv_of {s : State} (hl : s.params.legal)
    (hc : s.cur.bitPosition ≤ 9 ∧ s.cur.repeatCounter.toNat ≤ s.tx.repeatCount.toNat ∧
      s.cur.bytePosition.toNat ≤ payloadSize ∧ s.cur.bytePosition.toNat % 2 = 0 ∧
      s.cur.sampleCounter.toNat ≤ max s.tx.samplesPerBit.toNat (reloadValue s).toNat ∧
      s.synth.divCounter < s.params.audioDiv)
    (hm : s.tx.payload.wf = true ∧ s.tx.payload.below payloadSize = true ∧ s.io.buffer.wf = true ∧
      ∀ b ∈ s.io.filled, b.bytes.wf = true)
    (hq : ∀ q ∈ [s.qIn, s.qOut], q.lock = .free ∧ q.ring.wf = true)
    (hk : s.qIn.ring.below (ringCapacity s.params .inbound) = true ∧
      s.qOut.ring.below (ringCapacity s.params .outbound) = true) : BlockInv s :=
  ⟨hl, ⟨hc.1, hc.2.1, fun _ => hc.2.2.1, fun _ _ => hc.2.2.2.1, hc.2.2.2.2.1, hc.2.2.2.2.2⟩, hm.1, hm.2.1, hm.2.2.1,
    hm.2.2.2,     ⟨(hq _ (by simp)).1, (hq _ (by simp)).2, hk.1⟩,
    ⟨(hq _ (by simp)).1, (hq _ (by simp)).2, hk.2⟩⟩

theorem oneReport_legal : oneReport.params.legal := ⟨default_legal.1, by decide⟩

theorem oneReport_contents (a : Agent) : Contents (oneReport.issuedBy a) .outbound [.status 1] := by
  cases a <;> exact ⟨by decide +kernel, by decide +kernel, by decide +kernel⟩

theorem oneReport_blockInv (a : Agent) : BlockInv (oneReport.issuedBy a) := by
  refine blockInv_of oneReport_legal ?_ ?_ ?_ ?_ <;> cases a <;> decide +kernel

theorem witness_ResetForgetsEverything :
    running.params = (State.reset.issuedBy .rt).params ∧ running.io = (State.reset.issuedBy .rt).io ∧
      running ≠ State.reset.issuedBy .rt := by decide +kernel

theorem witness_ResetBlockIsIdleUntilConfigured :
    let s := oneConfiguration (config [0x41] 1 2 1)
    (∃ t, exec .reset running = .next t) ∧ isTransaction .ctlService = true ∧ s.tx.configured = false ∧
      ∃ t, exec .ctlService s = .next t ∧ t.tx.configured = true := by
  exact ⟨⟨_, exec_next _ _⟩, rfl, by decide +kernel, _, exec_next _ _, by decide +kernel⟩

theorem witness_FillWhileIdleDoesNothing :
    (State.reset.issuedBy .rt).io.issuer = .rt ∧ (State.reset.issuedBy .rt).tx.configured = false := by decide +kernel

/-- For FillOfNoSamplesWritesNothing, FillCompletesAndKeepsTheRest, FillWritesEachElementOnce and
FillOneSampleFollowsTheOrder, its sample the first and the last a FILL can have. -/
theorem witness_running : running.io.issuer = .rt ∧ running.tx.configured = true ∧ running.params.legal ∧
    running.io.buffer.wf = true ∧ 0 + 1 < 2 ^ 32 ∧ (2 ^ 32 - 2) + 1 < 2 ^ 32 :=
  ⟨rfl, rfl, default_legal, rfl, by decide, by decide⟩

theorem witness_FillRunsOnAcrossBuffers : running.io.issuer = .rt ∧ (1 : Word).toNat + (2 : Word).toNat < 2 ^ 32 ∧
    running.tx.configured = true ∧ ∃ t, exec (.fill 1) running = .next t ∧ t.tx.configured = true :=
  ⟨rfl, by decide, rfl, _, exec_next _ _, by decide +kernel⟩

theorem witness_FillOnlyAppendsReports : (oneReport.issuedBy .rt).io.issuer = .rt ∧ BlockInv (oneReport.issuedBy .rt) ∧
    Contents (oneReport.issuedBy .rt) .outbound [.status 1] := ⟨rfl, oneReport_blockInv _, oneReport_contents _⟩

/-- Off the tick; on it with the gate closed by one; on it with the gate just open. -/
theorem witness_AudioTickRunsTheGateThenTheTone :
    ({ State.reset with synth := { Synth.reset with divCounter := 1 } } : State).synth.divCounter ≠ 0 ∧
    (let s := configured (config [0x41] 4 1 1)
     let t := { s with cur := { s.cur with sampleCounter := 3 } }
     t.synth.divCounter = 0 ∧ t.cur.sampleCounter.toNat < t.tx.samplesPerBit.toNat ∧
       s.synth.divCounter = 0 ∧ s.tx.samplesPerBit.toNat ≤ s.cur.sampleCounter.toNat) := by decide +kernel

/-- At both ends of the bit positions, and at the last byte of the payload. -/
theorem witness_BitPeriodSendsAWindowBit :
    ∀ p ∈ [0, 9], let s := atPosition (configured (config (List.replicate 512 0xFF) 1 1 1)) p 511
      s.tx.configured = true ∧ s.cur.bitPosition ≤ 9 ∧
      ¬(payloadByte s s.cur.bytePosition.toNat = 0 ∧ payloadByte s (s.cur.bytePosition.toNat + 1) = 0) := by
  decide +kernel

theorem witness_BitPeriodAfterFinishKeepsTheBytes :
    ∀ p ∈ [0, 9], (atPosition State.reset p 1).tx.configured = false ∧ (atPosition State.reset p 1).cur.bitPosition ≤ 9 := by
  decide +kernel

/-- A terminator at byte 1 with one repeat left. -/
theorem witness_BitPeriodRestartsAtATerminator :
    let s := atPosition running 0 1
    s.tx.configured = true ∧ payloadByte s s.cur.bytePosition.toNat = 0 ∧
      payloadByte s (s.cur.bytePosition.toNat + 1) = 0 ∧ s.cur.repeatCounter.toNat < s.tx.repeatCount.toNat := by
  decide +kernel

/-- The implicit terminator at byte 512, no repeat left, at both ends of the bit positions. -/
theorem witness_BitPeriodFinishesAtATerminator :
    ∀ p ∈ [0, 9], let s := atPosition (configured (config (List.replicate 512 0xFF) 1 1 1)) p 512
      s.tx.configured = true ∧ s.cur.bitPosition ≤ 9 ∧ payloadByte s s.cur.bytePosition.toNat = 0 ∧
      payloadByte s (s.cur.bytePosition.toNat + 1) = 0 ∧ s.tx.repeatCount.toNat ≤ s.cur.repeatCounter.toNat := by
  decide +kernel

/-- Formats A and B. -/
theorem witness_TenBitPeriodsSendOneFrame :
    ∀ alt ∈ ([0, 1] : List Byte), let s := configured (config [0x41] 1 1 alt)
      s.tx.configured = true ∧ s.cur.bitPosition = 0 ∧
      ¬(payloadByte s s.cur.bytePosition.toNat = 0 ∧ payloadByte s (s.cur.bytePosition.toNat + 1) = 0) := by
  decide +kernel

/-- Format A, repeats left after one frame. -/
theorem witness_TransmissionSendsThePayload_formatA :
    let s := configured (config [0x41] 1 2 1)
    s.tx.configured = true ∧ s.cur.bitPosition = 0 ∧ s.cur.bytePosition = 0 ∧ 1 = (if formatA s then 1 else 2) ∧
      (∀ i < 1, ¬(payloadByte s (1 * i) = 0 ∧ payloadByte s (1 * i + 1) = 0)) ∧
      payloadByte s (1 * 1) = 0 ∧ payloadByte s (1 * 1 + 1) = 0 ∧
      s.cur.repeatCounter.toNat < s.tx.repeatCount.toNat := by decide +kernel

/-- One frame in format B, then a terminator, with a repeat left and with none. -/
theorem witness_TransmissionSendsThePayload :
    let s := configured (config [0x41] 1 2 0)
    let u := configured (config [0x41] 1 1 0)
    (∀ v, v = s ∨ v = u → v.tx.configured = true ∧ v.cur.bitPosition = 0 ∧ v.cur.bytePosition = 0 ∧
      2 = (if formatA v then 1 else 2) ∧
      (∀ i < 1, ¬(payloadByte v (2 * i) = 0 ∧ payloadByte v (2 * i + 1) = 0)) ∧
      payloadByte v (2 * 1) = 0 ∧ payloadByte v (2 * 1 + 1) = 0) ∧
    s.cur.repeatCounter.toNat < s.tx.repeatCount.toNat ∧ u.tx.repeatCount.toNat ≤ u.cur.repeatCounter.toNat := by
  have h : ∀ v ∈ [configured (config [0x41] 1 2 0), configured (config [0x41] 1 1 0)],
      v.tx.configured = true ∧ v.cur.bitPosition = 0 ∧ v.cur.bytePosition = 0 ∧ formatA v = false ∧
      ¬(payloadByte v (2 * 0) = 0 ∧ payloadByte v (2 * 0 + 1) = 0) ∧
      payloadByte v (2 * 1) = 0 ∧ payloadByte v (2 * 1 + 1) = 0 := by decide +kernel
  refine ⟨fun v hv => ?_, by decide +kernel, by decide +kernel⟩
  obtain ⟨h1, h2, h3, h4, h5, h6, h7⟩ := h v (by rcases hv with rfl | rfl <;> simp)
  refine ⟨h1, h2, h3, by rw [h4]; rfl, fun i hi => ?_, h6, h7⟩
  obtain rfl : i = 0 := by omega
  exact h5

/-- For FrameBitSendsTheNamedBit and FrameRowsSendTheNamedBit: both ends and a data bit. -/
theorem witness_FrameBitSendsTheNamedBit : ∀ p ∈ [0, 1, 8, 9], (atPosition running p 0).cur.bitPosition ≤ 9 := by
  decide +kernel

/-- Not configured; configured at bytes 511 and 512; a terminator and none. -/
theorem witness_WindowCheckLoadsBoundSafe :
    State.reset.tx.configured = false ∧ (atPosition running 0 511).tx.configured = true ∧
    (atPosition running 0 511).cur.bytePosition.toNat < 512 ∧
    512 ≤ (atPosition running 0 511).cur.bytePosition.toNat + 1 ∧
    (atPosition running 0 510).cur.bytePosition.toNat + 1 < 512 ∧
    512 ≤ (atPosition running 0 512).cur.bytePosition.toNat := by decide +kernel

theorem witness_RestartRewindsAndReports :
    running.tx.configured = true ∧ running.cur.currentByte = 0 ∧ running.cur.nextByte = 0 ∧
    running.cur.repeatCounter.toNat < running.tx.repeatCount.toNat ∧
    ¬(State.reset.tx.configured = true ∧ State.reset.cur.currentByte = 0 ∧ State.reset.cur.nextByte = 0 ∧
      State.reset.cur.repeatCounter.toNat < State.reset.tx.repeatCount.toNat) := by decide +kernel

theorem witness_FinishReportsAndDisables :
    let s := configured (config [0x41] 1 1 1)
    s.tx.configured = true ∧ s.cur.currentByte = 0 ∧ s.cur.nextByte = 0 ∧
    s.tx.repeatCount.toNat ≤ s.cur.repeatCounter.toNat ∧
    ¬(running.tx.configured = true ∧ running.cur.currentByte = 0 ∧ running.cur.nextByte = 0 ∧
      running.tx.repeatCount.toNat ≤ running.cur.repeatCounter.toNat) := by decide +kernel

/-- Reload 1 at k = 3 of 3, reload 0 at k = 4 of 3, and no samples per bit. -/
theorem witness_BitPeriodsAreEvenlySpaced :
    let s := configured (config [0x41] 3 1 1)
    let u := { s with params := { s.params with reloadOne := false } }
    let z := configured (config [0x41] 0 1 1)
    s.synth.divCounter = 0 ∧ gateOpen s = true ∧ s.params.reloadOne = true ∧ 3 ≤ s.tx.samplesPerBit.toNat ∧
      u.synth.divCounter = 0 ∧ gateOpen u = true ∧ u.params.reloadOne = false ∧ 4 ≤ u.tx.samplesPerBit.toNat + 1 ∧
      z.synth.divCounter = 0 ∧ gateOpen z = true ∧ z.tx.samplesPerBit = 0 := by decide +kernel

/-- FE-2: an empty payload with two repeats. -/
theorem witness_EmptyPayloadReportsEachRepeat :
    let s := configured (config [] 1 3 1)
    s.tx.configured = true ∧ payloadByte s 0 = 0 ∧ payloadByte s 1 = 0 ∧ s.cur.bytePosition = 0 ∧
      s.cur.bitPosition = 0 ∧ s.cur.repeatCounter = 0 ∧ s.tx.repeatCount.toNat < 2 ^ 32 - 1 ∧
      2 ≤ s.tx.repeatCount.toNat := by decide +kernel

/-- Exactly 7 bytes free, 1 byte free, and the lock held. -/
theorem witness_StatusPushQueuesOrDrops :
    let s := outQueue 4 [(0, 5), (2, 2), (3, 1)] 9 0 true
    let f := outQueue 3 [(0, 5), (2, 2), (3, 1)] 7 0 true
    let h : State := { s with qOut := { s.qOut with lock := .held .host } }
    s.params.legal ∧ f.params.legal ∧ h.params.legal ∧
      s.qOut.ring.wf = true ∧ s.qOut.lock = .free ∧ 7 = ringCapacity s.params .outbound - s.qOut.used ∧
      f.qOut.ring.wf = true ∧ f.qOut.lock = .free ∧ ringCapacity f.params .outbound - f.qOut.used < 7 ∧
      h.qOut.ring.wf = true ∧ h.qOut.lock ≠ .free := by
  refine ⟨⟨default_legal.1, by decide⟩, ⟨default_legal.1, by decide⟩, ⟨default_legal.1, by decide⟩, ?_⟩
  decide +kernel

/-- Q-2 (9 bytes free for 7), Q-3 (2 bytes free), and the lock held. -/
theorem witness_PushCommitsOrChangesNothing :
    let s := oneReport.issuedBy .rt
    let f := (outQueue 4 [(0, 5), (2, 2), (3, 1), (7, 5), (9, 2), (10, 2)] 14 0 true).issuedBy .rt
    let h : State := { s with qOut := { s.qOut with lock := .held .host } }
    s.params.legal ∧ f.params.legal ∧ h.params.legal ∧ (Msg.status 2).wellFormed = true ∧
      (s.queue .outbound).ring.wf = true ∧ s.io.issuer = producer .outbound ∧ (s.queue .outbound).lock = .free ∧
      2 + (encMsg (.status 2)).length ≤ ringCapacity s.params .outbound - (s.queue .outbound).used ∧
      (f.queue .outbound).ring.wf = true ∧ f.io.issuer = producer .outbound ∧ (f.queue .outbound).lock = .free ∧
      ringCapacity f.params .outbound - (f.queue .outbound).used < 2 + (encMsg (.status 2)).length ∧
      (h.queue .outbound).ring.wf = true ∧ h.io.issuer = producer .outbound ∧ (h.queue .outbound).lock ≠ .free := by
  refine ⟨oneReport_legal, ⟨default_legal.1, by decide⟩, oneReport_legal, ?_⟩
  decide +kernel

theorem witness_HostPushWaitsForTheLock :
    let s := atPort { State.reset with qIn := { Queue.reset with lock := .held .ctl } } .host
      (encPush .inbound (.status 7) ++ [0x04])
    (Msg.status 7).wellFormed = true ∧ s.faultMark = none ∧ s.qIn.lock ≠ .free ∧ s.io.turns = .port .host :: [] ∧
      s.io.ports.host = encPush .inbound (.status 7) ++ [0x04] := by decide +kernel

/-- An empty queue, and one that holds Status(1). -/
theorem witness_PopReturnsTheFirstMessage :
    (State.reset.issuedBy .host).io.issuer = consumer .outbound ∧
    ((State.reset.issuedBy .host).queue .outbound).used = 0 ∧ (oneReport.issuedBy .host).io.issuer = consumer .outbound ∧
    Contents (oneReport.issuedBy .host) .outbound [.status 1] :=
  ⟨by decide +kernel, by decide +kernel, by decide +kernel, oneReport_contents _⟩

/-- The producer's clause and the consumer's. -/
theorem witness_QueueRefinesAFifo : oneReport.params.legal ∧
    (∀ a, QueueInv (ringCapacity oneReport.params .outbound) ((oneReport.issuedBy a).queue .outbound) ∧
      Contents (oneReport.issuedBy a) .outbound [.status 1]) ∧
    (oneReport.issuedBy .rt).io.issuer = producer .outbound ∧ (oneReport.issuedBy .host).io.issuer = consumer .outbound ∧
    (Msg.status 2).wellFormed = true :=
  ⟨oneReport_legal, fun a => ⟨(oneReport_blockInv a).qOut, oneReport_contents a⟩, rfl, rfl, rfl⟩

/-- X-12's ring. -/
theorem witness_PopOfAMalformedRecordSetsTheFaultMark :
    let s := (outQueue 4 [(0, 5), (2, 1)] 7 0 true).issuedBy .host
    let body := ringRead (ringCapacity s.params .outbound) (s.queue .outbound).ring ((s.queue .outbound).rd + 2)
      (leValue (ringRead (ringCapacity s.params .outbound) (s.queue .outbound).ring (s.queue .outbound).rd 2))
    s.io.issuer = consumer .outbound ∧ (s.queue .outbound).used ≠ 0 ∧ ¬(body.length = 534 ∧ body[0]? = some 1) ∧
      ¬(body.length = 5 ∧ body[0]? = some 2) := by decide +kernel

theorem witness_DoorbellTakeClearsTheBit : (State.reset.issuedBy .ctl).io.issuer = consumer .inbound ∧
    (oneReport.issuedBy .host).io.issuer = consumer .outbound := by decide +kernel

theorem witness_CtlServiceAppliesAConfiguration :
    let s := oneConfiguration (config [0x41] 1 2 1)
    s.io.issuer = .ctl ∧ Contents s .inbound (.configure (config [0x41] 1 2 1) :: []) :=
  ⟨rfl, by decide +kernel, by decide +kernel, by decide +kernel⟩

/-- Nothing in IN, Status(7) in IN, and X-12's record in IN. -/
theorem witness_CtlServiceWithoutAConfiguration :
    let c : State := { State.reset.issuedBy .ctl with qIn := { Queue.reset with ring := [(0, 5), (2, 1)], wr := 7 } }
    let body := ringRead (ringCapacity c.params .inbound) c.qIn.ring (c.qIn.rd + 2)
      (leValue (ringRead (ringCapacity c.params .inbound) c.qIn.ring c.qIn.rd 2))
    ((State.reset.issuedBy .ctl).io.issuer = .ctl ∧ (State.reset.issuedBy .ctl).qIn.used = 0) ∧
    (oneStatus.io.issuer = .ctl ∧ Contents oneStatus .inbound (.status 7 :: [])) ∧
    (c.io.issuer = .ctl ∧ c.qIn.used ≠ 0 ∧ ¬(body.length = 534 ∧ body[0]? = some 1) ∧
      ¬(body.length = 5 ∧ body[0]? = some 2)) :=
  ⟨by decide +kernel, ⟨rfl, by decide +kernel, by decide +kernel, by decide +kernel⟩, by decide +kernel⟩

/-- For ApplyConfigurationReplacesConfigAndCursor, FirstSampleCarriesTheStartBit and MessageRowsArriveAtControl. -/
theorem witness_wellFormed_configuration : (config [0x41] 1 2 1).wellFormed = true ∧ running.io.issuer = .rt ∧
    bodyP1.length = 534 ∧ bodyP1[0]? = some 1 := by
  decide +kernel

/-- For ToneReadGivesTheTableEntry and IqReadIsAQuarterApart. -/
theorem witness_legal_parameters : State.reset.params.legal := default_legal

/-- Phases and increments that differ in bits 31 to 26 only. -/
theorem witness_OnlyTheEffectivePhaseIsHeard :
    (0xFC012345 : Word).toNat % 2 ^ 26 = (0x00012345 : Word).toNat % 2 ^ 26 ∧ (0xFC012345 : Word) ≠ 0x00012345 := by
  decide

/-- The rows of 95_test_vectors.md §1.4: an increment that divides 2^26 and 2^32, and one that divides neither. -/
theorem witness_TonePhaseIsPeriodic :
    (0x00040000 = (toneIncrement (toneState 0x00123456 true 0x00040000)).toNat ∧ 0x00040000 ∣ 2 ^ 26 ∧
      0x00040000 ∣ 2 ^ 32) ∧
    0x00300000 = (toneIncrement (toneState 0x00123456 true 0x00300000)).toNat ∧ ¬ 0x00300000 ∣ 2 ^ 26 := by
  decide +kernel

/-- A refused state, and an issuer outside each role. -/
theorem witness_WrongAgentIsRefused :
    let s := State.reset.issuedBy .env
    (∃ t : State, t = { s with
      refusalMark := if s.refusalMark = none then some .wrongAgent else s.refusalMark
      io := { s.io with response := .refused .wrongAgent } }) ∧
    s.io.issuer ≠ .rt ∧ s.io.issuer ≠ .ctl ∧ s.io.issuer ≠ .host := by
  refine ⟨⟨_, rfl⟩, ?_⟩
  decide +kernel

/-- One stream for each of the four ways, at the first illegal value; the bodies are E-20's and E-21's. -/
theorem witness_IllegalTransactionsAreRefused :
    (∀ bs : List Byte, (atPort State.reset .host bs).faultMark = none ∧
      (atPort State.reset .host bs).io.turns = .port .host :: [] ∧
      portOf (atPort State.reset .host bs).io.ports .host = bs) ∧
    (∃ op rest, ([6] : List Byte) = op :: rest ∧ 6 ≤ op.toNat) ∧
    (∃ op q rest, ([4, 2] : List Byte) = op :: q :: rest ∧ (op = 4 ∨ op = 5) ∧ 2 ≤ q.toNat) ∧
    (∃ q body rest, ([3, 2, 5, 0, 2, 1, 0, 0, 0] : List Byte) = 3 :: q :: leBytes 2 body.length ++ body ++ rest ∧
      body.length < 65536 ∧ 2 ≤ q.toNat) ∧
    (∃ q body rest, ([3, 1, 4, 0, 2, 0, 0, 0] : List Byte) = 3 :: q :: leBytes 2 body.length ++ body ++ rest ∧
      body.length < 65536 ∧ q.toNat < 2 ∧ ¬(body.length = 534 ∧ body[0]? = some 1) ∧
      ¬(body.length = 5 ∧ body[0]? = some 2)) :=
  ⟨fun _ => ⟨rfl, rfl, rfl⟩, ⟨6, [], rfl, by decide⟩, ⟨4, 2, [], rfl, .inl rfl, by decide⟩,
    ⟨2, [2, 1, 0, 0, 0], [], rfl, by decide⟩, ⟨1, [2, 0, 0, 0], [], rfl, by decide⟩⟩

/-- For OutcomesAreThoseOfTheTable and OnlyTheListedTransactionsWrite: every transaction, on the reset state. -/
theorem witness_transactions :
    (∀ i ∈ [Instr.reset, .fill 4, .ctlService, .push .inbound (.status 7), .pop .outbound, .doorbellTake .outbound],
      isTransaction i = true) ∧ State.reset.qIn.lock = .free ∧ State.reset.qOut.lock = .free := by decide +kernel

theorem witness_StepRunsTheDecodedTransaction :
    let s := atPort State.reset .rt [0x01, 0x04, 0x00, 0x00, 0x00, 0x05]
    s.io.turns = .port .rt :: [] ∧ decodeTransaction (portOf s.io.ports .rt) = .ok (.fill 4) [0x05] ∧
      (s.faultMark = none ∨ Instr.fill 4 = .reset) := by decide +kernel

/-- No turn, a spurious doorbell of each queue, and a supplied buffer. -/
theorem witness_EnvironmentTurnsWriteOneField :
    State.reset.faultMark = none ∧ State.reset.io.turns = [] ∧
    (∀ q, ({ State.reset with io := { Edge.reset with turns := [.spuriousDoorbell q] } } : State).io.turns =
      .spuriousDoorbell q :: []) ∧
    ({ State.reset with io := { Edge.reset with turns := [.supplyBuffer [9, 9]] } } : State).io.turns =
      .supplyBuffer [9, 9] :: [] := ⟨rfl, rfl, fun _ => rfl, rfl⟩

/-- A faulted state with RESET at the port, and one with POP. -/
theorem witness_FaultMarkStopsAllButReset :
    let s := atPort (State.reset.fail .queueCorrupt) .env [0x00]
    let p := atPort (State.reset.fail .queueCorrupt) .host [0x04, 0x01]
    s.faultMark = some .queueCorrupt ∧ s.io.turns = .port .env :: [] ∧
      decodeTransaction (portOf s.io.ports .env) = .ok .reset [] ∧ p.faultMark = some .queueCorrupt ∧
      ∀ a turns rest, p.io.turns = .port a :: turns → decodeTransaction (portOf p.io.ports a) ≠ .ok .reset rest := by
  refine ⟨rfl, rfl, by decide +kernel, rfl, ?_⟩
  rintro a turns rest h
  cases h
  exact fun h => nomatch h

theorem witness_DecodeUndoesEncode :
    ∀ i ∈ [Instr.msgStatus 7, .frameA 0x41, .frameB 0x41 true, .reset, .fill 24, .push .outbound (.status 1)],
      i.wellFormed = true ∧ encode i ≠ .unencoded := by decide

/-- A transaction's bytes, a longer stream, and a PUSH whose `alternate_format` byte is 0x02 (E-6). -/
theorem witness_StreamDecodingIsExact : (Instr.fill 24).wellFormed = true ∧
    encode (.fill 24) = .transaction [0x01, 0x18, 0x00, 0x00, 0x00] ∧
    decodeTransaction [0x04, 0x01, 0xFF] = .ok (.pop .outbound) [0xFF] ∧
    decodeTransaction ([0x03, 0x00, 0x16, 0x02] ++ bodyP1.take 533 ++ [0x02]) =
      .ok (.push .inbound (.configure (config [0x41] 1 2 1))) [] := by decide +kernel

/-- A state that meets the invariant and takes a step: OUT holds Status(1) and HOST pops it. -/
theorem witness_StepKeepsTheBlockInvariant :
    BlockInv (atPort (oneReport.issuedBy .host) .host [0x04, 0x01]) ∧
    ∃ t, step (atPort (oneReport.issuedBy .host) .host [0x04, 0x01]) = .next t ∧ t.io.response = .msg (.status 1) := by
  refine ⟨?_, _, step_next rfl, by decide +kernel⟩
  refine blockInv_of oneReport_legal ?_ ?_ ?_ ?_ <;> decide +kernel

theorem witness_StepNeverMeetsACorruptQueue : MachineInv (atPort (oneReport.issuedBy .host) .host [0x04, 0x01]) :=
  ⟨witness_StepKeepsTheBlockInvariant.1, ⟨[], by decide +kernel, by decide +kernel, by decide +kernel⟩,
    ⟨[.status 1], by decide +kernel, by decide +kernel, by decide +kernel⟩, rfl⟩

/-- After a FILL, so that a buffer has been returned. -/
theorem witness_ResetMeetsTheInvariant :
    let s := nextOf (exec (.fill 1) running)
    s.params.legal ∧ s.io.buffer.wf = true ∧ s.io.filled.length = 1 ∧ (∀ b ∈ s.io.filled, b.bytes.wf = true) ∧
      ∃ t, exec .reset s = .next t :=
  ⟨⟨by decide +kernel, by decide +kernel⟩, by decide +kernel, by decide +kernel, by decide +kernel, _, exec_next _ _⟩

/-- X-4 of 95_test_vectors.md: the code 0x04, then the body; and X-1's code alone. -/
theorem test_outcome_bytes : (Response.msg (.status 1)).bytes = [0x04, 0x02, 0x01, 0x00, 0x00, 0x00] ∧
    Response.ok.bytes = [0x00] := by decide

/-- R311's example, over a buffer the harness has supplied: it stays as it is, and no buffer is returned. -/
theorem test_supplied_buffer_idle :
    let s := nextOf (step { State.reset with io := { Edge.reset with turns := [.supplyBuffer [9, 9]] } })
    let t := nextOf (exec (.fill 1) (s.issuedBy .rt))
    t.io.buffer = [(0, 9), (1, 9)] ∧ t.io.filled = [] := by decide +kernel

/-- P1's CONFIG (R140). -/
def scriptP1 : ScriptConfig where
  payload := [0x41]
  spb := 1
  mark := 0x400000
  space := 0x200000
  repeats := 2
  bw := 0x4000
  alt := 1

/-- The lines `host.push IN CONFIG` of programs P1 and P4, and the second of P3 (a negative `bw`), give the bytes printed
beside them (R140). -/
theorem test_script_configuration_bytes :
    (Stmt.push .host .inbound (.config scriptP1)).expand.map (fun | .once _ i => transactionBytes i | .untilEmpty _ _ _ => []) =
      [[0x03, 0x00, 0x16, 0x02] ++ bodyP1] ∧
    (ScriptConfig.paddedPayload { payload := [0xFF], times := 512 }) = List.replicate 512 0xFF ∧
    ((encMsg (ScriptMsg.config { payload := [0x55, 0x01], bw := -0x2000 }).message).drop 529).take 4 =
      [0x00, 0xE0, 0xFF, 0xFF] := by decide +kernel

/-- P1's configuration and the reset block, with IN empty and room for 536 bytes. -/
theorem witness_ConfigurationSentIsTheOneApplied :
    BlockInv State.reset ∧ State.reset.faultMark = none ∧ Contents State.reset .inbound [] ∧
      536 ≤ ringCapacity State.reset.params .inbound ∧
      (ScriptMsg.config scriptP1).message = .configure (config [0x41] 1 2 1) ∧ (config [0x41] 1 2 1).payload.length = 512 := by
  refine ⟨blockInv_of default_legal ?_ ?_ ?_ ?_, rfl, ⟨?_, ?_, ?_⟩, ?_, ?_, ?_⟩ <;> decide +kernel

/-- OUT with one report; and with none. -/
theorem witness_DrainHandsBackEveryMessageInOrder :
    ((oneReport.issuedBy .host).faultMark = none ∧ Contents (oneReport.issuedBy .host) .outbound [.status 1]) ∧
    State.reset.faultMark = none ∧ Contents State.reset .outbound [] :=
  ⟨⟨rfl, oneReport_contents .host⟩, rfl, by decide +kernel, by decide +kernel, by decide +kernel⟩

end Sys2Proof.Tests
end

/-! SUPPORT. What each transaction answers and what it leaves unchanged (10_state.md R31, R32). -/

namespace Sys2Proof.Machine

/-! ### The answer of an instruction -/

/-- The state an instruction answers; `exec_eq_resultOf` says that there always is one. -/
def resultOf (i : Instr) (s : State) : State :=
  match exec i s with
  | .next t => t
  | .fault _ => s
  | .refused _ => s

/-- No meaning stops the machine: refusals and the model fault are marks of the next state (R343, R344). -/
theorem exec_eq_resultOf (i : Instr) (s : State) : exec i s = .next (resultOf i s) := by
  cases i <;> rfl

theorem eq_resultOf_of_exec {i : Instr} {s t : State} (h : exec i s = .next t) : t = resultOf i s := by
  rw [exec_eq_resultOf] at h
  injection h with h
  exact h.symm

/-- A case split over the instructions that are transactions (R136). -/
theorem transaction_cases {motive : (i : Instr) → isTransaction i = true → Prop}
    (reset : motive .reset rfl) (fill : ∀ n, motive (.fill n) rfl) (ctlService : motive .ctlService rfl)
    (push : ∀ x m, motive (.push x m) rfl) (pop : ∀ x, motive (.pop x) rfl)
    (doorbellTake : ∀ x, motive (.doorbellTake x) rfl) (i : Instr) (h : isTransaction i = true) : motive i h := by
  cases i with
  | reset => exact reset
  | fill n => exact fill n
  | ctlService => exact ctlService
  | push x m => exact push x m
  | pop x => exact pop x
  | doorbellTake x => exact doorbellTake x
  | _ => cases h

/-- What holds of the effect and of the refusal holds of the role check (R344). -/
theorem asAgent_induction {P : State → Prop} {s t : State} {a : Agent} (effect : s.io.issuer = a → P t)
    (refused : P (s.refuse .wrongAgent)) : P (s.asAgent a t) := by
  rcases asAgent_cases s a t with ⟨hi, h⟩ | ⟨_, h⟩ <;> rw [h]
  · exact effect hi
  · exact refused

section Results
variable (s : State) (x : QueueId)

theorem resultOf_reset : resultOf .reset s = (resetBlock s).respond .ok := rfl

theorem resultOf_fill (n : Word) : resultOf (.fill n) s = s.asAgent .rt
    (if s.tx.configured then (returnBuffer n (fillFrom n.toNat 0 s)).respond .filled else s.respond .notConfigured) := rfl

theorem resultOf_ctlService : resultOf .ctlService s = s.asAgent .ctl (serviceControl s) := rfl

theorem resultOf_push (m : Msg) : resultOf (.push x m) s = s.asAgent (producer x)
    ((pushQueue x m s.io.issuer s).2.respond (pushQueue x m s.io.issuer s).1.response) := rfl

theorem resultOf_doorbellTake : resultOf (.doorbellTake x) s = s.asAgent (consumer x)
    ((setDoorbell x false s).respond (.taken (s.queue x).dbPending)) := rfl

/-- Everything a FILL can do (R310, R311). -/
theorem resultOf_fill_cases (n : Word) :
    resultOf (.fill n) s = s.refuse .wrongAgent ∨
      (s.tx.configured = false ∧ resultOf (.fill n) s = s.respond .notConfigured) ∨
      (s.tx.configured = true ∧
        resultOf (.fill n) s = (returnBuffer n (fillFrom n.toNat 0 s)).respond .filled) := by
  rw [resultOf_fill]
  refine asAgent_induction (P := fun t => t = s.refuse .wrongAgent ∨ (_ ∧ t = _) ∨ (_ ∧ t = _)) (fun _ => ?_) (.inl rfl)
  cases hc : s.tx.configured with
  | false => exact .inr (.inl ⟨rfl, rfl⟩)
  | true => exact .inr (.inr ⟨rfl, rfl⟩)

/-- Everything a POP can do (R180, R344). -/
theorem resultOf_pop_cases :
    resultOf (.pop x) s = s.refuse .wrongAgent ∨ resultOf (.pop x) s = s.respond .empty ∨
      ((s.queue x).used ≠ 0 ∧ decMsg ((s.queue x).headBody (ringCapacity s.params x)) = none ∧
        resultOf (.pop x) s = s.fail .queueCorrupt) ∨
      ∃ m, (s.queue x).used ≠ 0 ∧ decMsg ((s.queue x).headBody (ringCapacity s.params x)) = some m ∧
        resultOf (.pop x) s = (s.setQueue x { s.queue x with
          rd := (s.queue x).rd +
            BitVec.ofNat 32 (recHdr + (s.queue x).headLength (ringCapacity s.params x)) }).respond (.msg m) := by
  show s.asAgent _ _ = _ ∨ s.asAgent _ _ = _ ∨ (_ ∧ _ ∧ s.asAgent _ _ = _) ∨ ∃ m, _ ∧ _ ∧ s.asAgent _ _ = _
  rcases asAgent_cases s (consumer x) _ with ⟨_, h⟩ | ⟨_, h⟩ <;> rw [h]
  · rcases popQueue_cases x s with ⟨_, e⟩ | ⟨hu, hd, e⟩ | ⟨m, hu, hd, e⟩ <;> rw [e]
    · exact .inr (.inl rfl)
    · exact .inr (.inr (.inl ⟨hu, hd, rfl⟩))
    · exact .inr (.inr (.inr ⟨m, hu, hd, rfl⟩))
  · exact .inl rfl

/-- Everything CTL's service can do (R290): it clears IN's doorbell, and delivers the message it takes. -/
theorem serviceControl_cases :
    serviceControl s = ({ s with qIn := { s.qIn with dbPending := false } } : State).respond .empty ∨
      (s.qIn.used ≠ 0 ∧ decMsg (s.qIn.headBody (ringCapacity s.params .inbound)) = none ∧
        serviceControl s = ({ s with qIn := { s.qIn with dbPending := false } } : State).fail .queueCorrupt) ∨
      ∃ m, s.qIn.used ≠ 0 ∧ decMsg (s.qIn.headBody (ringCapacity s.params .inbound)) = some m ∧
        serviceControl s = deliver m { s with
          qIn := { s.qIn with
            dbPending := false
            rd := s.qIn.rd + BitVec.ofNat 32 (recHdr + s.qIn.headLength (ringCapacity s.params .inbound)) } } := by
  unfold serviceControl
  rcases popQueue_cases .inbound (setDoorbell .inbound false s) with ⟨_, e⟩ | ⟨hu, hd, e⟩ | ⟨m, hu, hd, e⟩ <;> rw [e]
  · exact .inl rfl
  · exact .inr (.inl ⟨hu, hd, rfl⟩)
  · exact .inr (.inr ⟨m, hu, hd, rfl⟩)

end Results

/-! ### What a transaction leaves unchanged -/

/-- What a queue transaction on `x` keeps: all of the block but queue `x`, and the buffers (R32). -/
structure KeepsOutsideQueue (x : QueueId) (s t : State) : Prop where
  params : t.params = s.params
  tx : t.tx = s.tx
  synth : t.synth = s.synth
  cur : t.cur = s.cur
  queue : ∀ y, y ≠ x → t.queue y = s.queue y
  buffer : t.io.buffer = s.io.buffer
  filled : t.io.filled = s.io.filled

theorem KeepsOutsideQueue.qIn {x : QueueId} {s t : State} (h : KeepsOutsideQueue x s t) (hx : x ≠ .inbound) :
    t.qIn = s.qIn := h.queue .inbound hx.symm

theorem KeepsOutsideQueue.qOut {x : QueueId} {s t : State} (h : KeepsOutsideQueue x s t) (hx : x ≠ .outbound) :
    t.qOut = s.qOut := h.queue .outbound hx.symm

section QueueFrames
variable (x : QueueId) (s : State)

theorem setQueue_respond_keeps (q : Queue) (r : Response) : KeepsOutsideQueue x s ((s.setQueue x q).respond r) := by
  constructor <;> simp +contextual [setQueue_queue_ne]

theorem respond_keeps (r : Response) : KeepsOutsideQueue x s (s.respond r) :=
  ⟨rfl, rfl, rfl, rfl, fun y _ => respond_queue s y r, rfl, rfl⟩

theorem refuse_keeps (w : Refusal) : KeepsOutsideQueue x s (s.refuse w) :=
  ⟨rfl, rfl, rfl, rfl, fun y _ => refuse_queue s y w, rfl, rfl⟩

theorem fail_keeps (f : Fault) : KeepsOutsideQueue x s (s.fail f) :=
  ⟨rfl, rfl, rfl, rfl, fun y _ => fail_queue s y f, rfl, rfl⟩

theorem resultOf_push_keeps (m : Msg) : KeepsOutsideQueue x s (resultOf (.push x m) s) := by
  rw [resultOf_push]
  refine asAgent_induction (fun _ => ?_) (refuse_keeps x s _)
  rcases pushQueue_cases x m s.io.issuer s with ⟨_, h⟩ | ⟨_, _, h⟩ | ⟨_, _, h⟩ <;> rw [h]
  · exact respond_keeps x s _
  · exact respond_keeps x s _
  · exact setQueue_respond_keeps x s _ _

theorem resultOf_pop_keeps : KeepsOutsideQueue x s (resultOf (.pop x) s) := by
  rcases resultOf_pop_cases s x with h | h | ⟨_, _, h⟩ | ⟨m, _, _, h⟩ <;> rw [h]
  · exact refuse_keeps x s _
  · exact respond_keeps x s _
  · exact fail_keeps x s _
  · exact setQueue_respond_keeps x s _ _

theorem resultOf_doorbellTake_keeps : KeepsOutsideQueue x s (resultOf (.doorbellTake x) s) := by
  rw [resultOf_doorbellTake]
  exact asAgent_induction (fun _ => setQueue_respond_keeps x s _ _) (refuse_keeps x s _)

end QueueFrames

/-- What the Control Interface keeps: the parameters, the accumulators, OUT and the buffers (R297, R32). -/
structure KeepsOutsideControl (s t : State) : Prop where
  params : t.params = s.params
  tonePhase : t.synth.tonePhase = s.synth.tonePhase
  carrierPhase : t.synth.carrierPhase = s.synth.carrierPhase
  qOut : t.qOut = s.qOut
  buffer : t.io.buffer = s.io.buffer
  filled : t.io.filled = s.io.filled

section TransactionFrames
variable (s : State)

theorem resultOf_ctlService_keeps : KeepsOutsideControl s (resultOf .ctlService s) := by
  rw [resultOf_ctlService]
  refine asAgent_induction (fun _ => ?_) ⟨rfl, rfl, rfl, rfl, rfl, rfl⟩
  rcases serviceControl_cases s with h | ⟨_, _, h⟩ | ⟨m, _, _, h⟩ <;> rw [h]
  · exact ⟨rfl, rfl, rfl, rfl, rfl, rfl⟩
  · exact ⟨rfl, rfl, rfl, rfl, rfl, rfl⟩
  · cases m <;> exact ⟨rfl, rfl, rfl, rfl, rfl, rfl⟩

/-- What a FILL keeps, whoever issues it (R318). -/
theorem resultOf_fill_keeps (n : Word) :
    (resultOf (.fill n) s).params = s.params ∧
      (resultOf (.fill n) s).tx = { s.tx with configured := (resultOf (.fill n) s).tx.configured } ∧
      (resultOf (.fill n) s).qIn = s.qIn ∧ (resultOf (.fill n) s).faultMark = s.faultMark := by
  have hk := fillFrom_keeps n.toNat 0 s
  rcases resultOf_fill_cases s n with h | ⟨_, h⟩ | ⟨_, h⟩ <;> rw [h]
  · exact ⟨rfl, rfl, rfl, rfl⟩
  · exact ⟨rfl, rfl, rfl, rfl⟩
  · simpa using ⟨hk.params, hk.tx, hk.qIn, hk.faultMark⟩

end TransactionFrames

/-- Settles O48: each transaction's frame, read against the table of R32. -/
theorem onlyTheListedTransactionsWrite : Obligations.OnlyTheListedTransactionsWrite := by
  intro i s hi
  refine ⟨resultOf i s, exec_eq_resultOf i s, ?_⟩
  cases i, hi using transaction_cases with
  | reset => simp [resultOf_reset, resetBlock]
  | fill n =>
    obtain ⟨hp, ht, hq, _⟩ := resultOf_fill_keeps s n
    exact ⟨hp, fun _ _ => ht, fun _ h => absurd rfl (h n), fun _ _ h => absurd rfl (h n), fun _ _ _ _ _ => hq,
      fun _ h => absurd rfl (h n), fun h => absurd rfl (h n)⟩
  | ctlService =>
    have h := resultOf_ctlService_keeps s
    exact ⟨h.params, fun _ h => absurd rfl h, fun _ _ => ⟨h.tonePhase, h.carrierPhase⟩, fun _ h => absurd rfl h,
      fun _ h => absurd rfl h, fun _ _ _ _ _ => h.qOut, fun _ => ⟨h.buffer, h.filled⟩⟩
  | push x m =>
    have h := resultOf_push_keeps x s m
    cases x <;> simp [h.params, h.tx, h.synth, h.cur, h.buffer, h.filled, h.qIn, h.qOut]
  | pop x =>
    have h := resultOf_pop_keeps x s
    cases x <;> simp [h.params, h.tx, h.synth, h.cur, h.buffer, h.filled, h.qIn, h.qOut]
  | doorbellTake x =>
    have h := resultOf_doorbellTake_keeps x s
    cases x <;> simp [h.params, h.tx, h.synth, h.cur, h.buffer, h.filled, h.qIn, h.qOut]

end Sys2Proof.Machine

/-! SUPPORT. How a queue moves under a transaction, and the two invariants its moves keep: its canonical form with a
free lock (10_state.md R54, 20_memory.md R82), and whole records within its capacity (R53, R183). -/

namespace Sys2Proof.Machine

/-! ### The moves of a queue -/

/-- The ways a transaction moves a queue of `k` bytes: a record committed where it fits (R174), the head record taken
(R180), the doorbell written (R188, R189), RESET (R381). -/
inductive QueueStep (k : Nat) (q : Queue) : Queue → Prop where
  | push (m : Msg) (wellFormed : m.wellFormed = true) (fits : (encRecord m).length ≤ k - q.used) :
    QueueStep k q (q.commit k (encRecord m))
  | pop (m : Msg) (nonempty : q.used ≠ 0) (head : decMsg (q.headBody k) = some m) :
    QueueStep k q { q with rd := q.rd + BitVec.ofNat 32 (recHdr + q.headLength k) }
  | doorbell (b : Bool) : QueueStep k q { q with dbPending := b }
  | reset : QueueStep k q Queue.reset

/-- Any number of moves: FILL pushes once a report, CTL_SERVICE clears the doorbell and pops. -/
abbrev QueueRun (k : Nat) : Queue → Queue → Prop :=
  Relation.ReflTransGen (QueueStep k)

/-- What every move keeps, every run keeps. -/
theorem queueRun_induction {k : Nat} {P : Queue → Prop} (step : ∀ q q', QueueStep k q q' → P q → P q') {q q' : Queue}
    (run : QueueRun k q q') (h : P q) : P q' := by
  induction run with
  | refl => exact h
  | tail _ last ih => exact step _ _ last ih

/-- Writing one queue is a run of every queue: its own, or none. -/
theorem queueRun_setQueue {s : State} {x : QueueId} {q : Queue}
    (h : QueueRun (ringCapacity s.params x) (s.queue x) q) (y : QueueId) :
    QueueRun (ringCapacity s.params y) (s.queue y) ((s.setQueue x q).queue y) := by
  by_cases hy : y = x
  · subst y; rw [setQueue_queue]; exact h
  · rw [setQueue_queue_ne s x q hy]

theorem pushQueue_queueRun {m : Msg} (hm : m.wellFormed = true) (x : QueueId) (a : Agent) (s : State) (y : QueueId) :
    QueueRun (ringCapacity s.params y) (s.queue y) ((pushQueue x m a s).2.queue y) := by
  rcases pushQueue_cases x m a s with ⟨_, h⟩ | ⟨_, _, h⟩ | ⟨_, hfits, h⟩ <;> rw [h]
  exact queueRun_setQueue (.single (.push m hm hfits)) y

/-! ### The moves of OUT under FILL -/

theorem pushStatus_queueRun (n : Word) (s : State) :
    QueueRun (ringCapacity s.params .outbound) s.qOut (pushStatus n s).qOut := by
  rcases pushStatus_cases n s with ⟨_, hfits, h⟩ | ⟨_, h⟩ <;> rw [h]
  · exact .single (.push (.status n) rfl hfits)
  · exact .refl

theorem checkWindow_queueRun (s : State) :
    QueueRun (ringCapacity s.params .outbound) s.qOut (checkWindow s).qOut := by
  rcases checkWindow_cases s with ⟨_, h⟩ | ⟨_, _, h⟩ | ⟨_, _, _, h⟩ | ⟨_, _, _, h⟩ <;> rw [h]
  · exact .refl
  · rw [restartPayload_eq]
    exact pushStatus_queueRun _ (loadWindow s)
  · exact pushStatus_queueRun 0 (loadWindow s)

theorem bitAdvance_qOut (s : State) : (bitAdvance s).qOut = s.qOut := by
  unfold bitAdvance
  split <;> rfl

theorem encoderTick_queueRun (s : State) :
    QueueRun (ringCapacity s.params .outbound) s.qOut (encoderTick s).qOut := by
  unfold encoderTick
  split
  · show QueueRun _ _ (bitAdvance (frameBit (checkWindow s))).qOut
    rw [bitAdvance_qOut]
    exact checkWindow_queueRun s
  · exact .refl

theorem outputSample_queueRun (i : Nat) (s : State) :
    QueueRun (ringCapacity s.params .outbound) s.qOut (outputSample i s).qOut := by
  show QueueRun _ _ (audioTick s).qOut
  unfold audioTick
  split
  · exact encoderTick_queueRun s
  · exact .refl

theorem fillFrom_queueRun (n i : Nat) (s : State) :
    QueueRun (ringCapacity s.params .outbound) s.qOut (fillFrom n i s).qOut := by
  refine (fillFrom_induction (P := fun t => t.params = s.params ∧
    QueueRun (ringCapacity s.params .outbound) s.qOut t.qOut) ?_ n i s ⟨rfl, .refl⟩).2
  rintro j t ⟨hp, hrun⟩
  exact ⟨(outputSample_keeps j t).params.trans hp, hrun.trans (hp ▸ outputSample_queueRun j t)⟩

/-! ### The moves of both queues under a transaction -/

theorem resultOf_ctlService_queueRun (s : State) (y : QueueId) :
    QueueRun (ringCapacity s.params y) (s.queue y) ((resultOf .ctlService s).queue y) := by
  have hbell := QueueStep.doorbell (k := ringCapacity s.params .inbound) (q := s.qIn) false
  rw [resultOf_ctlService]
  refine asAgent_induction (P := fun t => QueueRun _ _ (t.queue y)) (fun _ => ?_) (by rw [refuse_queue])
  rcases serviceControl_cases s with h | ⟨_, _, h⟩ | ⟨m, hu, hd, h⟩ <;> rw [h]
  · rw [respond_queue]
    exact queueRun_setQueue (x := .inbound) (.single hbell) y
  · rw [fail_queue]
    exact queueRun_setQueue (x := .inbound) (.single hbell) y
  · have hrun := queueRun_setQueue (x := .inbound) ((Relation.ReflTransGen.single hbell).tail (.pop m hu hd)) y
    cases m <;> cases y <;> exact hrun

/-- A transaction moves both queues by steps of the queue alone. -/
theorem resultOf_queueRun {i : Instr} (hi : isTransaction i = true) (hw : i.wellFormed = true) (s : State)
    (y : QueueId) : QueueRun (ringCapacity s.params y) (s.queue y) ((resultOf i s).queue y) := by
  cases i, hi using transaction_cases with
  | reset => cases y <;> exact .single .reset
  | fill n =>
    cases y with
    | inbound => rw [queue_inbound, queue_inbound, (resultOf_fill_keeps s n).2.2.1]
    | outbound =>
      rcases resultOf_fill_cases s n with h | ⟨_, h⟩ | ⟨_, h⟩ <;> rw [h]
      · exact .refl
      · exact .refl
      · simpa using fillFrom_queueRun n.toNat 0 s
  | ctlService => exact resultOf_ctlService_queueRun s y
  | push x m =>
    rw [resultOf_push]
    refine asAgent_induction (P := fun t => QueueRun _ _ (t.queue y)) (fun _ => ?_) (by rw [refuse_queue])
    rw [respond_queue]
    exact pushQueue_queueRun hw x _ s y
  | pop x =>
    rcases resultOf_pop_cases s x with h | h | ⟨_, _, h⟩ | ⟨m, hu, hd, h⟩ <;> rw [h]
    · rw [refuse_queue]
    · rw [respond_queue]
    · rw [fail_queue]
    · rw [respond_queue]
      exact queueRun_setQueue (.single (.pop m hu hd)) y
  | doorbellTake x =>
    rw [resultOf_doorbellTake]
    refine asAgent_induction (P := fun t => QueueRun _ _ (t.queue y)) (fun _ => ?_) (by rw [refuse_queue])
    rw [respond_queue]
    exact queueRun_setQueue (.single (.doorbell false)) y

/-! ### The invariants of a queue -/

/-- A move keeps a free lock and a canonical ring of `k` bytes (R54, R82). -/
theorem queueStep_queueInv {k : Nat} (hk : 0 < k) (q q' : Queue) (step : QueueStep k q q') (h : QueueInv k q) :
    QueueInv k q' := by
  cases step with
  | push m _ _ => exact ⟨rfl, ringWrite_wf k _ _ h.ringWf, ringWrite_below hk _ _ h.ringBelow⟩
  | pop m _ _ => exact ⟨h.lock, h.ringWf, h.ringBelow⟩
  | doorbell b => exact ⟨h.lock, h.ringWf, h.ringBelow⟩
  | reset => exact ⟨rfl, rfl, rfl⟩

/-- The queue is within its capacity and holds whole records (R53). -/
def Queue.WholeRecords (k : Nat) (q : Queue) : Prop :=
  ∃ ms, q.used ≤ k ∧ q.Holds k ms

theorem wholeRecords_iff (s : State) (x : QueueId) :
    (s.queue x).WholeRecords (ringCapacity s.params x) ↔ ∃ ms, Contents s x ms :=
  ⟨fun ⟨ms, hu, hr⟩ => ⟨ms, hu, hr⟩, fun ⟨ms, h⟩ => ⟨ms, h.used, h.records⟩⟩

/-- The occupancy after `n` of the occupied bytes are consumed. -/
theorem used_advance {q : Queue} {n : Nat} (h : n ≤ q.used) :
    ({ q with rd := q.rd + BitVec.ofNat 32 n } : Queue).used = q.used - n := by
  have hlt : q.used < 2 ^ 32 := (q.wr - q.rd).isLt
  have hn : (BitVec.ofNat 32 n).toNat = n := Nat.mod_eq_of_lt (by omega)
  show (q.wr - (q.rd + BitVec.ofNat 32 n)).toNat = (q.wr - q.rd).toNat - n
  rw [show q.wr - (q.rd + BitVec.ofNat 32 n) = q.wr - q.rd - BitVec.ofNat 32 n by abel,
    BitVec.toNat_sub_of_le (by rw [BitVec.le_def, hn]; exact h), hn]

/-- A queue that holds nothing is empty. -/
theorem used_of_holds_nil {q : Queue} {k : Nat} (h : q.Holds k []) : q.used = 0 := by
  simpa using congrArg List.length h.2

/-- A move keeps whole records within a capacity that R170 admits. -/
theorem queueStep_wholeRecords {k : Nat} (hk : k ∣ 2 ^ 32) (hk' : k < 2 ^ 32) (q q' : Queue) (step : QueueStep k q q')
    (hwf : q.ring.wf = true) (h : q.WholeRecords k) : q'.WholeRecords k := by
  obtain ⟨ms, hu, hr⟩ := h
  cases step with
  | push m hm fits =>
    have hpos : 0 < (encRecord m).length := by simp [recHdr]
    refine ⟨ms ++ [m], ?_, commit_holds hk hk' hwf hm hr (by omega)⟩
    rw [commit_used (by omega)]
    omega
  | pop m nonempty head =>
    cases ms with
    | nil => exact absurd (used_of_holds_nil hr) nonempty
    | cons m' ms =>
      obtain ⟨hl, _, r, hused, hrest⟩ := headLength_of_holds hr
      have hrd : recHdr + q.headLength k = (encRecord m').length := by rw [hl, encRecord_length]
      have hleft : ({ q with rd := q.rd + BitVec.ofNat 32 (encRecord m').length } : Queue).used = r := by
        rw [used_advance (by omega)]; omega
      rw [hrd]
      refine ⟨ms, by omega, fun n hn => hr.1 n (List.mem_cons_of_mem _ hn), ?_⟩
      rw [hleft]
      exact hrest
  | doorbell b => exact ⟨ms, hu, hr⟩
  | reset => exact ⟨[], Nat.zero_le k, by simp, rfl⟩

/-- A queue that holds whole records is never met with a malformed one at its head (R183). -/
theorem headBody_of_wholeRecords {q : Queue} {k : Nat} (h : q.WholeRecords k) (hu : q.used ≠ 0) :
    decMsg (q.headBody k) ≠ none := by
  obtain ⟨ms, _, hr⟩ := h
  cases ms with
  | nil => exact absurd (used_of_holds_nil hr) hu
  | cons m ms =>
    obtain ⟨_, hbody, _⟩ := headLength_of_holds hr
    rw [hbody, decMsg_encMsg (hr.1 m (by simp))]
    exact Option.some_ne_none m

end Sys2Proof.Machine

/-! SUPPORT. The cursor's invariant under FILL (10_state.md R59), and the induction principle of the step. -/

namespace Sys2Proof.Machine

/-! ### The cursor under FILL -/

section Cursor
variable {s : State}

/-- The cursor's invariant reads the parameters, Config, the divider and the cursor only. -/
theorem CursorInv.congr {t : State} (h : CursorInv s) (params : t.params = s.params) (tx : t.tx = s.tx)
    (synth : t.synth = s.synth) (cur : t.cur = s.cur) : CursorInv t := by
  obtain ⟨hbit, hrepeat, hbyte, heven, hsample, hdiv⟩ := h
  constructor <;> simpa only [formatA, reloadValue, params, tx, synth, cur]

theorem frameBit_cursorInv (h : CursorInv s) : CursorInv (frameBit s) :=
  ⟨h.bitPosition, h.repeatCounter, h.bytePosition, h.evenInFormatB, h.sampleCounter, h.divCounter⟩

theorem loadWindow_cursorInv (h : CursorInv s) : CursorInv (loadWindow s) :=
  ⟨h.bitPosition, h.repeatCounter, h.bytePosition, h.evenInFormatB, h.sampleCounter, h.divCounter⟩

theorem toneStep_cursorInv (h : CursorInv s) : CursorInv (toneStep s) :=
  ⟨h.bitPosition, h.repeatCounter, h.bytePosition, h.evenInFormatB, h.sampleCounter, h.divCounter⟩

theorem setSampleCounter_cursorInv {v : Word} (h : CursorInv s)
    (hv : v.toNat ≤ max s.tx.samplesPerBit.toNat (reloadValue s).toNat) : CursorInv (setSampleCounter v s) :=
  ⟨h.bitPosition, h.repeatCounter, h.bytePosition, h.evenInFormatB, hv, h.divCounter⟩

/-- The status push touches nothing the cursor's invariant reads. -/
theorem pushStatus_cursorInv (n : Word) (h : CursorInv s) : CursorInv (pushStatus n s) :=
  h.congr (pushStatus_params n s) (pushStatus_tx n s) (pushStatus_synth n s) (pushStatus_cur n s)

/-- RESTART counts up only below `repeat_count` (R240). -/
theorem restartPayload_cursorInv (h : CursorInv s) (hr : repeatsLeft s = true) : CursorInv (restartPayload s) := by
  have hlt : s.cur.repeatCounter.toNat < s.tx.repeatCount.toNat := of_decide_eq_true hr
  have hp := pushStatus_cursorInv (s.cur.repeatCounter + 1) h
  rw [restartPayload_eq]
  refine ⟨Nat.zero_le 9, ?_, fun _ => Nat.zero_le _, fun _ _ => rfl, ?_, hp.divCounter⟩
  · show (s.cur.repeatCounter + 1).toNat ≤ (pushStatus _ s).tx.repeatCount.toNat
    rw [pushStatus_tx]
    bv_omega
  · have hc := hp.sampleCounter
    rw [pushStatus_cur] at hc
    exact hc

/-- FINISH ends the configured state, and with it the bounds of `byte_position` (R241). -/
theorem finishTransmission_cursorInv (h : CursorInv s) : CursorInv (finishTransmission s) := by
  have hp := pushStatus_cursorInv 0 h
  exact ⟨hp.bitPosition, hp.repeatCounter, fun hc => (by cases hc), fun hc => (by cases hc), hp.sampleCounter,
    hp.divCounter⟩

/-- A window that is no terminator begins inside the payload (R237, R238). -/
theorem bytePosition_lt_of_not_atTerminator (hc : s.tx.configured = true) (ht : atTerminator (loadWindow s) = false) :
    s.cur.bytePosition.toNat < payloadSize := by
  by_contra hge
  have hzero : ∀ i, payloadSize ≤ i → payloadByte s i = 0 := fun i hi => if_neg (by omega)
  have := (loadWindow_terminator_iff hc).mpr ⟨hzero _ (by omega), hzero _ (by omega)⟩
  rw [ht] at this
  cases this

/-- After the window check the cursor's invariant holds, and the window to send begins inside the payload. -/
theorem checkWindow_cursorInv (h : CursorInv s) : CursorInv (checkWindow s) ∧
    ((checkWindow s).tx.configured = true → (checkWindow s).cur.bytePosition.toNat < payloadSize) := by
  have hl := loadWindow_cursorInv h
  rcases checkWindow_cases s with ⟨hc, e⟩ | ⟨hc, ht, e⟩ | ⟨_, _, hr, e⟩ | ⟨_, _, _, e⟩ <;> rw [e]
  · exact ⟨h, fun hc' => by rw [hc] at hc'; cases hc'⟩
  · exact ⟨hl, fun _ => bytePosition_lt_of_not_atTerminator hc ht⟩
  · refine ⟨restartPayload_cursorInv hl hr, fun _ => ?_⟩
    rw [restartPayload_eq]
    exact Nat.zero_lt_succ 511
  · exact ⟨finishTransmission_cursorInv hl, fun hc => by cases hc⟩

/-- The byte advance stays within the payload's 512 bytes: by one in format A, by two from an even byte in format B
(R239, R59). -/
theorem bitAdvance_cursorInv (h : CursorInv s)
    (hlt : s.tx.configured = true → s.cur.bytePosition.toNat < payloadSize) : CursorInv (bitAdvance s) := by
  unfold bitAdvance
  split
  · refine ⟨Nat.zero_le 9, h.repeatCounter, fun hc => ?_, fun hc hf => ?_, h.sampleCounter, h.divCounter⟩
    · have hlt : s.cur.bytePosition.toNat < 512 := hlt hc
      have heven := h.evenInFormatB hc
      show (s.cur.bytePosition + if formatA s then 1 else 2).toNat ≤ 512
      cases hf : formatA s with
      | true => rw [if_pos rfl]; bv_omega
      | false =>
        have heven := heven hf
        rw [if_neg Bool.false_ne_true]
        bv_omega
    · have hlt : s.cur.bytePosition.toNat < 512 := hlt hc
      have heven := h.evenInFormatB hc hf
      show (s.cur.bytePosition + if formatA s then 1 else 2).toNat % 2 = 0
      rw [show formatA s = false from hf, if_neg Bool.false_ne_true]
      bv_omega
  · have hp := h.bitPosition
    exact ⟨show s.cur.bitPosition + 1 ≤ 9 by omega, h.repeatCounter, h.bytePosition, h.evenInFormatB, h.sampleCounter,
      h.divCounter⟩

theorem bitPeriod_cursorInv (h : CursorInv s) : CursorInv (bitPeriod s) := by
  obtain ⟨hw, hlt⟩ := checkWindow_cursorInv h
  exact bitAdvance_cursorInv (frameBit_cursorInv hw) hlt

/-- The gate reloads the sample counter, or counts up below `samples_per_bit` (R231). -/
theorem encoderTick_cursorInv (h : CursorInv s) : CursorInv (encoderTick s) := by
  unfold encoderTick
  split
  · refine setSampleCounter_cursorInv (bitPeriod_cursorInv h) (le_max_of_le_right (le_of_eq ?_))
    rw [reloadValue, reloadValue, (bitPeriod_keeps s).params]
  · next hg =>
    have hlt : s.cur.sampleCounter.toNat < s.tx.samplesPerBit.toNat := by simpa [gateOpen] using hg
    exact setSampleCounter_cursorInv h (le_max_of_le_left (by bv_omega))

theorem audioTick_cursorInv (h : CursorInv s) : CursorInv (audioTick s) := by
  unfold audioTick
  split
  · exact toneStep_cursorInv (encoderTick_cursorInv h)
  · exact h

theorem outputSample_cursorInv (i : Nat) (hd : 1 ≤ s.params.audioDiv) (h : CursorInv s) :
    CursorInv (outputSample i s) := by
  have ht := audioTick_cursorInv h
  refine ⟨ht.bitPosition, ht.repeatCounter, ht.bytePosition, ht.evenInFormatB, ht.sampleCounter, Nat.mod_lt _ ?_⟩
  rw [(audioTick_keeps s).params]
  exact hd

theorem fillFrom_cursorInv (n i : Nat) (hd : 1 ≤ s.params.audioDiv) (h : CursorInv s) :
    CursorInv (fillFrom n i s) := by
  refine (fillFrom_induction (P := fun t => t.params = s.params ∧ CursorInv t) ?_ n i s ⟨rfl, h⟩).2
  rintro j t ⟨hp, ht⟩
  exact ⟨(outputSample_keeps j t).params.trans hp, outputSample_cursorInv j (by rw [hp]; exact hd) ht⟩

end Cursor

/-! ### The buffers under FILL -/

theorem audioTick_io (s : State) : (audioTick s).io = s.io := by
  unfold audioTick
  split
  · exact (encoderTick_keeps s).io
  · rfl

theorem fillFrom_bufferWf (n i : Nat) (s : State) (h : s.io.buffer.wf = true) :
    (fillFrom n i s).io.buffer.wf = true := by
  refine fillFrom_induction (P := fun t => t.io.buffer.wf = true) (fun j t ht => bufWrite_wf j _ _ ?_) n i s h
  show (audioTick t).io.buffer.wf = true
  rw [audioTick_io]
  exact ht

/-! ### The step -/

/-- Bytes a transaction stream gives are a well-formed transaction (R136, R137). -/
theorem decWhole_ok {bs : List Byte} {i : Instr} (h : decWhole bs = .ok i) :
    isTransaction i = true ∧ i.wellFormed = true := by
  unfold decWhole at h
  split at h
  · cases h; exact ⟨rfl, rfl⟩
  · cases h; exact ⟨rfl, rfl⟩
  · cases h; exact ⟨rfl, rfl⟩
  · split at h
    · cases h
    · split at h
      · cases h
      · next hm => cases h; exact ⟨rfl, decMsg_wellFormed hm⟩
  · split at h <;> cases h
    exact ⟨rfl, rfl⟩
  · split at h <;> cases h
    exact ⟨rfl, rfl⟩
  · cases h

theorem decodeTransaction_ok {bs rest : List Byte} {i : Instr} (h : decodeTransaction bs = .ok i rest) :
    isTransaction i = true ∧ i.wellFormed = true := by
  unfold decodeTransaction at h
  split at h
  · cases h
  · split at h
    · next hi => cases h; exact decWhole_ok hi
    · cases h

/-- The two states differ at most in the history, the refusal mark, and what the edge holds beside the buffers. -/
structure SameBlock (s t : State) : Prop where
  params : t.params = s.params
  tx : t.tx = s.tx
  synth : t.synth = s.synth
  cur : t.cur = s.cur
  queue : ∀ x, t.queue x = s.queue x
  faultMark : t.faultMark = s.faultMark
  buffer : t.io.buffer = s.io.buffer
  filled : t.io.filled = s.io.filled

/-- Whatever is at the ports, whoever issues and whatever is handed back, the block is the same. -/
theorem sameBlock_edge (s : State) (ports : Ports) (turns : List Turn) (issuer : Agent) (r : Response) :
    SameBlock s { s with
      io := { s.io with ports := ports, turns := turns, issuer := issuer, response := r } } :=
  ⟨rfl, rfl, rfl, rfl, fun x => by cases x <;> rfl, rfl, rfl, rfl⟩

theorem sameBlock_refuse (s : State) (w : Refusal) : SameBlock s (s.refuse w) :=
  ⟨rfl, rfl, rfl, rfl, fun x => refuse_queue s x w, rfl, rfl, rfl⟩

/-- A waiting transaction's bytes go back to the ports; nothing else changes (R174, log 11). -/
theorem keepWaiting_next (s t : State) :
    ∃ ports, keepWaiting s (.next t) = .next { t with io := { t.io with ports := ports } } := by
  rw [keepWaiting]
  split
  · exact ⟨s.io.ports, rfl⟩
  · exact ⟨t.io.ports, rfl⟩

theorem step_of_settled {s t : State} (h : fetch s = .settled t) : step s = .next t := by
  rw [step, h]

/-- An instruction's step is its result, but for the ports of a transaction that waits. -/
theorem step_of_issued {s u : State} {i : Instr} (h : fetch s = .issued i u) : ∃ ports,
    step s = .next { resultOf i u with io := { (resultOf i u).io with ports := ports } } := by
  obtain ⟨ports, hk⟩ := keepWaiting_next s (resultOf i u)
  rw [← exec_eq_resultOf] at hk
  exact ⟨ports, by rw [step, h]; exact hk⟩

/-- A step is taken when the fault mark is not set (R343). -/
theorem step_of_unfaulted {s : State} (h : s.faultMark = none) : ∃ t, step s = .next t := by
  rcases fetch_cases s with ⟨hf, _⟩ | ⟨_, e⟩ | ⟨_, _, _, e⟩ | ⟨_, _, _, e⟩ | ⟨_, _, _, _, _, e⟩ | ⟨_, _, _, _, e⟩ |
    ⟨_, _, _, _, _, _, e⟩
  · exact absurd h hf
  · exact ⟨_, step_of_settled e⟩
  · exact ⟨_, step_of_settled e⟩
  · exact ⟨_, step_of_settled e⟩
  · exact ⟨_, step_of_settled e⟩
  · exact ⟨_, step_of_settled e⟩
  · obtain ⟨_, hs⟩ := step_of_issued e
    exact ⟨_, hs⟩

/-- What survives a change of the edge, both of the environment's turns and every well-formed transaction, survives every
step. -/
theorem step_induction {P : State → Prop} (same : ∀ s t, SameBlock s t → P s → P t)
    (doorbell : ∀ x s, P s → P (setDoorbell x true s)) (supply : ∀ bytes s, P s → P (supplyBuffer bytes s))
    (transaction : ∀ i s, isTransaction i = true → i.wellFormed = true → P s → P (resultOf i s)) {s t : State}
    (hstep : step s = .next t) (h : P s) : P t := by
  have edge : ∀ u ports turns issuer r, P u → P { u with
      io := { u.io with ports := ports, turns := turns, issuer := issuer, response := r } } :=
    fun u ports turns issuer r hu => same _ _ (sameBlock_edge u ports turns issuer r) hu
  rcases fetch_cases s with ⟨_, e⟩ | ⟨_, e⟩ | ⟨x, turns, _, e⟩ | ⟨bytes, turns, _, e⟩ | ⟨a, rest, turns, w, _, e⟩ |
    ⟨a, rest, turns, _, e⟩ | ⟨a, rest, turns, i, hdec, _, e⟩
  · rw [step, e] at hstep
    cases hstep
  · cases (step_of_settled e).symm.trans hstep
    exact h
  · cases (step_of_settled e).symm.trans hstep
    exact doorbell x _ (edge s _ turns _ _ h)
  · cases (step_of_settled e).symm.trans hstep
    exact supply bytes _ (edge s _ turns _ _ h)
  · cases (step_of_settled e).symm.trans hstep
    exact same _ _ (sameBlock_refuse _ w) (edge s _ turns a _ h)
  · cases (step_of_settled e).symm.trans hstep
    exact edge s _ turns a _ h
  · obtain ⟨hi, hw⟩ := decodeTransaction_ok hdec
    obtain ⟨ports, hs⟩ := step_of_issued e
    cases hs.symm.trans hstep
    exact edge _ ports _ _ _ (transaction i _ hi hw (edge s (withPort s.io.ports a rest) turns a .none h))

end Sys2Proof.Machine

/-! SUPPORT. The invariant of the block and the invariant of the machine are kept by every transaction, and so by every
step (10_state.md R53, R54, R59). -/

namespace Sys2Proof.Machine

theorem resultOf_params {i : Instr} (hi : isTransaction i = true) (s : State) : (resultOf i s).params = s.params := by
  cases i, hi using transaction_cases with
  | reset => rfl
  | fill n => exact (resultOf_fill_keeps s n).1
  | ctlService => exact (resultOf_ctlService_keeps s).params
  | push x m => exact (resultOf_push_keeps x s m).params
  | pop x => exact (resultOf_pop_keeps x s).params
  | doorbellTake x => exact (resultOf_doorbellTake_keeps x s).params

/-! ### The block's invariant -/

theorem queueInv_queue {s : State} (h : BlockInv s) (x : QueueId) :
    QueueInv (ringCapacity s.params x) (s.queue x) := by
  cases x
  · exact h.qIn
  · exact h.qOut

/-- What the invariant says beside the parameters and the queues: the cursor and the memories (R59, R82). -/
structure DataInv (s : State) : Prop where
  cursor : CursorInv s
  payloadWf : s.tx.payload.wf = true
  payloadBelow : s.tx.payload.below payloadSize = true
  bufferWf : s.io.buffer.wf = true
  filledWf : ∀ b ∈ s.io.filled, b.bytes.wf = true

theorem blockInv_iff (s : State) : BlockInv s ↔
    s.params.legal ∧ DataInv s ∧ ∀ x, QueueInv (ringCapacity s.params x) (s.queue x) :=
  ⟨fun h => ⟨h.legal, ⟨h.cursor, h.payloadWf, h.payloadBelow, h.bufferWf, h.filledWf⟩, queueInv_queue h⟩,
    fun ⟨hl, hd, hq⟩ => ⟨hl, hd.cursor, hd.payloadWf, hd.payloadBelow, hd.bufferWf, hd.filledWf, hq .inbound,
      hq .outbound⟩⟩

theorem DataInv.congr {s t : State} (h : DataInv s) (params : t.params = s.params) (tx : t.tx = s.tx)
    (synth : t.synth = s.synth) (cur : t.cur = s.cur) (buffer : t.io.buffer = s.io.buffer)
    (filled : t.io.filled = s.io.filled) : DataInv t :=
  ⟨h.cursor.congr params tx synth cur, tx ▸ h.payloadWf, tx ▸ h.payloadBelow, buffer ▸ h.bufferWf, filled ▸ h.filledWf⟩

theorem KeepsOutsideQueue.dataInv {x : QueueId} {s t : State} (h : KeepsOutsideQueue x s t) (hd : DataInv s) :
    DataInv t :=
  hd.congr h.params h.tx h.synth h.cur h.buffer h.filled

theorem applyConfiguration_dataInv (c : ConfigMsg) {s : State} (hl : s.params.legal) (h : DataInv s) :
    DataInv (applyConfiguration c s) :=
  ⟨⟨Nat.zero_le 9, Nat.zero_le _, fun _ => Nat.zero_le _, fun _ _ => rfl, le_max_left _ _, hl.2.1⟩,
    bytesFrom_wf 0 _, bytesFrom_below 0 _ (by simp), h.bufferWf, h.filledWf⟩

theorem deliver_dataInv (m : Msg) {s : State} (hl : s.params.legal) (h : DataInv s) : DataInv (deliver m s) := by
  cases m with
  | configure c => exact (applyConfiguration_dataInv c hl h).congr rfl rfl rfl rfl rfl rfl
  | status n => exact h.congr rfl rfl rfl rfl rfl rfl

theorem fillFrom_dataInv (n i : Nat) {s : State} (hl : s.params.legal) (h : DataInv s) : DataInv (fillFrom n i s) := by
  have hk := fillFrom_keeps n i s
  refine ⟨fillFrom_cursorInv n i hl.2.1 h.cursor, ?_, ?_, fillFrom_bufferWf n i s h.bufferWf, ?_⟩
  · rw [hk.tx]; exact h.payloadWf
  · rw [hk.tx]; exact h.payloadBelow
  · rw [hk.io]; exact h.filledWf

/-- The buffer a FILL returns is as canonical as the one it wrote (R398). -/
theorem returnBuffer_dataInv (n : Word) {s : State} (h : DataInv s) : DataInv (returnBuffer n s) := by
  refine ⟨h.cursor.congr (by simp) (by simp) (by simp) (by simp), ?_, ?_, ?_, ?_⟩
  · simpa using h.payloadWf
  · simpa using h.payloadBelow
  · simpa using h.bufferWf
  · rw [returnBuffer_filled]
    split
    · exact h.filledWf
    · rw [List.forall_mem_append]
      exact ⟨h.filledWf, by simpa using h.bufferWf⟩

theorem resultOf_dataInv {i : Instr} (hi : isTransaction i = true) {s : State} (hl : s.params.legal)
    (h : DataInv s) : DataInv (resultOf i s) := by
  cases i, hi using transaction_cases with
  | reset =>
    exact ⟨⟨Nat.zero_le 9, le_refl 0, fun _ => Nat.zero_le _, fun _ _ => rfl, Nat.zero_le _, hl.2.1⟩, rfl, rfl,
      h.bufferWf, h.filledWf⟩
  | fill n =>
    rcases resultOf_fill_cases s n with e | ⟨_, e⟩ | ⟨_, e⟩ <;> rw [e]
    · exact h.congr rfl rfl rfl rfl rfl rfl
    · exact h.congr rfl rfl rfl rfl rfl rfl
    · exact (returnBuffer_dataInv n (fillFrom_dataInv n.toNat 0 hl h)).congr rfl rfl rfl rfl rfl rfl
  | ctlService =>
    rw [resultOf_ctlService]
    refine asAgent_induction (fun _ => ?_) (h.congr rfl rfl rfl rfl rfl rfl)
    rcases serviceControl_cases s with e | ⟨_, _, e⟩ | ⟨m, _, _, e⟩ <;> rw [e]
    · exact h.congr rfl rfl rfl rfl rfl rfl
    · exact h.congr rfl rfl rfl rfl rfl rfl
    · exact deliver_dataInv m hl (h.congr rfl rfl rfl rfl rfl rfl)
  | push x m => exact (resultOf_push_keeps x s m).dataInv h
  | pop x => exact (resultOf_pop_keeps x s).dataInv h
  | doorbellTake x => exact (resultOf_doorbellTake_keeps x s).dataInv h

/-! ### Every step -/

theorem blockInv_same {s t : State} (e : SameBlock s t) (h : BlockInv s) : BlockInv t := by
  obtain ⟨hl, hd, hq⟩ := (blockInv_iff s).mp h
  refine (blockInv_iff t).mpr ⟨?_, hd.congr e.params e.tx e.synth e.cur e.buffer e.filled, fun x => ?_⟩
  · rw [e.params]; exact hl
  · rw [e.params, e.queue]; exact hq x

theorem setDoorbell_blockInv (x : QueueId) (b : Bool) {s : State} (h : BlockInv s) : BlockInv (setDoorbell x b s) := by
  obtain ⟨hl, hd, hq⟩ := (blockInv_iff s).mp h
  refine (blockInv_iff _).mpr ⟨by rw [setDoorbell, setQueue_params]; exact hl, ?_, fun y => ?_⟩
  · exact hd.congr (setQueue_params ..) (setQueue_tx ..) (setQueue_synth ..) (setQueue_cur ..)
      (by rw [setDoorbell, setQueue_io]) (by rw [setDoorbell, setQueue_io])
  · rw [setDoorbell, setQueue_params]
    exact queueRun_induction (queueStep_queueInv (ringCapacity_pos _ y))
      (queueRun_setQueue (.single (.doorbell b)) y) (hq y)

theorem supplyBuffer_blockInv (bytes : List Byte) {s : State} (h : BlockInv s) : BlockInv (supplyBuffer bytes s) :=
  ⟨h.legal, h.cursor.congr rfl rfl rfl rfl, h.payloadWf, h.payloadBelow, bytesFrom_wf 0 bytes, h.filledWf, h.qIn, h.qOut⟩

theorem resultOf_blockInv {i : Instr} (hi : isTransaction i = true) (hw : i.wellFormed = true) {s : State}
    (h : BlockInv s) : BlockInv (resultOf i s) := by
  obtain ⟨hl, hd, hq⟩ := (blockInv_iff s).mp h
  refine (blockInv_iff _).mpr ⟨?_, resultOf_dataInv hi hl hd, fun x => ?_⟩
  · rw [resultOf_params hi]; exact hl
  · rw [resultOf_params hi]
    exact queueRun_induction (queueStep_queueInv (ringCapacity_pos _ x)) (resultOf_queueRun hi hw s x) (hq x)

/-- Settles O56: the invariant splits into the data (cursor, memories) and the queues, and each part has its lemma about
what a transaction does to it. -/
theorem stepKeepsTheBlockInvariant : Obligations.StepKeepsTheBlockInvariant := by
  intro s t h hstep
  exact step_induction (P := BlockInv) (fun _ _ => blockInv_same) (fun x _ => setDoorbell_blockInv x true)
    (fun bytes _ => supplyBuffer_blockInv bytes) (fun _ _ hi hw => resultOf_blockInv hi hw) hstep h

/-! ### The machine's invariant -/

/-- The machine's invariant, with the messages a ring holds left out of sight. -/
theorem machineInv_iff (s : State) : MachineInv s ↔
    BlockInv s ∧ (∀ x, (s.queue x).WholeRecords (ringCapacity s.params x)) ∧ s.faultMark = none := by
  simp only [wholeRecords_iff]
  refine ⟨fun h => ⟨h.block, fun x => ?_, h.faultMark⟩, fun ⟨hb, hr, hf⟩ => ⟨hb, hr .inbound, hr .outbound, hf⟩⟩
  cases x
  · exact h.inbound
  · exact h.outbound

/-- A run of a queue with a free lock, a canonical ring and whole records keeps all three (R53, R54). -/
theorem queueRun_wholeRecords {s : State} (hl : s.params.legal) (x : QueueId) {q q' : Queue}
    (run : QueueRun (ringCapacity s.params x) q q') (hq : QueueInv (ringCapacity s.params x) q)
    (hr : q.WholeRecords (ringCapacity s.params x)) : q'.WholeRecords (ringCapacity s.params x) := by
  have hlt : ringCapacity s.params x < 2 ^ 32 := lt_of_le_of_lt (ringCapacity_le hl x) (by decide)
  refine (queueRun_induction (P := fun q => QueueInv _ q ∧ q.WholeRecords _) ?_ run ⟨hq, hr⟩).2
  rintro p p' step ⟨hp, hpr⟩
  exact ⟨queueStep_queueInv (ringCapacity_pos _ x) p p' step hp,
    queueStep_wholeRecords (ringCapacity_dvd hl x) hlt p p' step hp.ringWf hpr⟩

/-- Where both rings hold whole records, no transaction meets QueueCorrupt (R183, R343). -/
theorem resultOf_faultMark {i : Instr} (hi : isTransaction i = true) {s : State}
    (hr : ∀ x, (s.queue x).WholeRecords (ringCapacity s.params x)) (hf : s.faultMark = none) :
    (resultOf i s).faultMark = none := by
  cases i, hi using transaction_cases with
  | reset => rfl
  | fill n => rw [(resultOf_fill_keeps s n).2.2.2, hf]
  | ctlService =>
    rw [resultOf_ctlService]
    refine asAgent_induction (P := fun t => t.faultMark = none) (fun _ => ?_) hf
    rcases serviceControl_cases s with e | ⟨hu, hd, _⟩ | ⟨m, _, _, e⟩
    · rw [e]; exact hf
    · exact absurd hd (headBody_of_wholeRecords (hr .inbound) hu)
    · rw [e]; cases m <;> exact hf
  | push x m =>
    rw [resultOf_push]
    refine asAgent_induction (P := fun t => t.faultMark = none) (fun _ => ?_) hf
    rcases pushQueue_cases x m s.io.issuer s with ⟨_, e⟩ | ⟨_, _, e⟩ | ⟨_, _, e⟩ <;> simpa [e] using hf
  | pop x =>
    rcases resultOf_pop_cases s x with e | e | ⟨hu, hd, _⟩ | ⟨m, _, _, e⟩
    · rw [e]; exact hf
    · rw [e]; exact hf
    · exact absurd hd (headBody_of_wholeRecords (hr x) hu)
    · simpa [e] using hf
  | doorbellTake x =>
    rw [resultOf_doorbellTake]
    exact asAgent_induction (P := fun t => t.faultMark = none) (fun _ => by simpa [setDoorbell] using hf) hf

theorem machineInv_same {s t : State} (e : SameBlock s t) (h : MachineInv s) : MachineInv t := by
  obtain ⟨hb, hr, hf⟩ := (machineInv_iff s).mp h
  refine (machineInv_iff t).mpr ⟨blockInv_same e hb, fun x => ?_, e.faultMark.trans hf⟩
  rw [e.params, e.queue]
  exact hr x

theorem setDoorbell_machineInv (x : QueueId) (b : Bool) {s : State} (h : MachineInv s) :
    MachineInv (setDoorbell x b s) := by
  obtain ⟨hb, hr, hf⟩ := (machineInv_iff s).mp h
  refine (machineInv_iff _).mpr ⟨setDoorbell_blockInv x b hb, fun y => ?_, by rw [setDoorbell, setQueue_faultMark, hf]⟩
  rw [setDoorbell, setQueue_params]
  exact queueRun_wholeRecords hb.legal y (queueRun_setQueue (.single (.doorbell b)) y) (queueInv_queue hb y) (hr y)

theorem supplyBuffer_machineInv (bytes : List Byte) {s : State} (h : MachineInv s) :
    MachineInv (supplyBuffer bytes s) := by
  obtain ⟨hb, hr, hf⟩ := (machineInv_iff s).mp h
  refine (machineInv_iff _).mpr ⟨supplyBuffer_blockInv bytes hb, fun x => ?_, hf⟩
  cases x
  · exact hr .inbound
  · exact hr .outbound

theorem resultOf_machineInv {i : Instr} (hi : isTransaction i = true) (hw : i.wellFormed = true) {s : State}
    (h : MachineInv s) : MachineInv (resultOf i s) := by
  obtain ⟨hb, hr, hf⟩ := (machineInv_iff s).mp h
  refine (machineInv_iff _).mpr ⟨resultOf_blockInv hi hw hb, fun x => ?_, resultOf_faultMark hi hr hf⟩
  rw [resultOf_params hi]
  exact queueRun_wholeRecords hb.legal x (resultOf_queueRun hi hw s x) (queueInv_queue hb x) (hr x)

/-- Settles O57: whole records are kept by every move of a queue, so a POP decodes what it finds, and the fault mark that
alone could stop the step is never set. -/
theorem stepNeverMeetsACorruptQueue : Obligations.StepNeverMeetsACorruptQueue := by
  intro s h
  obtain ⟨t, ht⟩ := step_of_unfaulted h.faultMark
  exact ⟨t, ht, step_induction (P := MachineInv) (fun _ _ => machineInv_same) (fun x _ => setDoorbell_machineInv x true)
    (fun bytes _ => supplyBuffer_machineInv bytes) (fun _ _ hi hw => resultOf_machineInv hi hw) ht h⟩

end Sys2Proof.Machine

/-! SUPPORT. The ghost state changes nothing an instruction does (10_state.md R61, 60_exceptions.md R340). -/

namespace Sys2Proof.Machine

/-- What is no hardware state: the history, both marks, and the last outcome (R61, R340). -/
structure Ghosts where
  history : List Event
  faultMark : Option Fault
  refusalMark : Option Refusal
  response : Response

/-- The state with other ghosts. -/
def State.withGhosts (s : State) (g : Ghosts) : State :=
  { s with
    history := g.history
    faultMark := g.faultMark
    refusalMark := g.refusalMark
    io := { s.io with response := g.response } }

/-- Other ghosts before the effect give, at most, other ghosts after it. -/
def IgnoresGhosts (f : State → State) : Prop :=
  ∀ s g, ∃ g', f (s.withGhosts g) = (f s).withGhosts g'

/-! ### Effects are composed of effects -/

theorem ignoresGhosts_id : IgnoresGhosts fun s => s := fun _ g => ⟨g, rfl⟩

theorem IgnoresGhosts.comp {e f : State → State} (hf : IgnoresGhosts f) (he : IgnoresGhosts e) :
    IgnoresGhosts fun s => f (e s) := by
  intro s g
  obtain ⟨g', h⟩ := he s g
  obtain ⟨g'', h'⟩ := hf (e s) g'
  exact ⟨g'', (congrArg f h).trans h'⟩

/-- A choice by a condition that reads no ghost. -/
theorem IgnoresGhosts.ite {c : State → Prop} [DecidablePred c] {e f : State → State}
    (hc : ∀ s g, c (s.withGhosts g) ↔ c s) (he : IgnoresGhosts e) (hf : IgnoresGhosts f) :
    IgnoresGhosts fun s => if c s then e s else f s := by
  intro s g
  by_cases h : c s
  · simpa only [hc, if_pos h] using he s g
  · simpa only [hc, if_neg h] using hf s g

/-- An effect whose operand is read from the state, not from its ghosts. -/
theorem IgnoresGhosts.operand {α : Type} {v : State → α} {f : α → State → State} (hv : ∀ s g, v (s.withGhosts g) = v s)
    (hf : ∀ a, IgnoresGhosts (f a)) : IgnoresGhosts fun s => f (v s) s := by
  intro s g
  simpa only [hv] using hf (v s) s g

/-! ### The shared operations -/

theorem respond_ignoresGhosts (r : Response) : IgnoresGhosts fun s => s.respond r :=
  fun _ g => ⟨{ g with response := r }, rfl⟩

theorem record_ignoresGhosts (e : Event) : IgnoresGhosts fun s => s.record e :=
  fun _ g => ⟨{ g with history := g.history ++ [e] }, rfl⟩

theorem refuse_ignoresGhosts (w : Refusal) : IgnoresGhosts fun s => s.refuse w :=
  fun _ g => ⟨{ g with response := .refused w, refusalMark := g.refusalMark.or (some w) }, rfl⟩

theorem fail_ignoresGhosts (f : Fault) : IgnoresGhosts fun s => s.fail f :=
  fun _ g => ⟨{ g with response := .faulted f, faultMark := some f }, rfl⟩

theorem asAgent_ignoresGhosts (a : Agent) {f : State → State} (hf : IgnoresGhosts f) :
    IgnoresGhosts fun s => s.asAgent a (f s) :=
  .ite (c := fun s => s.io.issuer = a) (fun _ _ => .rfl) hf (refuse_ignoresGhosts .wrongAgent)

section GhostsOutside
variable (s : State) (g : Ghosts) (x : QueueId)

theorem withGhosts_params : (s.withGhosts g).params = s.params := rfl

theorem withGhosts_queue : (s.withGhosts g).queue x = s.queue x := by cases x <;> rfl

theorem withGhosts_setQueue (q : Queue) : (s.withGhosts g).setQueue x q = (s.setQueue x q).withGhosts g := by
  cases x <;> rfl

theorem withGhosts_setDoorbell (b : Bool) :
    setDoorbell x b (s.withGhosts g) = (setDoorbell x b s).withGhosts g := by
  rw [setDoorbell, withGhosts_queue, withGhosts_setQueue, setDoorbell]

/-- PUSH reads and writes no ghost. -/
theorem withGhosts_pushQueue (m : Msg) (a : Agent) :
    pushQueue x m a (s.withGhosts g) = ((pushQueue x m a s).1, (pushQueue x m a s).2.withGhosts g) := by
  unfold pushQueue
  rw [withGhosts_queue, withGhosts_params]
  cases hl : (s.queue x).lock with
  | held b => simp only [hl]
  | free =>
    by_cases h : ringCapacity s.params x - (s.queue x).used < (encRecord m).length
    · simp only [hl, if_pos h]
    · simp only [hl, if_neg h, withGhosts_setQueue]

/-- POP reads and writes no ghost. -/
theorem withGhosts_popQueue :
    popQueue x (s.withGhosts g) = ((popQueue x s).1, (popQueue x s).2.withGhosts g) := by
  unfold popQueue
  rw [withGhosts_queue, withGhosts_params]
  by_cases h : (s.queue x).used = 0
  · simp only [if_pos h]
  · cases hd : decMsg ((s.queue x).headBody (ringCapacity s.params x)) with
    | none => simp only [if_neg h, hd]
    | some m => simp only [if_neg h, hd, withGhosts_setQueue]

end GhostsOutside

/-! ### The encoder and the sample callback -/

theorem pushStatus_ignoresGhosts (n : Word) : IgnoresGhosts (pushStatus n) := by
  intro s g
  unfold pushStatus
  rw [withGhosts_pushQueue]
  obtain ⟨r, t⟩ := pushQueue .outbound (.status n) .rt s
  cases r <;> exact record_ignoresGhosts _ t g

theorem restartPayload_ignoresGhosts : IgnoresGhosts restartPayload := by
  intro s g
  obtain ⟨g', h⟩ := pushStatus_ignoresGhosts (s.cur.repeatCounter + 1) s g
  refine ⟨g', ?_⟩
  rw [restartPayload_eq, restartPayload_eq]
  show ({ pushStatus (s.cur.repeatCounter + 1) (s.withGhosts g) with cur := _ } : State) = _
  rw [h]
  rfl

theorem finishTransmission_ignoresGhosts : IgnoresGhosts finishTransmission := by
  intro s g
  obtain ⟨g', h⟩ := pushStatus_ignoresGhosts 0 s g
  refine ⟨g', ?_⟩
  unfold finishTransmission
  rw [h]
  rfl

theorem loadWindow_ignoresGhosts : IgnoresGhosts loadWindow := fun _ g => ⟨g, rfl⟩

theorem endOfPayload_ignoresGhosts : IgnoresGhosts endOfPayload :=
  .ite (c := fun s => atTerminator s = true) (fun _ _ => .rfl)
    (.ite (c := fun s => repeatsLeft s = true) (fun _ _ => .rfl) restartPayload_ignoresGhosts
      finishTransmission_ignoresGhosts)
    ignoresGhosts_id

theorem checkWindow_ignoresGhosts : IgnoresGhosts checkWindow :=
  .ite (c := fun s => s.tx.configured = true) (fun _ _ => .rfl)
    (endOfPayload_ignoresGhosts.comp loadWindow_ignoresGhosts) ignoresGhosts_id

theorem sendBit_ignoresGhosts (v : BitVec 10) : IgnoresGhosts (sendBit v) := fun _ g => ⟨g, rfl⟩

theorem frameBit_ignoresGhosts : IgnoresGhosts frameBit := .operand (fun _ _ => rfl) sendBit_ignoresGhosts

theorem bitAdvance_ignoresGhosts : IgnoresGhosts bitAdvance :=
  .ite (c := fun s => s.cur.bitPosition = 9) (fun _ _ => .rfl) (fun _ g => ⟨g, rfl⟩) (fun _ g => ⟨g, rfl⟩)

theorem bitPeriod_ignoresGhosts : IgnoresGhosts bitPeriod :=
  (bitAdvance_ignoresGhosts.comp frameBit_ignoresGhosts).comp checkWindow_ignoresGhosts

theorem setSampleCounter_ignoresGhosts (v : Word) : IgnoresGhosts (setSampleCounter v) := fun _ g => ⟨g, rfl⟩

theorem encoderTick_ignoresGhosts : IgnoresGhosts encoderTick :=
  .ite (c := fun s => gateOpen s = true) (fun _ _ => .rfl)
    (.operand (v := reloadValue) (fun _ _ => rfl) fun v =>
      (setSampleCounter_ignoresGhosts v).comp bitPeriod_ignoresGhosts)
    (.operand (v := fun s => s.cur.sampleCounter + 1) (fun _ _ => rfl) setSampleCounter_ignoresGhosts)

theorem toneStep_ignoresGhosts : IgnoresGhosts toneStep := fun _ g => ⟨g, rfl⟩

theorem fmStep_ignoresGhosts (ts : Byte) : IgnoresGhosts (fmStep ts) := fun _ g => ⟨g, rfl⟩

theorem audioTick_ignoresGhosts : IgnoresGhosts audioTick :=
  .ite (c := fun s => onAudioTick s = true) (fun _ _ => .rfl) (toneStep_ignoresGhosts.comp encoderTick_ignoresGhosts)
    ignoresGhosts_id

theorem advanceDivider_ignoresGhosts : IgnoresGhosts advanceDivider := fun _ g => ⟨g, rfl⟩

theorem advanceSample_ignoresGhosts : IgnoresGhosts advanceSample :=
  (IgnoresGhosts.operand (v := toneSample) (fun _ _ => rfl) fmStep_ignoresGhosts).comp
    (advanceDivider_ignoresGhosts.comp audioTick_ignoresGhosts)

theorem outputSample_ignoresGhosts (i : Nat) : IgnoresGhosts (outputSample i) := by
  have hwrite : IgnoresGhosts fun t =>
      (bufWrite i (inPhase t, quadrature t) t).record (.sample i (inPhase t) (quadrature t)) :=
    fun _ g => ⟨{ g with history := g.history ++ [_] }, rfl⟩
  exact hwrite.comp advanceSample_ignoresGhosts

theorem fillFrom_ignoresGhosts (n : Nat) : ∀ i, IgnoresGhosts (fillFrom n i) := by
  induction n with
  | zero => exact fun _ => ignoresGhosts_id
  | succ n ih => exact fun i => (ih (i + 1)).comp (outputSample_ignoresGhosts i)

theorem returnBuffer_ignoresGhosts (n : Word) : IgnoresGhosts (returnBuffer n) :=
  .ite (c := fun _ => n = 0) (fun _ _ => .rfl) ignoresGhosts_id fun _ g => ⟨g, rfl⟩

/-! ### The instructions -/

theorem resultOf_fill_ignoresGhosts (n : Word) : IgnoresGhosts (resultOf (.fill n)) :=
  asAgent_ignoresGhosts .rt <| .ite (c := fun s => s.tx.configured = true) (fun _ _ => .rfl)
    ((respond_ignoresGhosts .filled).comp ((returnBuffer_ignoresGhosts n).comp (fillFrom_ignoresGhosts n.toNat 0)))
    (respond_ignoresGhosts .notConfigured)

theorem deliver_ignoresGhosts (m : Msg) : IgnoresGhosts (deliver m) := by
  intro s g
  cases m with
  | configure c => exact ⟨{ g with history := g.history ++ [_], response := _ }, rfl⟩
  | status n => exact ⟨{ g with history := g.history ++ [_], response := _ }, rfl⟩

theorem serviceControl_ignoresGhosts : IgnoresGhosts serviceControl := by
  intro s g
  unfold serviceControl
  rw [withGhosts_setDoorbell, withGhosts_popQueue]
  obtain ⟨r, t⟩ := popQueue .inbound (setDoorbell .inbound false s)
  cases r with
  | msg m => exact deliver_ignoresGhosts m t g
  | empty => exact respond_ignoresGhosts .empty t g
  | corrupt => exact fail_ignoresGhosts .queueCorrupt t g

theorem resultOf_push_ignoresGhosts (x : QueueId) (m : Msg) : IgnoresGhosts (resultOf (.push x m)) := by
  refine asAgent_ignoresGhosts (producer x) (.operand (v := fun s => s.io.issuer) (fun _ _ => rfl)
    (f := fun a s => (pushQueue x m a s).2.respond (pushQueue x m a s).1.response) fun a s g => ?_)
  beta_reduce
  rw [withGhosts_pushQueue]
  exact respond_ignoresGhosts _ _ g

theorem resultOf_pop_ignoresGhosts (x : QueueId) : IgnoresGhosts (resultOf (.pop x)) := by
  refine asAgent_ignoresGhosts (consumer x) fun s g => ?_
  rw [withGhosts_popQueue]
  obtain ⟨r, t⟩ := popQueue x s
  cases r with
  | msg m => exact respond_ignoresGhosts (.msg m) t g
  | empty => exact respond_ignoresGhosts .empty t g
  | corrupt => exact fail_ignoresGhosts .queueCorrupt t g

theorem resultOf_doorbellTake_ignoresGhosts (x : QueueId) : IgnoresGhosts (resultOf (.doorbellTake x)) := by
  refine asAgent_ignoresGhosts (consumer x) fun s g => ?_
  rw [withGhosts_setDoorbell, withGhosts_queue]
  exact respond_ignoresGhosts _ _ g

theorem resultOf_ignoresGhosts (i : Instr) : IgnoresGhosts (resultOf i) := by
  cases i with
  | msgConfigure c => exact deliver_ignoresGhosts (.configure c)
  | msgStatus n => exact deliver_ignoresGhosts (.status n)
  | frameA d => exact sendBit_ignoresGhosts _
  | frameB d p => exact sendBit_ignoresGhosts _
  | reset => exact fun _ _ => ⟨⟨[], none, none, .ok⟩, rfl⟩
  | fill n => exact resultOf_fill_ignoresGhosts n
  | ctlService => exact asAgent_ignoresGhosts .ctl serviceControl_ignoresGhosts
  | push x m => exact resultOf_push_ignoresGhosts x m
  | pop x => exact resultOf_pop_ignoresGhosts x
  | doorbellTake x => exact resultOf_doorbellTake_ignoresGhosts x
  | audioTick => exact audioTick_ignoresGhosts
  | bitPeriod => exact bitPeriod_ignoresGhosts
  | windowCheck =>
    exact .ite (c := fun s => s.tx.configured = true) (fun _ _ => .rfl) (fun _ g => ⟨{ g with response := _ }, rfl⟩)
      ignoresGhosts_id
  | restart =>
    exact .ite (c := fun s => (atTerminator s && repeatsLeft s) = true) (fun _ _ => .rfl) restartPayload_ignoresGhosts
      ignoresGhosts_id
  | finish =>
    exact .ite (c := fun s => (atTerminator s && !repeatsLeft s) = true) (fun _ _ => .rfl)
      finishTransmission_ignoresGhosts ignoresGhosts_id
  | frameBit => exact frameBit_ignoresGhosts
  | bitAdvance => exact bitAdvance_ignoresGhosts
  | toneStep => exact toneStep_ignoresGhosts
  | toneRead => exact .operand (v := fun s => .toneSample (toneSample s)) (fun _ _ => rfl) respond_ignoresGhosts
  | fmStep ts => exact fmStep_ignoresGhosts ts
  | iqRead => exact .operand (v := fun s => .iqPair (inPhase s) (quadrature s)) (fun _ _ => rfl) respond_ignoresGhosts
  | statusPush n => exact pushStatus_ignoresGhosts n
  | applyConfiguration c => exact fun _ g => ⟨g, rfl⟩

/-- Settles O49: every instruction's effect is composed of effects that read no ghost. -/
theorem ghostStateChangesNothing : Obligations.GhostStateChangesNothing := by
  intro i s h f m r
  obtain ⟨g, hg⟩ := resultOf_ignoresGhosts i s ⟨h, f, m, r⟩
  exact ⟨resultOf i s, (resultOf i s).withGhosts g, exec_eq_resultOf i s,
    (exec_eq_resultOf i (s.withGhosts ⟨h, f, m, r⟩)).trans (congrArg _ hg), rfl, rfl, rfl, rfl, rfl, rfl, rfl, rfl⟩

end Sys2Proof.Machine

/-! SUPPORT. The laws of the encodings in the direction from bytes to values: what a field, a body or a frame reads is
what its bytes say, and writes them back (30_encoding.md R86, R126, R130, R131). -/

namespace Sys2Proof

/-! ### Fields -/

theorem leValue_lt : ∀ bs : List Byte, leValue bs < 256 ^ bs.length
  | [] => Nat.one_pos
  | b :: bs => by
    have ih := leValue_lt bs
    have hb : b.toNat < 256 := b.isLt
    rw [leValue, List.length_cons, pow_succ]
    omega

/-- Bytes are the encoding of their value. -/
theorem leBytes_leValue : ∀ bs : List Byte, leBytes bs.length (leValue bs) = bs
  | [] => rfl
  | b :: bs => by
    have hb : b.toNat < 256 := b.isLt
    have hhead : BitVec.ofNat 8 (b.toNat + 256 * leValue bs) = b := by
      apply BitVec.eq_of_toNat_eq
      rw [BitVec.toNat_ofNat]
      omega
    have htail : (b.toNat + 256 * leValue bs) / 256 = leValue bs := by omega
    rw [List.length_cons, leBytes, leValue, hhead, htail, leBytes_leValue bs]

/-- A field that lies in the first part of the bytes is read from there. -/
theorem leField_append_left {a : List Byte} {o n : Nat} (h : o + n ≤ a.length) (c : List Byte) :
    leField (a ++ c) o n = leField a o n := by
  rw [leField, leField, List.drop_append_of_le_length (by omega),
    List.take_append_of_le_length (by rw [List.length_drop]; omega)]

/-- A u32 field is the encoding of the word it reads. -/
theorem leBytes_wordField {bs : List Byte} {o : Nat} (h : o + 4 ≤ bs.length) :
    leBytes 4 (wordField bs o).toNat = (bs.drop o).take 4 := by
  have hlen : ((bs.drop o).take 4).length = 4 := by rw [List.length_take, List.length_drop]; omega
  have hlt := leValue_lt ((bs.drop o).take 4)
  rw [hlen] at hlt
  have hread : (wordField bs o).toNat = leValue ((bs.drop o).take 4) := Nat.mod_eq_of_lt hlt
  have hwrite := leBytes_leValue ((bs.drop o).take 4)
  rwa [hlen, ← hread] at hwrite

/-! ### Message bodies -/

/-- A ConfigureMessage's body is written back as it was, but for the last byte, which is written as 0 or 1 (R126). -/
theorem encConfig_decConfig {b : List Byte} (hl : b.length = maxMsg) (h0 : byteField b 0 = 0x01#8) :
    encConfig (decConfig b) = b.take 533 ++ [if byteField b 533 != 0 then 0x01#8 else 0x00#8] := by
  have hhead : [0x01#8] = b.take 1 := by
    cases b with
    | nil => cases hl
    | cons x xs => rw [← h0]; rfl
  have hword (o : Nat) (ho : o + 4 ≤ 534) : leBytes 4 (wordField b o).toNat = (b.drop o).take 4 :=
    leBytes_wordField (by rw [hl]; exact ho)
  have hparts : b.take 533 = b.take 1 ++ (b.drop 1).take 512 ++ (b.drop 513).take 4 ++ (b.drop 517).take 4 ++
      (b.drop 521).take 4 ++ (b.drop 525).take 4 ++ (b.drop 529).take 4 := by
    simp only [← List.take_add]
  rw [hparts, ← hhead, ← hword 513 (by omega), ← hword 517 (by omega), ← hword 521 (by omega), ← hword 525 (by omega),
    ← hword 529 (by omega)]
  rfl

/-- The two bodies differ at most in the last byte, `alternate_format`: 2 to 255 where the encoding has 1 (R126). -/
def DiffersInAlternateFormat (b enc : List Byte) : Prop :=
  ∃ (pre : List Byte) (alt : Byte), 2 ≤ alt.toNat ∧ b = pre ++ [alt] ∧ enc = pre ++ [0x01#8]

theorem DiffersInAlternateFormat.append_left {b enc : List Byte} (h : DiffersInAlternateFormat b enc)
    (header : List Byte) : DiffersInAlternateFormat (header ++ b) (header ++ enc) := by
  obtain ⟨pre, alt, halt, rfl, rfl⟩ := h
  exact ⟨header ++ pre, alt, halt, by simp, by simp⟩

theorem DiffersInAlternateFormat.length_eq {b enc : List Byte} (h : DiffersInAlternateFormat b enc) :
    b.length = enc.length := by
  obtain ⟨pre, alt, _, rfl, rfl⟩ := h
  simp

/-- A body that decodes to a ConfigureMessage is its encoding, but for an `alternate_format` byte 2 to 255. -/
theorem eq_encConfig_decConfig_or {b : List Byte} (hl : b.length = maxMsg) (h0 : byteField b 0 = 0x01#8) :
    b = encConfig (decConfig b) ∨ DiffersInAlternateFormat b (encConfig (decConfig b)) := by
  have henc := encConfig_decConfig hl h0
  have hlast : b = b.take 533 ++ [byteField b 533] := by
    have hlt : 533 < b.length := by rw [hl]; decide
    conv_lhs => rw [← List.take_append_drop 533 b]
    rw [List.drop_eq_getElem_cons hlt, List.drop_eq_nil_of_le (by rw [hl]), byteField, List.getD_eq_getElem _ _ hlt]
  generalize byteField b 533 = alt at henc hlast
  rcases (by bv_omega : alt = 0 ∨ alt = 1 ∨ 2 ≤ alt.toNat) with rfl | rfl | halt
  · exact .inl (hlast.trans henc.symm)
  · exact .inl (hlast.trans henc.symm)
  · have hne : (alt != 0) = true := by
      rw [bne_iff_ne]
      rintro rfl
      cases halt
    rw [hne, if_pos rfl] at henc
    exact .inr ⟨_, alt, halt, hlast, henc⟩

/-- A body that decodes to a StatusMessage is its encoding. -/
theorem eq_encStatus_wordField {b : List Byte} (hl : b.length = statusLen) (h0 : byteField b 0 = 0x02#8) :
    b = encStatus (wordField b 1) := by
  rw [encStatus, leBytes_wordField (by rw [hl]), ← h0]
  cases b with
  | nil => cases hl
  | cons x xs => exact congrArg (x :: ·) (List.take_of_length_le (Nat.le_of_succ_le_succ hl.le)).symm

/-- What `dec` reads as a message is the message's encoding, but for a ConfigureMessage's `alternate_format` byte 2 to 255
(R122, R126). -/
theorem eq_encMsg_of_decMsg {b : List Byte} {m : Msg} (h : decMsg b = some m) :
    b = encMsg m ∨ (∃ c, m = .configure c) ∧ DiffersInAlternateFormat b (encMsg m) := by
  unfold decMsg at h
  split at h
  · next hc =>
    cases h
    exact (eq_encConfig_decConfig_or hc.1 hc.2).imp_right fun hd => ⟨⟨_, rfl⟩, hd⟩
  · split at h
    · next hs =>
      cases h
      exact .inl (eq_encStatus_wordField hs.1 hs.2)
    · cases h

/-- A body whose length and first byte do not agree on a kind is no message (R122). -/
theorem decMsg_eq_none {b : List Byte} (hc : ¬(b.length = 534 ∧ b[0]? = some 1))
    (hs : ¬(b.length = 5 ∧ b[0]? = some 2)) : decMsg b = none := by
  have hbyte {n : Nat} (hl : b.length = n + 1) {k : Byte} (h0 : byteField b 0 = k) : b[0]? = some k := by
    cases b with
    | nil => cases hl
    | cons x xs => exact congrArg some h0
  rw [decMsg, if_neg fun h => hc ⟨h.1, hbyte h.1 h.2⟩, if_neg fun h => hs ⟨h.1, hbyte h.1 h.2⟩]

/-! ### Queue operands -/

@[simp] theorem decQueue_encQueue (q : QueueId) : decQueue (encQueue q) = some q := by cases q <;> rfl

theorem eq_encQueue_of_decQueue {b : Byte} {q : QueueId} (h : decQueue b = some q) : b = encQueue q := by
  unfold decQueue at h
  split at h
  · cases h; assumption
  · split at h <;> cases h
    assumption

/-- The operands 2 to 255 name no queue (R138). -/
theorem decQueue_eq_none {b : Byte} (h : 2 ≤ b.toNat) : decQueue b = none := by
  rw [decQueue, if_neg (by rintro rfl; cases h), if_neg (by rintro rfl; exact absurd h (by decide))]

theorem exists_decQueue {b : Byte} (h : b.toNat < 2) : ∃ q, decQueue b = some q := by
  rcases (by bv_omega : b = 0 ∨ b = 1) with rfl | rfl
  · exact ⟨.inbound, rfl⟩
  · exact ⟨.outbound, rfl⟩

/-! ### Frames -/

/-- A byte shifted left by one, with a bit in the place that is free (R130, R131). -/
theorem frame_toNat (d : Byte) {b : BitVec 10} (hb : b.toNat < 2) :
    ((d.setWidth 10 <<< 1) ||| b).toNat = 2 * d.toNat + b.toNat := by
  have hd := d.isLt
  have hshift : (d.setWidth 10 <<< 1).toNat = 2 ^ 1 * d.toNat := by
    simp only [BitVec.toNat_shiftLeft, BitVec.toNat_setWidth, Nat.shiftLeft_eq]
    omega
  rw [BitVec.toNat_or, hshift, ← Nat.two_pow_add_eq_or_of_lt hb, pow_one]

theorem frameValueA_toNat (d : Byte) : (frameValueA d).toNat = 2 * d.toNat + 1 :=
  frame_toNat d (by decide)

theorem frameValueB_toNat (d : Byte) (p : Bool) : (frameValueB d p).toNat = 2 * d.toNat + if p then 1 else 0 := by
  cases p
  · exact frame_toNat d (by decide)
  · exact frame_toNat d (by decide)

/-- Bits 8 to 1 of a frame are its byte (R130, R131). -/
theorem extractLsb'_eq_of_bits {v : BitVec 10} {d : Byte} (h : ∀ i < 8, v.getLsbD (i + 1) = d.getLsbD i) :
    v.extractLsb' 1 8 = d := by
  ext i hi
  rw [BitVec.getElem_extractLsb', Nat.add_comm, h i hi, BitVec.getLsbD_eq_getElem hi]

theorem decodeFrame_frameValueA (d : Byte) : decodeFrame true (frameValueA d) = .ok (.frameA d) := by
  obtain ⟨hstart, hstop, hbyte⟩ := Machine.frameValueA_bits d
  rw [decodeFrame, hstart, hstop, extractLsb'_eq_of_bits hbyte]
  rfl

theorem decodeFrame_frameValueB (d : Byte) (p : Bool) : decodeFrame false (frameValueB d p) = .ok (.frameB d p) := by
  obtain ⟨hstart, hparity, hbyte⟩ := Machine.frameValueB_bits d p
  rw [decodeFrame, hstart, hparity, extractLsb'_eq_of_bits hbyte]
  rfl

/-- Settles O20: the two frames as numbers, and their start bit. -/
theorem framesAreTheSpecPatterns : Obligations.FramesAreTheSpecPatterns := fun d p =>
  ⟨frameValueA d, frameValueB d p, rfl, rfl, frameValueA_toNat d, frameValueB_toNat d p, (Machine.frameValueA_bits d).1,
    (Machine.frameValueB_bits d p).1⟩

end Sys2Proof

/-! SUPPORT. Transaction streams: the bytes of one transaction are a front whose length its own first bytes announce, and
decoding takes exactly that front (30_encoding.md R136, R137). -/

namespace Sys2Proof

/-! ### The length a stream announces -/

/-- Only the op code, and in PUSH the length field, say how long the transaction is (R137). -/
theorem transactionLength_append {front : List Byte} (hne : front ≠ [])
    (h : (byteField front 0).toNat = 3 → 4 ≤ front.length) (rest : List Byte) :
    transactionLength (front ++ rest) = transactionLength front := by
  have hop : byteField (front ++ rest) 0 = byteField front 0 := by
    obtain ⟨op, tail, rfl⟩ := List.exists_cons_of_ne_nil hne
    rfl
  unfold transactionLength
  rw [hop]
  split
  · rfl
  · next h3 => rw [leField_append_left (h h3)]
  · rfl
  · rfl
  · rfl

theorem four_le_transactionLength {bs : List Byte} (h : (byteField bs 0).toNat = 3) : 4 ≤ transactionLength bs := by
  unfold transactionLength
  rw [h]
  exact Nat.le_add_right 4 _

theorem transactionLength_pos (bs : List Byte) : 0 < transactionLength bs := by
  unfold transactionLength
  split <;> omega

/-- The bytes are as long as their own first bytes announce (R136, R137). -/
def AnnouncesItsLength (front : List Byte) : Prop :=
  front ≠ [] ∧ front.length = transactionLength front

theorem AnnouncesItsLength.append {front : List Byte} (h : AnnouncesItsLength front) (rest : List Byte) :
    transactionLength (front ++ rest) = front.length := by
  rw [h.2]
  exact transactionLength_append h.1 (fun h3 => h.2 ▸ four_le_transactionLength h3) rest

/-- The bytes a stream announces announce as many. -/
theorem announcesItsLength_take {bs : List Byte} (h : transactionLength bs ≤ bs.length) :
    AnnouncesItsLength (bs.take (transactionLength bs)) := by
  have hpos := transactionLength_pos bs
  have hlen : (bs.take (transactionLength bs)).length = transactionLength bs := List.length_take_of_le h
  have hne : bs.take (transactionLength bs) ≠ [] := List.ne_nil_of_length_pos (hpos.trans_eq hlen.symm)
  have hop : byteField (bs.take (transactionLength bs)) 0 = byteField bs 0 := by
    cases bs with
    | nil => rw [List.take_nil]
    | cons op tail => rw [← Nat.succ_pred_eq_of_pos hpos]; rfl
  have h3 : (byteField (bs.take (transactionLength bs)) 0).toNat = 3 → 4 ≤ (bs.take (transactionLength bs)).length := by
    rw [hop, hlen]
    exact four_le_transactionLength
  have hann := transactionLength_append hne h3 (bs.drop (transactionLength bs))
  rw [List.take_append_drop] at hann
  exact ⟨hne, hlen.trans hann⟩

/-- The encoding of a well-formed transaction has the length R136 gives it. -/
theorem announcesItsLength_of_encode {i : Instr} {bs : List Byte} (hw : i.wellFormed = true)
    (h : encode i = .transaction bs) : AnnouncesItsLength bs := by
  open Laws.EncodedLength in
  cases i <;> cases h
  case reset => exact reset hw
  case fill n => exact fill n hw
  case ctlService => exact ctlService hw
  case push q m => exact push q m hw
  case pop q => exact pop q hw
  case doorbellTake q => exact doorbellTake q hw

/-- A PUSH's length field covers a body of any length it can hold (R136). -/
theorem announcesItsLength_push (q : Byte) {body : List Byte} (h : body.length < 65536) :
    AnnouncesItsLength (3 :: q :: leBytes 2 body.length ++ body) := by
  have hfield : leField (3 :: q :: leBytes 2 body.length ++ body) 2 2 = body.length :=
    (leField_append [3, q] _ body rfl (leBytes_length 2 _)).trans
      ((leValue_leBytes 2 _).trans (Nat.mod_eq_of_lt h))
  refine ⟨List.cons_ne_nil _ _, ?_⟩
  show _ = 4 + leField (3 :: q :: leBytes 2 body.length ++ body) 2 2
  rw [hfield, List.length_append, List.length_cons, List.length_cons, leBytes_length]

/-- An illegal op code is one byte (log 13). -/
theorem announcesItsLength_badOp {op : Byte} (h : 6 ≤ op.toNat) : AnnouncesItsLength [op] := by
  obtain ⟨n, hn⟩ := Nat.exists_eq_add_of_le' h
  have hop : (byteField [op] 0).toNat = n + 6 := hn
  refine ⟨List.cons_ne_nil _ _, ?_⟩
  rw [transactionLength, hop]
  rfl

/-- POP and DOORBELL_TAKE are two bytes, whatever the operand (R136). -/
theorem announcesItsLength_queueOp {op : Byte} (h : op = 4 ∨ op = 5) (qb : Byte) : AnnouncesItsLength [op, qb] := by
  rcases h with rfl | rfl <;> exact ⟨List.cons_ne_nil _ _, rfl⟩

/-! ### Decoding a stream -/

section Front
variable {front : List Byte} (h : AnnouncesItsLength front) (rest : List Byte)
include h

/-- A stream with such a front holds a whole transaction. -/
theorem AnnouncesItsLength.not_short : ¬(front ++ rest).length < max 1 (transactionLength (front ++ rest)) := by
  have hpos := List.length_pos_of_ne_nil h.1
  rw [h.append rest, List.length_append]
  omega

/-- Decoding a stream is decoding its front, whatever follows. -/
theorem decodeTransaction_append_ok {i : Instr} (hi : decWhole front = .ok i) :
    decodeTransaction (front ++ rest) = .ok i rest := by
  rw [decodeTransaction, if_neg (h.not_short rest), h.append rest, List.take_left, List.drop_left, hi]

theorem decodeTransaction_append_error {r : Reject} (hr : decWhole front = .error r) :
    decodeTransaction (front ++ rest) = .rejected r rest := by
  rw [decodeTransaction, if_neg (h.not_short rest), h.append rest, List.take_left, List.drop_left, hr]

end Front

/-- A stream that decodes has such a front, and the instruction is the front's. -/
theorem exists_front_of_decodeTransaction {bs rest : List Byte} {i : Instr} (h : decodeTransaction bs = .ok i rest) :
    ∃ front, bs = front ++ rest ∧ AnnouncesItsLength front ∧ decWhole front = .ok i := by
  unfold decodeTransaction at h
  split at h
  · cases h
  · next hlong =>
    split at h <;> cases h
    next hi => exact ⟨_, (List.take_append_drop _ bs).symm, announcesItsLength_take (by omega), hi⟩

/-! ### A whole transaction -/

/-- The op codes 6 to 255 are illegal (R138). -/
theorem decWhole_badOp {op : Byte} (h : 6 ≤ op.toNat) (tail : List Byte) :
    decWhole (op :: tail) = .error .badOp := by
  obtain ⟨n, hn⟩ := Nat.exists_eq_add_of_le' h
  have hop : (byteField (op :: tail) 0).toNat = n + 6 := hn
  rw [decWhole, hop]
  rfl

section Operand
variable {qb : Byte} {tail : List Byte}

/-- PUSH, POP and DOORBELL_TAKE with an operand that names no queue (R138); in PUSH whatever the body is (R351). -/
theorem decWhole_badQueue {op : Byte} (hop : op = 3 ∨ op = 4 ∨ op = 5) (h : decQueue qb = none) :
    decWhole (op :: qb :: tail) = .error .badQueue := by
  rcases hop with rfl | rfl | rfl <;> simp [decWhole, byteField, h]

theorem decWhole_pushBadMessage {q : QueueId} (hq : decQueue qb = some q) (hm : decMsg (tail.drop 2) = none) :
    decWhole (3 :: qb :: tail) = .error .badMessage := by
  simp [decWhole, byteField, hq, hm]

theorem decWhole_push {q : QueueId} {m : Msg} (hq : decQueue qb = some q) (hm : decMsg (tail.drop 2) = some m) :
    decWhole (3 :: qb :: tail) = .ok (.push q m) := by
  simp [decWhole, byteField, hq, hm]

end Operand

/-- The encoding of a well-formed transaction decodes to it. -/
theorem decWhole_of_encode {i : Instr} {bs : List Byte} (hw : i.wellFormed = true) (h : encode i = .transaction bs) :
    decWhole bs = .ok i := by
  cases i <;> cases h
  case reset => rfl
  case fill n =>
    have hfield := wordField_append [0x01#8] [] n rfl
    rw [List.append_nil] at hfield
    exact congrArg (Except.ok ∘ Instr.fill) hfield
  case ctlService => rfl
  case push q m =>
    refine decWhole_push (decQueue_encQueue q) ?_
    exact (congrArg decMsg (List.drop_left' (leBytes_length 2 _))).trans (decMsg_encMsg hw)
  case pop q => cases q <;> rfl
  case doorbellTake q => cases q <;> rfl

/-- Decoding a stream takes exactly the bytes of the transaction at its front (R137). -/
theorem decodeTransaction_encode {i : Instr} {bs : List Byte} (hw : i.wellFormed = true)
    (h : encode i = .transaction bs) (rest : List Byte) : decodeTransaction (bs ++ rest) = .ok i rest :=
  decodeTransaction_append_ok (announcesItsLength_of_encode hw h) rest (decWhole_of_encode hw h)

/-- The instruction is the PUSH of a ConfigureMessage, and its bytes are its encoding but for an `alternate_format` byte 2
to 255 (R126). -/
def IsPushDifferingInAlternateFormat (i : Instr) (front enc : List Byte) : Prop :=
  (∃ q c, i = .push q (.configure c)) ∧ DiffersInAlternateFormat front enc

/-- A PUSH whose body decodes is its encoding, but for an `alternate_format` byte 2 to 255. -/
theorem eq_encPush_of_decMsg {qb : Byte} {tail : List Byte} {q : QueueId} {m : Msg}
    (h : AnnouncesItsLength (3 :: qb :: tail)) (hq : decQueue qb = some q) (hm : decMsg (tail.drop 2) = some m) :
    3 :: qb :: tail = encPush q m ∨ IsPushDifferingInAlternateFormat (.push q m) (3 :: qb :: tail) (encPush q m) := by
  have hlen : tail.length + 2 = 4 + leValue (tail.take 2) := h.2
  have hfield : leBytes 2 (tail.drop 2).length = tail.take 2 := by
    have h2 : (tail.take 2).length = 2 := by rw [List.length_take]; omega
    have hbody : (tail.drop 2).length = leValue (tail.take 2) := by rw [List.length_drop]; omega
    have hwrite := leBytes_leValue (tail.take 2)
    rwa [h2, ← hbody] at hwrite
  have hfront : 3 :: qb :: tail = (3 :: encQueue q :: leBytes 2 (tail.drop 2).length) ++ tail.drop 2 := by
    rw [eq_encQueue_of_decQueue hq, hfield, List.cons_append, List.cons_append, List.take_append_drop]
  rcases eq_encMsg_of_decMsg hm with hbody | ⟨⟨c, rfl⟩, hbody⟩
  · left
    rw [hfront, hbody]
    rfl
  · right
    rw [hfront]
    refine ⟨⟨q, c, rfl⟩, ?_⟩
    have hd := hbody.append_left (3 :: encQueue q :: leBytes 2 (tail.drop 2).length)
    rw [hbody.length_eq] at hd ⊢
    exact hd

/-- Bytes that begin with an op code. -/
theorem exists_tail_of_op {front : List Byte} {op : Byte} (hne : front ≠ [])
    (h : (byteField front 0).toNat = op.toNat) : ∃ tail, front = op :: tail := by
  obtain ⟨first, tail, rfl⟩ := List.exists_cons_of_ne_nil hne
  exact ⟨tail, by rw [← BitVec.eq_of_toNat_eq h]; rfl⟩

/-- Whatever decodes as a whole transaction is the encoding of what it gives, but for an `alternate_format` byte 2 to
255. -/
theorem encode_of_decWhole {front : List Byte} {i : Instr} (h : AnnouncesItsLength front) (hi : decWhole front = .ok i) :
    ∃ enc, encode i = .transaction enc ∧ (front = enc ∨ IsPushDifferingInAlternateFormat i front enc) := by
  unfold decWhole at hi
  split at hi
  · next hop =>
    cases hi
    obtain ⟨tail, rfl⟩ := exists_tail_of_op (op := 0) h.1 hop
    obtain rfl : tail = [] := List.length_eq_zero_iff.mp (Nat.succ.inj h.2)
    exact ⟨_, rfl, .inl rfl⟩
  · next hop =>
    cases hi
    obtain ⟨tail, rfl⟩ := exists_tail_of_op (op := 1) h.1 hop
    have hlen : tail.length = 4 := Nat.succ.inj h.2
    refine ⟨_, rfl, .inl ?_⟩
    rw [leBytes_wordField (by rw [List.length_cons, hlen])]
    exact congrArg (1 :: ·) (List.take_of_length_le hlen.le).symm
  · next hop =>
    cases hi
    obtain ⟨tail, rfl⟩ := exists_tail_of_op (op := 2) h.1 hop
    obtain rfl : tail = [] := List.length_eq_zero_iff.mp (Nat.succ.inj h.2)
    exact ⟨_, rfl, .inl rfl⟩
  · next hop =>
    obtain ⟨tail, rfl⟩ := exists_tail_of_op (op := 3) h.1 hop
    have hlen : 4 ≤ tail.length + 1 := (four_le_transactionLength hop).trans_eq h.2.symm
    obtain ⟨qb, tail, rfl⟩ := List.exists_cons_of_length_pos (l := tail) (by omega)
    split at hi
    · cases hi
    · next hq =>
      split at hi
      · cases hi
      · next hm =>
        cases hi
        exact ⟨_, rfl, eq_encPush_of_decMsg h hq hm⟩
  · next hop =>
    obtain ⟨tail, rfl⟩ := exists_tail_of_op (op := 4) h.1 hop
    obtain ⟨qb, rfl⟩ := List.length_eq_one_iff.mp (Nat.succ.inj h.2)
    split at hi <;> cases hi
    next hq => exact ⟨_, rfl, .inl (by rw [← eq_encQueue_of_decQueue hq]; rfl)⟩
  · next hop =>
    obtain ⟨tail, rfl⟩ := exists_tail_of_op (op := 5) h.1 hop
    obtain ⟨qb, rfl⟩ := List.length_eq_one_iff.mp (Nat.succ.inj h.2)
    split at hi <;> cases hi
    next hq => exact ⟨_, rfl, .inl (by rw [← eq_encQueue_of_decQueue hq]; rfl)⟩
  · cases hi

/-- Settles O54: the front a stream decodes from announces its own length, so a longer stream has the same front; and each
op code's bytes are read back by the laws of their fields. -/
theorem streamDecodingIsExact : Obligations.StreamDecodingIsExact := by
  refine ⟨fun i bs rest hw henc => decodeTransaction_encode hw henc rest, fun i bs rest h => ?_⟩
  obtain ⟨front, rfl, hann, hi⟩ := exists_front_of_decodeTransaction h
  obtain ⟨enc, henc, hfront⟩ := encode_of_decWhole hann hi
  refine ⟨(Machine.decWhole_ok hi).2, front, enc, henc, rfl, hfront.imp_right ?_⟩
  rintro ⟨⟨q, c, rfl⟩, pre, alt, halt, hpre, hpre'⟩
  exact ⟨q, c, pre, alt, rfl, halt, hpre, hpre'⟩

theorem decode_transaction {i : Instr} {bs : List Byte} (hw : i.wellFormed = true) (h : encode i = .transaction bs) :
    decode (encode i) = .ok i := by
  have hstream := decodeTransaction_encode hw h []
  rw [List.append_nil] at hstream
  rw [h, decode, hstream]

/-- Settles O53: a transaction's stream is its own encoding with nothing after it; bodies and frames by their own laws. -/
theorem decodeUndoesEncode : Obligations.DecodeUndoesEncode := by
  intro i hw henc
  cases i with
  | msgConfigure c =>
    show decodeBody (encMsg (.configure c)) = _
    rw [decodeBody, decMsg_encMsg (m := .configure c) hw]
  | msgStatus n =>
    show decodeBody (encMsg (.status n)) = _
    rw [decodeBody, decMsg_encMsg (m := .status n) hw]
  | frameA d => exact decodeFrame_frameValueA d
  | frameB d p => exact decodeFrame_frameValueB d p
  | reset | fill n | ctlService | push q m | pop q | doorbellTake q => exact decode_transaction hw rfl
  | _ => exact absurd rfl henc

/-- Settles O55: the decoder run on the twelve words. -/
theorem specWordsDecode : Obligations.SpecWordsDecode := by
  unfold Obligations.SpecWordsDecode
  decide

end Sys2Proof

/-! SUPPORT. The turn of a port: what a step does with the bytes at the front of the port, decoded or refused
(30_encoding.md R136, R137, R138, 60_exceptions.md R344). -/

namespace Sys2Proof.Machine

section Turn
variable {s : State} {a : Agent} {turns : List Turn} {rest : List Byte}

theorem fetch_of_decoded {i : Instr} (ht : s.io.turns = .port a :: turns)
    (hd : decodeTransaction (portOf s.io.ports a) = .ok i rest) (hf : s.faultMark = none ∨ i = .reset) :
    fetch s = .issued i (s.issue a rest turns) := by
  unfold fetch
  rw [ht]
  simp only [hd]
  rcases hf with hf | hi
  · simp [unlessHalted, hf]
  · exact if_pos hi

theorem fetch_of_rejected {r : Reject} (ht : s.io.turns = .port a :: turns)
    (hd : decodeTransaction (portOf s.io.ports a) = .rejected r rest) (hf : s.faultMark = none) :
    fetch s = .settled ((s.issue a rest turns).refuse (refusalFor r)) := by
  unfold fetch
  rw [ht]
  simp [hd, unlessHalted, hf]

theorem step_of_decoded {i : Instr} (ht : s.io.turns = .port a :: turns)
    (hd : decodeTransaction (portOf s.io.ports a) = .ok i rest) (hf : s.faultMark = none ∨ i = .reset) :
    step s = keepWaiting s (exec i (s.issue a rest turns)) := by
  rw [step, fetch_of_decoded ht hd hf]

/-- A transaction that does not wait for a lock leaves the state its instruction answers. -/
theorem keepWaiting_of_ne {t : State} (h : t.io.response ≠ .waiting) : keepWaiting s (.next t) = .next t :=
  if_neg h

end Turn

/-- Settles O50: the fetch issues what decoding gives, and decoding gives well-formed transactions only. -/
theorem stepRunsTheDecodedTransaction : Obligations.StepRunsTheDecodedTransaction := by
  intro s a turns i rest ht hd hf
  obtain ⟨hi, hw⟩ := decodeTransaction_ok hd
  have hstep := step_of_decoded ht hd hf
  refine ⟨hw, hi, hstep, fun t hexec hwait => ?_⟩
  rw [hstep, hexec, keepWaiting_of_ne hwait]

/-! ### Illegal transactions -/

theorem decodeTransaction_badOp {op : Byte} (h : 6 ≤ op.toNat) (rest : List Byte) :
    decodeTransaction (op :: rest) = .rejected .badOp rest :=
  decodeTransaction_append_error (announcesItsLength_badOp h) rest (decWhole_badOp h [])

/-- POP and DOORBELL_TAKE with an illegal queue operand. -/
theorem decodeTransaction_badQueue {op q : Byte} (hop : op = 4 ∨ op = 5) (hq : 2 ≤ q.toNat) (rest : List Byte) :
    decodeTransaction (op :: q :: rest) = .rejected .badQueue rest :=
  decodeTransaction_append_error (announcesItsLength_queueOp hop q) rest
    (decWhole_badQueue (.inr hop) (decQueue_eq_none hq))

theorem decodeTransaction_pushBadQueue {q : Byte} {body : List Byte} (hl : body.length < 65536) (hq : 2 ≤ q.toNat)
    (rest : List Byte) :
    decodeTransaction (3 :: q :: leBytes 2 body.length ++ body ++ rest) = .rejected .badQueue rest :=
  decodeTransaction_append_error (announcesItsLength_push q hl) rest
    (decWhole_badQueue (.inl rfl) (decQueue_eq_none hq))

theorem decodeTransaction_pushBadMessage {q : Byte} {body : List Byte} (hl : body.length < 65536) (hq : q.toNat < 2)
    (hm : decMsg body = none) (rest : List Byte) :
    decodeTransaction (3 :: q :: leBytes 2 body.length ++ body ++ rest) = .rejected .badMessage rest := by
  obtain ⟨x, hx⟩ := exists_decQueue hq
  refine decodeTransaction_append_error (announcesItsLength_push q hl) rest (decWhole_pushBadMessage hx ?_)
  exact (congrArg decMsg (List.drop_left' (leBytes_length 2 _))).trans hm

/-- Settles O46: each of the four streams is rejected by name, and a refusal writes the mark and the outcome only. -/
theorem illegalTransactionsAreRefused : Obligations.IllegalTransactionsAreRefused := by
  rintro s a turns bs hf ht hbs r h
  have hreject : ∃ w rest, decodeTransaction bs = .rejected w rest ∧ refusalFor w = r := by
    rcases h with ⟨rfl, op, rest, rfl, hop⟩ | ⟨rfl, op, q, rest, rfl, hop, hq⟩ | ⟨rfl, q, body, rest, rfl, hl, hq⟩ |
      ⟨rfl, q, body, rest, rfl, hl, hq, hc, hs⟩
    · exact ⟨_, _, decodeTransaction_badOp hop rest, rfl⟩
    · exact ⟨_, _, decodeTransaction_badQueue hop hq rest, rfl⟩
    · exact ⟨_, _, decodeTransaction_pushBadQueue hl hq rest, rfl⟩
    · exact ⟨_, _, decodeTransaction_pushBadMessage hl hq (decMsg_eq_none hc hs) rest, rfl⟩
  obtain ⟨w, rest, hd, rfl⟩ := hreject
  rw [← hbs] at hd
  refine ⟨_, step_of_settled (fetch_of_rejected ht hd hf), ?_, rfl, rfl, rfl, rfl, rfl, rfl, rfl, rfl, hf, rfl, rfl⟩
  rw [refuse_refusalMark, issue_refusalMark]
  cases s.refusalMark <;> rfl

end Sys2Proof.Machine

/-! SUPPORT. Scripts: a transaction that arrives at its agent's port is the next to run, and the two scripts that go
through a queue, `host.configure` and `host.drain` (30_encoding.md R140, R141). -/

namespace Sys2Proof.Machine

/-! ### One transaction -/

theorem encode_of_isTransaction {i : Instr} (h : isTransaction i = true) :
    encode i = .transaction (transactionBytes i) := by
  cases i, h using transaction_cases <;> rfl

/-- A well-formed transaction that arrives and does not wait for a lock: the step is the instruction's answer, and ports
and turns are as they were before it came. -/
theorem step_arrive {i : Instr} (hi : isTransaction i = true) (hw : i.wellFormed = true) (a : Agent) {s t : State}
    (hf : s.faultMark = none) (hr : resultOf i ((s.issuedBy a).respond .none) = t) (hwait : t.io.response ≠ .waiting) :
    step (s.arrive a i) = .next t := by
  have hport : portOf (s.arrive a i).io.ports a = transactionBytes i ++ portOf s.io.ports a :=
    portOf_withPort a _ s.io.ports
  have hissue : (s.arrive a i).issue a (portOf s.io.ports a) s.io.turns = (s.issuedBy a).respond .none := by
    have hports : withPort (withPort s.io.ports a (transactionBytes i ++ portOf s.io.ports a)) a
        (portOf s.io.ports a) = s.io.ports := by
      cases a <;> rfl
    unfold State.issue State.arrive State.issuedBy State.respond
    rw [hports]
  have hd := decodeTransaction_encode hw (encode_of_isTransaction hi) (portOf s.io.ports a)
  rw [← hport] at hd
  rw [step_of_decoded (turns := s.io.turns) rfl hd (.inl hf), hissue, exec_eq_resultOf, hr, keepWaiting_of_ne hwait]

/-- What a queue holds is read from the parameters and the queue alone. -/
theorem Contents.congr {s t : State} {x : QueueId} {ms : List Msg} (h : Contents s x ms) (params : t.params = s.params)
    (queue : t.queue x = s.queue x) : Contents t x ms := by
  obtain ⟨hu, hr⟩ := h
  rw [← params, ← queue] at hu hr
  exact ⟨hu, hr⟩

/-! ### host.configure -/

section Push
variable {s : State} {x : QueueId} {m : Msg}

/-- PUSH by the producer onto a queue that is free and has room (R174, R176). -/
theorem resultOf_push_of_room (ha : s.io.issuer = producer x) (hlock : (s.queue x).lock = .free)
    (hroom : (encRecord m).length ≤ ringCapacity s.params x - (s.queue x).used) :
    resultOf (.push x m) s =
      (s.setQueue x ((s.queue x).commit (ringCapacity s.params x) (encRecord m))).respond .ok := by
  rw [resultOf_push, asAgent_of_issuer s ha]
  rcases pushQueue_cases x m s.io.issuer s with ⟨⟨b, hb⟩, _⟩ | ⟨_, hfull, _⟩ | ⟨_, _, h⟩
  · rw [hlock] at hb
    cases hb
  · omega
  · rw [h]
    rfl

/-- A committed record is at the end of what the queue holds, and within the capacity. -/
theorem contents_commit {ms : List Msg} (hl : s.params.legal) (hq : QueueInv (ringCapacity s.params x) (s.queue x))
    (hm : m.wellFormed = true) (h : Contents s x ms)
    (hroom : (encRecord m).length ≤ ringCapacity s.params x - (s.queue x).used) :
    Contents (s.setQueue x ((s.queue x).commit (ringCapacity s.params x) (encRecord m))) x (ms ++ [m]) := by
  have hle := ringCapacity_le hl x
  have hused := h.used
  have hpos : 0 < (encRecord m).length := by simp [recHdr]
  refine ⟨?_, ?_⟩
  · rw [setQueue_queue, setQueue_params, commit_used (by omega)]
    omega
  · rw [setQueue_queue, setQueue_params]
    exact commit_holds (ringCapacity_dvd hl x) (by omega) hq.ringWf hm h.records (by omega)

/-- The producer's PUSH, as bytes at its port, onto a queue with room: the queue holds the message last. -/
theorem step_push_of_room {ms : List Msg} (hf : s.faultMark = none) (hl : s.params.legal)
    (hq : QueueInv (ringCapacity s.params x) (s.queue x)) (hm : m.wellFormed = true) (h : Contents s x ms)
    (hroom : (encRecord m).length ≤ ringCapacity s.params x - (s.queue x).used) :
    ∃ q, step (s.arrive (producer x) (.push x m)) = .next (((s.issuedBy (producer x)).setQueue x q).respond .ok) ∧
      Contents (s.setQueue x q) x (ms ++ [m]) := by
  refine ⟨_, step_arrive (i := .push x m) rfl hm _ hf ?_ (by simp), contents_commit hl hq hm h hroom⟩
  have hres := resultOf_push_of_room (s := (s.issuedBy (producer x)).respond .none) (m := m) rfl
    (x := x) (by cases x <;> exact hq.lock) (by cases x <;> exact hroom)
  rw [hres]
  cases x <;> rfl

end Push

theorem deliver_respond (m : Msg) (s : State) (r : Response) : deliver m (s.respond r) = deliver m s := by
  cases m <;> rfl

/-- CTL's service, as bytes at its port, of an IN that holds `m` first (R290): the doorbell is taken, `m` is delivered, and
the rest stays. -/
theorem step_ctlService_of_contents {s : State} {m : Msg} {ms : List Msg} (hf : s.faultMark = none)
    (h : Contents s .inbound (m :: ms)) :
    ∃ q, step (s.arrive .ctl .ctlService) = .next (deliver m ((s.issuedBy .ctl).setQueue .inbound q)) ∧
      q.dbPending = false ∧ Contents (s.setQueue .inbound q) .inbound ms := by
  have hbell : Contents (setDoorbell .inbound false ((s.issuedBy .ctl).respond .none)) .inbound (m :: ms) :=
    ⟨h.used, h.records⟩
  obtain ⟨hpop, hrest⟩ := popQueue_of_contents hbell
  refine ⟨_, step_arrive rfl rfl _ hf ?_ ?_, ?_, hrest.congr rfl rfl⟩
  · rw [resultOf_ctlService, asAgent_of_issuer (a := .ctl) _ rfl, serviceControl, hpop]
    exact deliver_respond m ((s.issuedBy .ctl).setQueue .inbound _) .none
  · cases m <;> simp [deliver]
  · rfl

/-- The service of a ConfigureMessage gives the Config, Cursor and divider it asks for (R292, R297). -/
theorem deliver_configure_appliedBy {c : ConfigMsg} {s u : State} (hc : c.payload.length = 512)
    (hs : u.synth = s.synth) : AppliedBy c s (deliver (.configure c) u) where
  configured := rfl
  payload i hi := by
    show (if i < payloadSize then readByte (bytesFrom 0 (c.payload.take payloadSize)) i else 0) = _
    rw [if_pos hi, List.take_of_length_le (by rw [hc]), ← Nat.zero_add i, readByte_bytesFrom, Nat.zero_add]
  samplesPerBit := rfl
  phaseIncMark := rfl
  phaseIncSpace := rfl
  bandwidthScale := rfl
  repeatCount := by
    have := c.repeats.isLt
    exact Nat.mod_eq_of_lt (by omega)
  alternateFormat := rfl
  cursor := rfl
  synth := by rw [← hs]; rfl

/-- `host.configure` is a PUSH by HOST and then a service by CTL (R141). -/
theorem runScript_hostConfigure {c : ScriptMsg} {s u t : State}
    (hpush : step (s.arrive .host (.push .inbound c.message)) = .next u)
    (hservice : step (u.arrive .ctl .ctlService) = .next t) : runScript [.hostConfigure c] s = .next t := by
  simp only [runScript, List.flatMap_cons, List.flatMap_nil, Stmt.expand, List.append_nil, runExpansions, Expansion.run,
    hpush, hservice, andThen]

/-- Settles O59: the PUSH puts the one record into IN, and the service takes that record out again and applies it. -/
theorem configurationSentIsTheOneApplied : Obligations.ConfigurationSentIsTheOneApplied := by
  intro c m s hb hf hin hcap hmsg hlen
  have hw : m.wellFormed = true := by simpa [ConfigMsg.wellFormed] using hlen
  have hroom : (encRecord (.configure m)).length ≤ ringCapacity s.params .inbound - s.qIn.used := by
    have hzero : s.qIn.used = 0 := used_of_contents_nil hin
    rw [encRecord_length, encMsg, encConfig_length hw, hzero]
    exact hcap
  obtain ⟨q, hpush, hpushed⟩ := step_push_of_room (m := .configure m) hf hb.legal hb.qIn hw hin hroom
  obtain ⟨q', hservice, hbell, hempty⟩ := step_ctlService_of_contents
    (s := ((s.issuedBy .host).setQueue .inbound q).respond .ok) hf (hpushed.congr rfl rfl)
  rw [show producer .inbound = .host from rfl, ← hmsg] at hpush
  refine ⟨_, runScript_hostConfigure hpush hservice, deliver_configure_appliedBy hlen rfl, hempty.congr rfl rfl, hbell,
    ?_⟩
  simp [deliver, applyConfiguration, State.issuedBy, State.respond, hf]

/-! ### host.drain -/

/-- The state after a `POP` of OUT by HOST that handed back `m`. -/
def afterPop (m : Msg) (s : State) : State :=
  { s with
    qOut := { s.qOut with rd := s.qOut.rd + BitVec.ofNat 32 (encRecord m).length }
    io := { s.io with issuer := .host, response := .msg m } }

/-- The state after all of OUT is popped by HOST, and one pop more. -/
def drained (s : State) : State :=
  { s with
    qOut := { s.qOut with rd := s.qOut.wr }
    io := { s.io with issuer := .host, response := .empty } }

theorem drained_afterPop (m : Msg) (s : State) : drained (afterPop m s) = drained s := rfl

theorem contents_drained (s : State) : Contents (drained s) .outbound [] := by
  have hused : ((drained s).queue .outbound).used = 0 := by simp [drained, Queue.used]
  refine ⟨?_, by simp, ?_⟩
  · rw [hused]
    exact Nat.zero_le _
  · rw [hused]
    rfl

section Drain
variable {s : State}

theorem resultOf_pop_of_msg {x : QueueId} {m : Msg} {t : State} (ha : s.io.issuer = consumer x)
    (hp : popQueue x s = (.msg m, t)) : resultOf (.pop x) s = t.respond (.msg m) := by
  show s.asAgent _ _ = _
  rw [asAgent_of_issuer s ha, hp]

theorem resultOf_pop_of_used {x : QueueId} (ha : s.io.issuer = consumer x) (hu : (s.queue x).used = 0) :
    resultOf (.pop x) s = s.respond .empty := by
  have hp : popQueue x s = (.empty, s) := if_pos hu
  show s.asAgent _ _ = _
  rw [asAgent_of_issuer s ha, hp]

/-- HOST's POP, as bytes at its port, of an OUT that holds `m` first: `m` is handed back and the rest stays (R180). -/
theorem step_popOut_of_contents {m : Msg} {ms : List Msg} (hf : s.faultMark = none)
    (h : Contents s .outbound (m :: ms)) :
    step (s.arrive .host (.pop .outbound)) = .next (afterPop m s) ∧ Contents (afterPop m s) .outbound ms := by
  have hissued : Contents ((s.issuedBy .host).respond .none) .outbound (m :: ms) := h.congr rfl rfl
  obtain ⟨hpop, hrest⟩ := popQueue_of_contents hissued
  exact ⟨step_arrive rfl rfl _ hf (resultOf_pop_of_msg rfl hpop) (by simp [afterPop]), hrest.congr rfl rfl⟩

/-- An empty queue's counters are equal (R53). -/
theorem rd_eq_wr_of_used {q : Queue} (h : q.used = 0) : q.rd = q.wr := by
  have hwr := wr_eq_rd_add q
  rw [h] at hwr
  simpa using hwr.symm

theorem step_popOut_of_empty (hf : s.faultMark = none) (h : Contents s .outbound []) :
    step (s.arrive .host (.pop .outbound)) = .next (drained s) := by
  have hused : s.qOut.used = 0 := used_of_contents_nil h
  rw [drained, ← rd_eq_wr_of_used hused]
  exact step_arrive rfl rfl _ hf (resultOf_pop_of_used rfl hused) (by simp)

/-- A drain pops one message and goes on. -/
theorem repeatPop_succ {m : Msg} {ms : List Msg} (hf : s.faultMark = none) (h : Contents s .outbound (m :: ms))
    (fuel : Nat) : repeatUntilEmpty .host (.pop .outbound) (fuel + 1) s =
      repeatUntilEmpty .host (.pop .outbound) fuel (afterPop m s) := by
  rw [repeatUntilEmpty, (step_popOut_of_contents hf h).1, andThen]
  exact if_neg (by simp [afterPop])

end Drain

/-- The `k`-th pop of a drain hands back the `k`-th message. -/
theorem repeatPop_response {ms : List Msg} : ∀ {s : State} {k : Nat} {m : Msg}, s.faultMark = none →
    Contents s .outbound ms → ms[k]? = some m →
    ∃ u, repeatUntilEmpty .host (.pop .outbound) (k + 1) s = .next u ∧ u.io.response = .msg m := by
  induction ms with
  | nil =>
    intro s k m _ _ hk
    cases hk
  | cons m' ms ih =>
    intro s k m hf h hk
    rw [repeatPop_succ hf h]
    cases k with
    | zero =>
      cases hk
      exact ⟨_, rfl, rfl⟩
    | succ k => exact ih hf (step_popOut_of_contents hf h).2 hk

/-- A drain with more pops than messages ends in the drained state. -/
theorem repeatPop_drained {ms : List Msg} : ∀ {s : State} {fuel : Nat}, s.faultMark = none → Contents s .outbound ms →
    ms.length < fuel → repeatUntilEmpty .host (.pop .outbound) fuel s = .next (drained s) := by
  induction ms with
  | nil =>
    intro s fuel hf h hlt
    obtain ⟨fuel, rfl⟩ := Nat.exists_eq_add_of_lt hlt
    rw [repeatUntilEmpty, step_popOut_of_empty hf h, andThen]
    exact if_pos rfl
  | cons m ms ih =>
    intro s fuel hf h hlt
    obtain ⟨fuel, rfl⟩ := Nat.exists_eq_add_one.mpr (Nat.zero_lt_of_lt hlt)
    have hrest := (step_popOut_of_contents hf h).2
    rw [repeatPop_succ hf h, ih (s := afterPop m s) hf hrest (Nat.lt_of_succ_lt_succ hlt), drained_afterPop]

/-- A record is more than one byte long, so a queue holds at most as many messages as bytes. -/
theorem length_le_used_of_contents {s : State} {x : QueueId} {ms : List Msg} (h : Contents s x ms) :
    ms.length ≤ (s.queue x).used := by
  have hbytes := congrArg List.length h.records.2
  have hrecords := List.length_le_sum_of_one_le (ms.map fun m => (encRecord m).length)
    (List.forall_mem_map.mpr fun m _ => by rw [encRecord_length]; exact Nat.le_add_right_of_le (by decide))
  rw [ringRead_length, List.length_flatMap] at hbytes
  rwa [List.length_map, ← hbytes] at hrecords

theorem runScript_hostDrain {s t : State}
    (h : repeatUntilEmpty .host (.pop .outbound) ((s.queue .outbound).used + 1) s = .next t) :
    runScript [.hostDrain] s = .next t :=
  congrArg (andThen · .next) h

/-- Settles O60: by induction on the messages OUT holds, each pop takes the first and the next finds the rest. -/
theorem drainHandsBackEveryMessageInOrder : Obligations.DrainHandsBackEveryMessageInOrder := by
  intro ms s hf h
  have hrun {fuel : Nat} (hlt : ms.length < fuel) := repeatPop_drained hf h hlt
  exact ⟨fun k m hk => repeatPop_response hf h hk, drained s, hrun (Nat.lt_succ_self _),
    runScript_hostDrain (hrun (Nat.lt_succ_of_le (length_le_used_of_contents h))), contents_drained s, rfl⟩

end Sys2Proof.Machine

/-! SUPPORT. The queue transactions by the condition they meet: the rule of each outcome, and the FIFO they make of a
ring (40_queue.md R174, R176, R180, R184). -/

namespace Sys2Proof.Machine

/-! ### PUSH by its conditions -/

section PushRules
variable {s : State} {x : QueueId} {m : Msg}

theorem pushQueue_of_held {b : Agent} (hlock : (s.queue x).lock = .held b) (a : Agent) :
    pushQueue x m a s = (if a.triesAcquire then .busy else .waits, s) := by
  simp only [pushQueue, hlock]

theorem pushQueue_of_full (hlock : (s.queue x).lock = .free)
    (hfull : ringCapacity s.params x - (s.queue x).used < (encRecord m).length) (a : Agent) :
    pushQueue x m a s = (.full, s) := by
  simp only [pushQueue, hlock, if_pos hfull]

theorem pushQueue_of_room (hlock : (s.queue x).lock = .free)
    (hroom : (encRecord m).length ≤ ringCapacity s.params x - (s.queue x).used) (a : Agent) :
    pushQueue x m a s =
      (.ok, s.setQueue x ((s.queue x).commit (ringCapacity s.params x) (encRecord m))) := by
  simp only [pushQueue, hlock, if_neg (Nat.not_lt.mpr hroom)]

/-- PUSH by the producer: the role check passes, and the result of the acquire and the space check is handed back. -/
theorem resultOf_push_of_result {r : PushResult} {t : State} (ha : s.io.issuer = producer x)
    (hp : pushQueue x m s.io.issuer s = (r, t)) : resultOf (.push x m) s = t.respond r.response := by
  rw [resultOf_push, asAgent_of_issuer s ha, hp]

theorem resultOf_push_of_full (ha : s.io.issuer = producer x) (hlock : (s.queue x).lock = .free)
    (hfull : ringCapacity s.params x - (s.queue x).used < (encRecord m).length) :
    resultOf (.push x m) s = s.respond .full :=
  resultOf_push_of_result ha (pushQueue_of_full hlock hfull _)

end PushRules

theorem exists_held_of_ne_free {l : Lock} (h : l ≠ .free) : ∃ a, l = .held a := by
  cases l with
  | free => exact absurd rfl h
  | held a => exact ⟨a, rfl⟩

/-! ### The bytes of a commit -/

section Commit
variable {q : Queue} {k : Nat} {bytes : List Byte}

/-- The committed bytes stand at the old `wr` (R176). -/
theorem ringRead_commit_self (hk : k ∣ 2 ^ 32) (hwf : q.ring.wf = true) (hlen : bytes.length ≤ k) :
    ringRead k (q.commit k bytes).ring q.wr bytes.length = bytes :=
  ringRead_ringWrite_self hk bytes q.ring q.wr hwf hlen

/-- A commit writes no ring byte but its own (R176). -/
theorem readByte_commit_ne (hk : k ∣ 2 ^ 32) {r : Nat} (hr : ∀ j < bytes.length, r ≠ (q.wr.toNat + j) % k) :
    readByte (q.commit k bytes).ring r = readByte q.ring r :=
  readByte_ringWrite_ne hk bytes q.ring q.wr hr

end Commit

/-! ### The FIFO -/

/-- The occupancy is the length of the records held (R53). -/
theorem used_of_contents {s : State} {x : QueueId} {ms : List Msg} (h : Contents s x ms) :
    (s.queue x).used = (ms.flatMap encRecord).length := by
  rw [← h.records.2, ringRead_length]

/-- A message has room exactly when its record fits behind the records held (R176). -/
theorem room_iff {s : State} {x : QueueId} {ms : List Msg} (h : Contents s x ms) (m : Msg) :
    (encRecord m).length ≤ ringCapacity s.params x - (s.queue x).used ↔
      (ms.flatMap encRecord).length + 2 + (encMsg m).length ≤ ringCapacity s.params x := by
  have hle := h.used
  rw [used_of_contents h] at hle ⊢
  rw [encRecord_length, show recHdr = 2 from rfl]
  omega

/-- PUSH by the producer appends the message or, exactly when it does not fit, keeps the messages held (R176, R178). -/
theorem push_refines_append {s : State} {x : QueueId} {ms : List Msg} {m : Msg} (hl : s.params.legal)
    (hq : QueueInv (ringCapacity s.params x) (s.queue x)) (h : Contents s x ms) (hm : m.wellFormed = true)
    (ha : s.io.issuer = producer x) :
    (((resultOf (.push x m) s).io.response = .ok ∧ Contents (resultOf (.push x m) s) x (ms ++ [m])) ∨
        ((resultOf (.push x m) s).io.response = .full ∧ Contents (resultOf (.push x m) s) x ms)) ∧
      ((resultOf (.push x m) s).io.response = .full ↔
        ringCapacity s.params x < (ms.flatMap encRecord).length + 2 + (encMsg m).length) := by
  rw [← Nat.not_le, ← room_iff h m]
  by_cases hroom : (encRecord m).length ≤ ringCapacity s.params x - (s.queue x).used
  · rw [resultOf_push_of_room ha hq.lock hroom]
    exact ⟨.inl ⟨rfl, (contents_commit hl hq hm h hroom).congr rfl (respond_queue ..)⟩, by simpa using hroom⟩
  · rw [resultOf_push_of_full ha hq.lock (Nat.lt_of_not_le hroom)]
    exact ⟨.inr ⟨rfl, h.congr rfl (respond_queue ..)⟩, by simpa using hroom⟩

/-- Settles O31: PUSH appends where the record fits and keeps the list where it does not; POP finds the first record at
`rd`, and an empty queue exactly when the list is empty. -/
theorem queueRefinesAFifo : Obligations.QueueRefinesAFifo := by
  intro x ms s hl hq h
  refine ⟨fun m hm ha => ⟨_, exec_eq_resultOf _ s, push_refines_append hl hq h hm ha⟩,
    fun ha => ⟨_, exec_eq_resultOf _ s, ?_⟩⟩
  cases ms with
  | nil =>
    rw [resultOf_pop_of_used ha (used_of_contents_nil h)]
    exact ⟨rfl, h.congr rfl (respond_queue ..)⟩
  | cons m rest =>
    obtain ⟨hpop, hrest⟩ := popQueue_of_contents h
    rw [resultOf_pop_of_msg ha hpop]
    exact ⟨rfl, hrest.congr rfl (respond_queue ..)⟩

/-! ### PUSH -/

/-- Settles O28: the three outcomes by the rules of PUSH, and the ring of an `Ok` by the laws of a commit. -/
theorem pushCommitsOrChangesNothing : Obligations.PushCommitsOrChangesNothing := by
  intro x m s hl hwf _ ha
  have hk := ringCapacity_dvd hl x
  have hlen : (encRecord m).length = 2 + (encMsg m).length := encRecord_length m
  rw [← hlen]
  refine ⟨fun hlock hroom => ?_, fun hlock hfull => ?_, fun hheld hx => ?_⟩
  · refine ⟨(s.queue x).commit (ringCapacity s.params x) (encRecord m), ?_, rfl, rfl, rfl, rfl, ?_, ?_, ?_⟩
    · rw [exec_eq_resultOf, resultOf_push_of_room ha hlock hroom]
    · exact ringRead_commit_self hk hwf (by omega)
    · exact commit_keeps_occupied hk (by omega)
    · exact fun r hr => readByte_commit_ne hk hr
  · rw [exec_eq_resultOf, resultOf_push_of_full ha hlock hfull]
  · subst hx
    obtain ⟨b, hb⟩ := exists_held_of_ne_free hheld
    have hbusy := pushQueue_of_held (m := m) hb s.io.issuer
    rw [exec_eq_resultOf, resultOf_push_of_result ha hbusy, ha]
    rfl

/-- A transaction that waits for a lock keeps its bytes at the port (R174, log 11). -/
theorem keepWaiting_of_waiting {s t : State} (h : t.io.response = .waiting) :
    keepWaiting s (.next t) = .next { t with io := { t.io with ports := s.io.ports } } :=
  if_pos h

/-- Settles O29: the PUSH at the front of HOST's port is issued, finds the lock held, and its bytes go back to the port. -/
theorem hostPushWaitsForTheLock : Obligations.HostPushWaitsForTheLock := by
  intro m s rest turns hm hf hheld ht hport
  have hd : decodeTransaction (portOf s.io.ports .host) = .ok (.push .inbound m) rest := by
    rw [portOf, hport]
    exact decodeTransaction_encode (i := .push .inbound m) hm rfl rest
  obtain ⟨b, hb⟩ := exists_held_of_ne_free hheld
  have hwaits : pushQueue .inbound m .host (s.issue .host rest turns) = (.waits, s.issue .host rest turns) :=
    pushQueue_of_held (x := .inbound) (s := s.issue .host rest turns) hb .host
  rw [step_of_decoded ht hd (.inl hf), exec_eq_resultOf, resultOf_push_of_result rfl hwaits]
  exact keepWaiting_of_waiting rfl

/-! ### POP and DOORBELL_TAKE -/

/-- Settles O30: POP of an empty queue, and POP of a queue that holds `m` first. -/
theorem popReturnsTheFirstMessage : Obligations.PopReturnsTheFirstMessage := by
  intro x s ha
  refine ⟨fun hu => ?_, fun m ms h => ?_⟩
  · rw [exec_eq_resultOf, resultOf_pop_of_used ha hu]
  · rw [exec_eq_resultOf, resultOf_pop_of_msg ha (popQueue_of_contents h).1, encRecord_length]

theorem resultOf_pop_of_malformed {s : State} {x : QueueId} (ha : s.io.issuer = consumer x)
    (hu : (s.queue x).used ≠ 0) (hd : decMsg ((s.queue x).headBody (ringCapacity s.params x)) = none) :
    resultOf (.pop x) s = s.fail .queueCorrupt := by
  have hp : popQueue x s = (.corrupt, s) := by simp only [popQueue, if_neg hu, hd]
  show s.asAgent _ _ = _
  rw [asAgent_of_issuer s ha, hp]

/-- Settles O32: a body whose kind and length disagree is no message, and POP of it sets the mark. -/
theorem popOfAMalformedRecordSetsTheFaultMark : Obligations.PopOfAMalformedRecordSetsTheFaultMark := by
  rintro x s _ ha hu rfl hconfig hstatus
  have hd : decMsg ((s.queue x).headBody (ringCapacity s.params x)) = none := decMsg_eq_none hconfig hstatus
  rw [exec_eq_resultOf, resultOf_pop_of_malformed ha hu hd]
  rfl

theorem resultOf_doorbellTake_of_consumer {s : State} {x : QueueId} (ha : s.io.issuer = consumer x) :
    resultOf (.doorbellTake x) s = (setDoorbell x false s).respond (.taken (s.queue x).dbPending) := by
  rw [resultOf_doorbellTake, asAgent_of_issuer s ha]

/-- Settles O33: the take by the consumer, twice; the doorbell it clears is already clear the second time. -/
theorem doorbellTakeClearsTheBit : Obligations.DoorbellTakeClearsTheBit := by
  intro x s ha
  refine ⟨_, rfl, ?_, ?_⟩
  · rw [exec_eq_resultOf, resultOf_doorbellTake_of_consumer ha]
    rfl
  · rw [exec_eq_resultOf, resultOf_doorbellTake_of_consumer (by simpa using ha)]
    cases x <;> rfl

/-! ### The environment's turns -/

/-- What a turn of the environment brings is the step, while the fault mark is not set (R343). -/
theorem step_of_unlessHalted {s t : State} (hf : s.faultMark = none) (h : fetch s = unlessHalted s (.settled t)) :
    step s = .next t := by
  refine step_of_settled (h.trans ?_)
  simp [unlessHalted, hf]

/-- Settles O51: each kind of turn has one settled state, and a supplied buffer reads the supplied bytes. -/
theorem environmentTurnsWriteOneField : Obligations.EnvironmentTurnsWriteOneField := by
  intro s hf
  refine ⟨fun ht => ?_, fun turns ht => ?_, fun turns ht => ?_, fun bytes turns ht => ?_⟩
  · exact step_of_unlessHalted hf (by rw [fetch, ht])
  · exact step_of_unlessHalted hf (by rw [fetch, ht]; rfl)
  · exact step_of_unlessHalted hf (by rw [fetch, ht]; rfl)
  · refine ⟨bytesFrom 0 bytes, step_of_unlessHalted hf (by rw [fetch, ht]; rfl), bytesFrom_wf 0 bytes, fun a => ?_⟩
    rw [← Nat.zero_add a, readByte_bytesFrom, Nat.zero_add]

end Sys2Proof.Machine

/-! SUPPORT. The reports FILL adds to OUT: the status push by its conditions, and that all a FILL does to OUT is append
Status records (40_queue.md R185, 45_sample_callback.md R318). -/

namespace Sys2Proof.Machine

/-! ### The status push by its conditions -/

section StatusRules
variable {s : State}

theorem exec_statusPush (n : Word) : exec (.statusPush n) s = .next (pushStatus n s) := rfl

theorem pushStatus_of_room (n : Word) (hlock : s.qOut.lock = .free)
    (hroom : (encRecord (.status n)).length ≤ ringCapacity s.params .outbound - s.qOut.used) :
    pushStatus n s = { s with
      qOut := s.qOut.commit (ringCapacity s.params .outbound) (encRecord (.status n))
      history := s.history ++ [.statusPushed n] } := by
  rw [pushStatus, pushQueue_of_room (x := .outbound) hlock hroom]
  rfl

theorem pushStatus_of_full (n : Word) (hlock : s.qOut.lock = .free)
    (hfull : ringCapacity s.params .outbound - s.qOut.used < (encRecord (.status n)).length) :
    pushStatus n s = { s with history := s.history ++ [.statusDropped n .full] } := by
  rw [pushStatus, pushQueue_of_full (x := .outbound) hlock hfull]
  rfl

theorem pushStatus_of_held (n : Word) {b : Agent} (hlock : s.qOut.lock = .held b) :
    pushStatus n s = { s with history := s.history ++ [.statusDropped n .busy] } := by
  rw [pushStatus, pushQueue_of_held (x := .outbound) hlock]
  rfl

end StatusRules

theorem encRecord_status_length (n : Word) : (encRecord (.status n)).length = 7 := by
  rw [encRecord_length, encMsg, encStatus_length, show recHdr + statusLen = 7 from rfl]

/-- The seven bytes of a Status record (R125, R127). -/
theorem encRecord_status (n : Word) : encRecord (.status n) =
    [5, 0, 2, n.extractLsb' 0 8, n.extractLsb' 8 8, n.extractLsb' 16 8, n.extractLsb' 24 8] := by
  have hbyte (i : Nat) : BitVec.ofNat 8 (n.toNat / 2 ^ i) = n.extractLsb' i 8 := by
    rw [BitVec.extractLsb', Nat.shiftRight_eq_div_pow]
  simp only [encRecord, encMsg, encStatus, leBytes, Nat.div_div_eq_div_mul, ← hbyte]
  simp

/-- Settles O27: the three outcomes by the rules of the status push, and the ring of a queued report by the laws of a
commit. -/
theorem statusPushQueuesOrDrops : Obligations.StatusPushQueuesOrDrops := by
  intro n s hl hwf
  have hk := ringCapacity_dvd hl .outbound
  have hlen := encRecord_status_length n
  refine ⟨fun hlock hroom => ?_, fun hlock hfull => ?_, fun hheld => ?_⟩
  · refine ⟨s.qOut.commit (ringCapacity s.params .outbound) (encRecord (.status n)), ?_, rfl, ?_, rfl, rfl, ?_, ?_⟩
    · rw [exec_statusPush, pushStatus_of_room n hlock (hlen ▸ hroom)]
    · rw [Queue.commit, hlen]
      rfl
    · rw [← encRecord_status, ← hlen]
      exact ringRead_commit_self hk hwf (by omega)
    · exact fun r hr => readByte_commit_ne hk (hlen ▸ hr)
  · rw [exec_statusPush, pushStatus_of_full n hlock (hlen ▸ hfull)]
  · obtain ⟨b, hb⟩ := exists_held_of_ne_free hheld
    rw [exec_statusPush, pushStatus_of_held n hb]

/-! ### What a FILL adds to OUT -/

/-- One write after another, where it ends, is one write of both. -/
theorem ringWrite_append (k : Nat) : ∀ (bs cs : List Byte) (ring : Memory) (c : Word),
    ringWrite k ring c (bs ++ cs) = ringWrite k (ringWrite k ring c bs) (c + BitVec.ofNat 32 bs.length) cs
  | [], cs, ring, c => by simp [ringWrite]
  | b :: bs, cs, ring, c => by
    have hc : c + 1 + BitVec.ofNat 32 bs.length = c + BitVec.ofNat 32 (bs.length + 1) := by
      rw [Nat.add_comm]
      exact counter_assoc c 1 bs.length
    rw [List.cons_append, ringWrite, ringWrite, ringWrite_append k bs cs, hc, List.length_cons]

/-- OUT either stays or gets one report, where it fits (R185). -/
def AtMostOneReport (s t : State) : Prop :=
  t.qOut = s.qOut ∨ ∃ n, (encRecord (.status n)).length ≤ ringCapacity s.params .outbound - s.qOut.used ∧
    t.qOut = s.qOut.commit (ringCapacity s.params .outbound) (encRecord (.status n))

theorem pushStatus_atMostOneReport (n : Word) (s : State) : AtMostOneReport s (pushStatus n s) := by
  rcases pushStatus_cases n s with ⟨_, hroom, h⟩ | ⟨_, h⟩ <;> rw [h]
  · exact .inr ⟨n, hroom, rfl⟩
  · exact .inl rfl

theorem checkWindow_atMostOneReport (s : State) : AtMostOneReport s (checkWindow s) := by
  rcases checkWindow_cases s with ⟨_, h⟩ | ⟨_, _, h⟩ | ⟨_, _, _, h⟩ | ⟨_, _, _, h⟩ <;> rw [h]
  · exact .inl rfl
  · exact .inl rfl
  · rw [restartPayload_eq]
    exact pushStatus_atMostOneReport _ (loadWindow s)
  · exact pushStatus_atMostOneReport 0 (loadWindow s)

/-- An output sample reports at most once: when its tick is a bit period, in the window check (R234, R312). -/
theorem outputSample_atMostOneReport (i : Nat) (s : State) : AtMostOneReport s (outputSample i s) := by
  show AtMostOneReport s (audioTick s)
  unfold audioTick encoderTick
  split
  · split
    · show AtMostOneReport s (bitAdvance (frameBit (checkWindow s)))
      rw [AtMostOneReport, bitAdvance_qOut]
      exact checkWindow_atMostOneReport s
    · exact .inl rfl
  · exact .inl rfl

/-- From `s`, whose OUT holds `ms`, to `t` the reports `ns` were appended to OUT, by one write of their records from the
old `wr` (R176, R185). -/
structure ReportsAppended (s : State) (ms : List Msg) (ns : List Word) (t : State) : Prop where
  params : t.params = s.params
  qOut : QueueInv (ringCapacity t.params .outbound) t.qOut
  contents : Contents t .outbound (ms ++ ns.map .status)
  ring : t.qOut.ring =
    ringWrite (ringCapacity s.params .outbound) s.qOut.ring s.qOut.wr ((ns.map .status).flatMap encRecord)
  wr : t.qOut.wr = s.qOut.wr + BitVec.ofNat 32 ((ns.map .status).flatMap encRecord).length

section Reports
variable {s t : State} {ms : List Msg} {ns : List Word}

theorem reportsAppended_nil (hq : QueueInv (ringCapacity s.params .outbound) s.qOut) (h : Contents s .outbound ms) :
    ReportsAppended s ms [] s :=
  ⟨rfl, hq, by simpa using h, rfl, by simp⟩

/-- OUT is all that the appended reports are read from. -/
theorem ReportsAppended.congr {u : State} (h : ReportsAppended s ms ns t) (params : u.params = t.params)
    (qOut : u.qOut = t.qOut) : ReportsAppended s ms ns u :=
  ⟨params.trans h.params, by rw [params, qOut]; exact h.qOut, h.contents.congr params qOut, qOut ▸ h.ring, qOut ▸ h.wr⟩

/-- One more report, where it fits. -/
theorem ReportsAppended.commit (hl : s.params.legal) (h : ReportsAppended s ms ns t) {n : Word}
    (hroom : (encRecord (.status n)).length ≤ ringCapacity t.params .outbound - t.qOut.used) :
    ReportsAppended s ms (ns ++ [n]) { t with
      qOut := t.qOut.commit (ringCapacity t.params .outbound) (encRecord (.status n)) } := by
  have hcontents := contents_commit (m := .status n) (h.params ▸ hl) h.qOut rfl h.contents hroom
  refine ⟨h.params, ?_, ?_, ?_, ?_⟩
  · exact queueStep_queueInv (ringCapacity_pos _ _) _ _ (.push (.status n) rfl hroom) h.qOut
  · simpa using hcontents
  · simp [Queue.commit, h.ring, h.wr, h.params, ringWrite_append]
  · simp only [Queue.commit, h.wr, counter_assoc]
    simp

theorem ReportsAppended.outputSample (hl : s.params.legal) (h : ReportsAppended s ms ns t) (i : Nat) :
    ∃ ns', ReportsAppended s ms ns' (outputSample i t) := by
  have hparams := (outputSample_keeps i t).params
  rcases outputSample_atMostOneReport i t with e | ⟨n, hroom, e⟩
  · exact ⟨ns, h.congr hparams e⟩
  · exact ⟨ns ++ [n], (h.commit hl hroom).congr hparams e⟩

/-- The new counter is the old one plus the bytes committed: they are less than 2^32, for they fit the ring. -/
theorem ReportsAppended.wr_sub (hl : s.params.legal) (h : ReportsAppended s ms ns t) :
    (t.qOut.wr - s.qOut.wr).toNat = ((ns.map .status).flatMap encRecord).length := by
  have hfits := h.contents.used
  rw [used_of_contents h.contents, List.flatMap_append, List.length_append, h.params] at hfits
  have hle := ringCapacity_le hl .outbound
  rw [h.wr, add_sub_cancel_left, BitVec.toNat_ofNat]
  omega

/-- No ring byte outside the committed ones is changed (R176). -/
theorem ReportsAppended.readByte_ne (hl : s.params.legal) (h : ReportsAppended s ms ns t) {r : Nat}
    (hr : ∀ j < (t.qOut.wr - s.qOut.wr).toNat, r ≠ (s.qOut.wr.toNat + j) % ringCapacity s.params .outbound) :
    readByte t.qOut.ring r = readByte s.qOut.ring r := by
  rw [h.wr_sub hl] at hr
  rw [h.ring]
  exact readByte_ringWrite_ne (ringCapacity_dvd hl .outbound) _ _ _ hr

end Reports

/-- All a FILL does to OUT, whoever issues it, is append reports (R185, R318). -/
theorem resultOf_fill_reportsAppended (n : Word) {s : State} {ms : List Msg}
    (hl : s.params.legal) (hq : QueueInv (ringCapacity s.params .outbound) s.qOut) (h : Contents s .outbound ms) :
    ∃ ns, ReportsAppended s ms ns (resultOf (.fill n) s) := by
  have hnil := reportsAppended_nil hq h
  rcases resultOf_fill_cases s n with e | ⟨_, e⟩ | ⟨_, e⟩ <;> rw [e]
  · exact ⟨[], hnil.congr rfl rfl⟩
  · exact ⟨[], hnil.congr rfl rfl⟩
  · obtain ⟨ns, hns⟩ := fillFrom_induction (P := fun t => ∃ ns, ReportsAppended s ms ns t)
      (fun i t ⟨_, ht⟩ => ht.outputSample hl i) n.toNat 0 s ⟨[], hnil⟩
    exact ⟨ns, hns.congr (by simp) (by simp)⟩

/-- Settles O10: each output sample appends at most one report to OUT, so FILL's writes are one write of whole Status
records from the old `wr`. -/
theorem fillOnlyAppendsReports : Obligations.FillOnlyAppendsReports := by
  intro n s ms _ hb h
  obtain ⟨ns, hns⟩ := resultOf_fill_reportsAppended n hb.legal hb.qOut h
  exact ⟨_, ns, exec_eq_resultOf _ s, hns.contents, fun r hr => hns.readByte_ne hb.legal hr⟩

end Sys2Proof.Machine

/-! SUPPORT. The tone: the accumulator after `n` steps, and the effective phase, its bits 25 to 0, that the index reads
(41_tone.md R210, R211, R212, R215). -/

namespace Sys2Proof.Machine

/-- An instruction that always answers `f`, executed `n` times. -/
theorem repeatExec_eq_iterate {i : Instr} {f : State → State} (h : ∀ s, exec i s = .next (f s)) :
    ∀ (n : Nat) (s : State), repeatExec i n s = some (f^[n] s)
  | 0, _ => rfl
  | n + 1, s => by
    rw [repeatExec, h]
    exact repeatExec_eq_iterate h n (f s)

/-! ### TONE_STEP and TONE_READ -/

theorem exec_toneStep (s : State) : exec .toneStep s = .next (toneStep s) := rfl

theorem exec_toneRead (s : State) : exec .toneRead s = .next (s.respond (.toneSample (toneSample s))) := rfl

@[simp] theorem toneIncrement_toneStep (s : State) : toneIncrement (toneStep s) = toneIncrement s := rfl

theorem toneIncrement_toNat (s : State) : (toneIncrement s).toNat =
    if s.cur.currentBit = true then s.tx.phaseIncMark.toNat else s.tx.phaseIncSpace.toNat :=
  apply_ite BitVec.toNat ..

theorem toneStep_tonePhase_toNat (s : State) : (toneStep s).synth.tonePhase.toNat =
    (s.synth.tonePhase.toNat + (toneIncrement s).toNat) % 2 ^ 32 :=
  BitVec.toNat_add ..

/-- No step writes what selects the increment, so the same one is added every time (R210). -/
theorem iterate_toneStep_tonePhase_toNat (n : Nat) (s : State) : (toneStep^[n] s).synth.tonePhase.toNat =
    (s.synth.tonePhase.toNat + n * (toneIncrement s).toNat) % 2 ^ 32 := by
  induction n generalizing s with
  | zero => simp [Nat.mod_eq_of_lt s.synth.tonePhase.isLt]
  | succ n ih =>
    rw [Function.iterate_succ_apply, ih, toneStep_tonePhase_toNat, toneIncrement_toneStep, Nat.mod_add_mod, add_assoc,
      Nat.succ_mul, add_comm (n * _)]

/-! ### The effective phase -/

/-- Of an accumulator the index reads the effective phase only (R212). -/
theorem tableIndex_eq_effectivePhase (a : Word) : tableIndex a = a.toNat % 2 ^ 26 / 2 ^ 18 := by
  rw [tableIndex_eq]
  omega

theorem effectivePhase_iterate_toneStep (n : Nat) (s : State) : (toneStep^[n] s).synth.tonePhase.toNat % 2 ^ 26 =
    (s.synth.tonePhase.toNat + n * (toneIncrement s).toNat) % 2 ^ 26 := by
  rw [iterate_toneStep_tonePhase_toNat, Nat.mod_mod_of_dvd _ (Nat.pow_dvd_pow 2 (by decide))]

/-- An accumulator that is `d` short of another, modulo 2^26, is within `ceil(d / 2^18)` entries of its index. -/
theorem tableIndex_within {a b : Word} {d : Nat} (h : (a.toNat + d) % 2 ^ 26 = b.toNat % 2 ^ 26) :
    ∃ e ≤ (d + 2 ^ 18 - 1) / 2 ^ 18, (tableIndex a + e) % 256 = tableIndex b := by
  refine ⟨(a.toNat + d) / 2 ^ 18 - a.toNat / 2 ^ 18, by omega, ?_⟩
  rw [tableIndex_eq, tableIndex_eq]
  omega

/-! ### The obligations -/

/-- Settles O39: the sum of the two words is their natural sum modulo 2^32. -/
theorem toneStepAddsTheSelectedIncrement : Obligations.ToneStepAddsTheSelectedIncrement := by
  intro s
  rw [exec_toneStep, ← toneIncrement_toNat, BitVec.ofNat_add, BitVec.ofNat_toNat, BitVec.ofNat_toNat,
    BitVec.setWidth_eq, BitVec.setWidth_eq]
  rfl

/-- Settles O40: the index is below 256, and a legal table has 256 entries. -/
theorem toneReadGivesTheTableEntry : Obligations.ToneReadGivesTheTableEntry := by
  intro s hl
  rw [← tableIndex_eq]
  have hlt : tableIndex s.synth.tonePhase < 256 := Nat.mod_lt _ (by decide)
  exact ⟨_, tableEntry_eq hl hlt, exec_toneRead s⟩

/-- Settles O41: the index reads the effective phase only, and `n` steps change the effective phase by `n` times the
increment modulo 2^26. -/
theorem onlyTheEffectivePhaseIsHeard : Obligations.OnlyTheEffectivePhaseIsHeard := by
  constructor
  · intro s a b hab
    have hidx : tableIndex a = tableIndex b := by
      rw [tableIndex_eq_effectivePhase, tableIndex_eq_effectivePhase, hab]
    exact ⟨tableEntry s (tableIndex a), _, _, exec_toneRead _, exec_toneRead _, rfl, hidx ▸ rfl⟩
  · intro s mark mark' space space' n hmark hspace
    refine ⟨_, _, repeatExec_eq_iterate exec_toneStep .., repeatExec_eq_iterate exec_toneStep .., ?_⟩
    rw [tableIndex_eq_effectivePhase, tableIndex_eq_effectivePhase, effectivePhase_iterate_toneStep,
      effectivePhase_iterate_toneStep, toneIncrement_toNat, toneIncrement_toNat]
    congr 1
    refine Nat.ModEq.add_left _ (Nat.ModEq.mul_left n ?_)
    dsimp only
    split
    · exact hmark
    · exact hspace

/-- Settles O42: `k / I` steps of adding I fall short of adding `k` by the remainder of `k` by I. -/
theorem tonePhaseIsPeriodic : Obligations.TonePhaseIsPeriodic := by
  intro s inc hinc rfl
  have hphase := effectivePhase_iterate_toneStep (2 ^ 26 / (toneIncrement s).toNat) s
  refine ⟨fun hdvd => ?_, fun hdvd => ?_, ?_⟩
  · rw [Nat.div_mul_cancel hdvd, Nat.add_mod_right] at hphase
    refine ⟨_, repeatExec_eq_iterate exec_toneStep .., hphase, ?_⟩
    rw [tableIndex_eq_effectivePhase, hphase, ← tableIndex_eq_effectivePhase]
  · refine ⟨_, repeatExec_eq_iterate exec_toneStep .., BitVec.eq_of_toNat_eq ?_⟩
    rw [iterate_toneStep_tonePhase_toNat, Nat.div_mul_cancel hdvd, Nat.add_mod_right,
      Nat.mod_eq_of_lt s.synth.tonePhase.isLt]
  · have hlt : 2 ^ 26 % (toneIncrement s).toNat < (toneIncrement s).toNat := Nat.mod_lt _ (Nat.pos_of_ne_zero hinc)
    have hback : ((toneStep^[2 ^ 26 / (toneIncrement s).toNat] s).synth.tonePhase.toNat +
        2 ^ 26 % (toneIncrement s).toNat) % 2 ^ 26 = s.synth.tonePhase.toNat % 2 ^ 26 := by
      rw [Nat.add_mod, hphase, ← Nat.add_mod, add_assoc, Nat.div_add_mod', Nat.add_mod_right]
    obtain ⟨e, he, hidx⟩ := tableIndex_within hback
    exact ⟨_, _, e, repeatExec_eq_iterate exec_toneStep .., hlt, hback, by omega, hidx⟩

end Sys2Proof.Machine

/-! SUPPORT. BIT_PERIOD and its parts by their conditions: the frame's bit and the advance, the window, the two ends of
the payload (42_frame_encoder.md R234 to R242). -/

namespace Sys2Proof.Machine

/-! ### One bit and one advance -/

section Bit
variable (s : State)

theorem exec_bitPeriod : exec .bitPeriod s = .next (bitPeriod s) := rfl

theorem exec_frameBit : exec .frameBit s = .next (frameBit s) := rfl

theorem exec_bitAdvance : exec .bitAdvance s = .next (bitAdvance s) := rfl

theorem bitAdvance_eq : bitAdvance s = { s with
    cur := { s.cur with
      bitPosition := nextBitPosition s.cur.bitPosition
      bytePosition := nextBytePosition s s.cur.bitPosition } } := by
  unfold bitAdvance nextBitPosition nextBytePosition
  split <;> rfl

/-- The bit of the frame of the two bytes as they stand, and the cursor's advance (R235, R239). -/
def sendNamedBit : State := { s with
  cur := { s.cur with
    currentBit := frameBitAt s.cur.currentByte (lastFrameBit s s.cur.nextByte) s.cur.bitPosition
    bitPosition := nextBitPosition s.cur.bitPosition
    bytePosition := nextBytePosition s s.cur.bitPosition } }

/-- BIT_PERIOD after its window check (R234). -/
theorem bitPeriod_eq (h : (checkWindow s).cur.bitPosition ≤ 9) : bitPeriod s = sendNamedBit (checkWindow s) := by
  rw [bitPeriod, bitAdvance_eq, frameBit, sendBit, framedValue_named h]
  rfl

end Bit

/-! ### The window check by its conditions -/

section Window
variable {s : State}

theorem repeatsLeft_iff (s : State) : repeatsLeft s = true ↔ s.cur.repeatCounter.toNat < s.tx.repeatCount.toNat :=
  decide_eq_true_iff

theorem not_repeatsLeft_iff (s : State) : ¬repeatsLeft s = true ↔ s.tx.repeatCount.toNat ≤ s.cur.repeatCounter.toNat := by
  rw [repeatsLeft_iff, Nat.not_lt]

/-- FINISH as one status push, a zero window and `configured` cleared (R241). -/
theorem finishTransmission_eq (s : State) : finishTransmission s = { pushStatus 0 s with
    tx := { s.tx with configured := false }
    cur := { s.cur with currentByte := 0, nextByte := 0 } } := by
  simp only [finishTransmission, pushStatus_tx, pushStatus_cur]

theorem checkWindow_of_idle (hc : s.tx.configured = false) : checkWindow s = s := by
  rw [checkWindow, hc]
  rfl

theorem checkWindow_of_window (hc : s.tx.configured = true)
    (hw : ¬(payloadByte s s.cur.bytePosition.toNat = 0 ∧ payloadByte s (s.cur.bytePosition.toNat + 1) = 0)) :
    checkWindow s = loadWindow s := by
  rw [checkWindow, if_pos hc, endOfPayload, if_neg (mt (loadWindow_terminator_iff hc).mp hw)]

section Terminator
variable (hc : s.tx.configured = true) (h0 : payloadByte s s.cur.bytePosition.toNat = 0)
  (h1 : payloadByte s (s.cur.bytePosition.toNat + 1) = 0)
include hc h0 h1

theorem checkWindow_of_restart (hr : s.cur.repeatCounter.toNat < s.tx.repeatCount.toNat) :
    checkWindow s = { pushStatus (s.cur.repeatCounter + 1) s with
      cur := { s.cur with
        bitPosition := 0
        bytePosition := 0
        currentByte := payloadByte s 0
        nextByte := payloadByte s 1
        repeatCounter := s.cur.repeatCounter + 1 } } := by
  rw [checkWindow, if_pos hc, endOfPayload, if_pos ((loadWindow_terminator_iff hc).mpr ⟨h0, h1⟩),
    if_pos ((repeatsLeft_iff (loadWindow s)).mpr hr), restartPayload_eq, pushStatus_loadWindow]
  rfl

theorem checkWindow_of_finish (hr : s.tx.repeatCount.toNat ≤ s.cur.repeatCounter.toNat) :
    checkWindow s = { pushStatus 0 s with
      tx := { s.tx with configured := false }
      cur := { s.cur with currentByte := 0, nextByte := 0 } } := by
  rw [checkWindow, if_pos hc, endOfPayload, if_pos ((loadWindow_terminator_iff hc).mpr ⟨h0, h1⟩),
    if_neg ((not_repeatsLeft_iff (loadWindow s)).mpr hr), finishTransmission_eq, pushStatus_loadWindow]
  rfl

end Terminator

/-- What the window check does not rewind it keeps: at bit 0 the cursor stays at bit 0, of byte 0 if it was there. -/
theorem checkWindow_position (hp : s.cur.bitPosition = 0) : (checkWindow s).cur.bitPosition = 0 ∧
    (s.cur.bytePosition = 0 → (checkWindow s).cur.bytePosition = 0) := by
  rcases checkWindow_cases s with ⟨_, h⟩ | ⟨_, _, h⟩ | ⟨_, _, _, h⟩ | ⟨_, _, _, h⟩ <;> rw [h]
  · exact ⟨hp, id⟩
  · exact ⟨hp, id⟩
  · rw [restartPayload_eq]
    exact ⟨rfl, fun _ => rfl⟩
  · rw [finishTransmission_eq]
    exact ⟨hp, id⟩

end Window

/-! ### BIT_PERIOD by its conditions -/

section BitPeriod
variable {s : State}

theorem bitPeriod_of_window (hc : s.tx.configured = true) (hp : s.cur.bitPosition ≤ 9)
    (hw : ¬(payloadByte s s.cur.bytePosition.toNat = 0 ∧ payloadByte s (s.cur.bytePosition.toNat + 1) = 0)) :
    bitPeriod s = sendNamedBit (loadWindow s) := by
  have h := checkWindow_of_window hc hw
  rw [bitPeriod_eq s (by rw [h]; exact hp), h]

/-- A bit period at a frame's start sends the start bit, whatever the window check does (R235). -/
theorem bitPeriod_startBit (hp : s.cur.bitPosition = 0) : (bitPeriod s).cur.currentBit = false ∧
    (bitPeriod s).cur.bitPosition = 1 ∧ (s.cur.bytePosition = 0 → (bitPeriod s).cur.bytePosition = 0) := by
  obtain ⟨hbit, hbyte⟩ := checkWindow_position hp
  rw [bitPeriod_eq s (by omega)]
  simpa [sendNamedBit, hbit, frameBitAt, nextBitPosition, nextBytePosition] using hbyte

section Terminator
variable (hc : s.tx.configured = true) (h0 : payloadByte s s.cur.bytePosition.toNat = 0)
  (h1 : payloadByte s (s.cur.bytePosition.toNat + 1) = 0)
include hc h0 h1

theorem bitPeriod_of_restart (hr : s.cur.repeatCounter.toNat < s.tx.repeatCount.toNat) :
    bitPeriod s = { pushStatus (s.cur.repeatCounter + 1) s with
      cur := { s.cur with
        bitPosition := 1
        bytePosition := 0
        currentByte := payloadByte s 0
        nextByte := payloadByte s 1
        currentBit := false
        repeatCounter := s.cur.repeatCounter + 1 } } := by
  have h := checkWindow_of_restart hc h0 h1 hr
  rw [bitPeriod_eq s (by rw [h]; exact Nat.zero_le 9), h]
  rfl

theorem bitPeriod_of_finish (hp : s.cur.bitPosition ≤ 9) (hr : s.tx.repeatCount.toNat ≤ s.cur.repeatCounter.toNat) :
    bitPeriod s = { pushStatus 0 s with
      tx := { s.tx with configured := false }
      cur := { s.cur with
        currentByte := 0
        nextByte := 0
        currentBit := frameBitAt 0 (lastFrameBit s 0) s.cur.bitPosition
        bitPosition := nextBitPosition s.cur.bitPosition
        bytePosition := nextBytePosition s s.cur.bitPosition } } := by
  have h := checkWindow_of_finish hc h0 h1 hr
  have hf : formatA (checkWindow s) = formatA s := by rw [h, formatA, pushStatus_params]; rfl
  rw [bitPeriod_eq s (by rw [h]; exact hp), sendNamedBit, lastFrameBit, nextBytePosition, hf, h]
  rfl

end Terminator

end BitPeriod

/-! ### The obligations -/

/-- Settles O12: the window check only loads, and the bit sent is the one of the frame loaded. -/
theorem bitPeriodSendsAWindowBit : Obligations.BitPeriodSendsAWindowBit := by
  intro s hc hp hw
  rw [exec_bitPeriod, bitPeriod_of_window hc hp hw]
  rfl

/-- Settles O13: the window check is skipped. -/
theorem bitPeriodAfterFinishKeepsTheBytes : Obligations.BitPeriodAfterFinishKeepsTheBytes := by
  intro s hc hp
  have h := checkWindow_of_idle hc
  rw [exec_bitPeriod, bitPeriod_eq s (by rw [h]; exact hp), h]
  rfl

/-- Settles O14: the bit period's rule for a terminator with repeats left. -/
theorem bitPeriodRestartsAtATerminator : Obligations.BitPeriodRestartsAtATerminator := by
  intro s hc h0 h1 hr
  exact ⟨_, exec_statusPush _, congrArg _ (bitPeriod_of_restart hc h0 h1 hr)⟩

/-- Settles O15: the bit period's rule for a terminator with no repeats left. -/
theorem bitPeriodFinishesAtATerminator : Obligations.BitPeriodFinishesAtATerminator := by
  intro s hc hp h0 h1 hr
  exact ⟨_, exec_statusPush _, congrArg _ (bitPeriod_of_finish hc h0 h1 hp hr)⟩

/-- Settles O18: the framed value's named bit, with the format's test read off `formatA`. -/
theorem frameBitSendsTheNamedBit : Obligations.FrameBitSendsTheNamedBit := by
  intro s hp
  rw [exec_frameBit, frameBit, sendBit, framedValue_named hp]
  simp only [frameBitAt, lastFrameBit, formatA, beq_iff_eq]

/-- Settles O19: the named bit of either frame. -/
theorem frameRowsSendTheNamedBit : Obligations.FrameRowsSendTheNamedBit := by
  intro d p s hp
  rw [← frameValueA_named d hp, ← frameValueB_named d p hp]
  exact ⟨rfl, rfl⟩

/-- Settles O21: the sum of the two words is their natural sum modulo 2^32. -/
theorem bitAdvanceMovesTheCursor : Obligations.BitAdvanceMovesTheCursor := by
  intro s
  rw [exec_bitAdvance, bitAdvance_eq]
  simp only [nextBitPosition, nextBytePosition, formatA, beq_iff_eq, BitVec.add_def]
  split
  · split <;> rfl
  · rfl

/-- Settles O22: the bound-safe read by its bound, and the verdict by what a terminator is. -/
theorem windowCheckLoadsBoundSafe : Obligations.WindowCheckLoadsBoundSafe := by
  intro s
  constructor
  · exact fun hc => congrArg _ (if_neg (Bool.eq_false_iff.mp hc))
  · intro hc
    have hverdict := atTerminator_iff (loadWindow s)
    have hc' : (loadWindow s).tx.configured = true := hc
    simp only [hc', true_and] at hverdict
    refine ⟨(loadWindow s).respond (.window (atTerminator (loadWindow s))), congrArg _ (if_pos hc), rfl,
      fun h => if_pos h, fun h => if_neg (Nat.not_lt.mpr h), fun h => if_pos h, fun h => if_neg (Nat.not_lt.mpr h),
      ?_, ?_⟩
    · simpa using hverdict
    · simpa using not_congr hverdict

/-- Settles O23: RESTART as one status push and one new cursor, under the two tests of its condition. -/
theorem restartRewindsAndReports : Obligations.RestartRewindsAndReports := by
  intro s
  have hcond : (atTerminator s && repeatsLeft s) = true ↔ s.tx.configured = true ∧ s.cur.currentByte = 0 ∧
      s.cur.nextByte = 0 ∧ s.cur.repeatCounter.toNat < s.tx.repeatCount.toNat := by
    simp only [Bool.and_eq_true, atTerminator_iff, repeatsLeft_iff, and_assoc]
  constructor
  · intro hc h0 h1 hr
    refine ⟨_, exec_statusPush _, congrArg _ ((if_pos (hcond.mpr ⟨hc, h0, h1, hr⟩)).trans ?_)⟩
    rw [restartPayload_eq, BitVec.add_def]
    rfl
  · exact fun h => congrArg _ (if_neg (mt hcond.mp h))

/-- Settles O24: FINISH as one status push, a zero window and `configured` cleared, under the two tests of its condition. -/
theorem finishReportsAndDisables : Obligations.FinishReportsAndDisables := by
  intro s
  have hcond : (atTerminator s && !repeatsLeft s) = true ↔ s.tx.configured = true ∧ s.cur.currentByte = 0 ∧
      s.cur.nextByte = 0 ∧ s.tx.repeatCount.toNat ≤ s.cur.repeatCounter.toNat := by
    simp only [Bool.and_eq_true, Bool.not_eq_true', ← Bool.not_eq_true, atTerminator_iff, not_repeatsLeft_iff, and_assoc]
  constructor
  · intro hc h0 h1 hr
    exact ⟨_, exec_statusPush 0, congrArg _ ((if_pos (hcond.mpr ⟨hc, h0, h1, hr⟩)).trans (finishTransmission_eq s))⟩
  · exact fun h => congrArg _ (if_neg (mt hcond.mp h))

end Sys2Proof.Machine

/-! SUPPORT. Runs of bit periods and of audio ticks: a frame and a transmission, the restarts of an empty payload, the
gate's counter, and the first sample after a configuration (42_frame_encoder.md R231 to R233, R245, R247). -/

namespace Sys2Proof.Machine

/-! ### One frame -/

theorem sendBits_succ {n : Nat} {s t : State} {bs : List Bool} (h : sendBits n (bitPeriod s) = some (bs, t)) :
    sendBits (n + 1) s = some ((bitPeriod s).cur.currentBit :: bs, t) := by
  rw [sendBits, exec_bitPeriod]
  simp only [h, Option.map_some]

theorem sendBits_add {m n : Nat} {s t u : State} {bs cs : List Bool} (h : sendBits m s = some (bs, t))
    (h' : sendBits n t = some (cs, u)) : sendBits (m + n) s = some (bs ++ cs, u) := by
  induction m generalizing s bs with
  | zero =>
    cases h
    rw [Nat.zero_add]
    exact h'
  | succ m ih =>
    rw [sendBits, exec_bitPeriod] at h
    obtain ⟨⟨bs', t'⟩, hbs, heq⟩ := Option.map_eq_some_iff.mp h
    cases heq
    rw [Nat.add_right_comm]
    exact sendBits_succ (ih hbs)

/-- The bit of the frame of the window at `byte_position` that position `p` names (R235, R237). -/
def windowBit (s : State) (p : Nat) : Bool :=
  frameBitAt (payloadByte s s.cur.bytePosition.toNat)
    (lastFrameBit s (payloadByte s (s.cur.bytePosition.toNat + 1))) p

/-- The state after the last bit of the frame of the window at `byte_position` (R239). -/
def afterFrame (s : State) : State :=
  sendNamedBit (loadWindow { s with cur := { s.cur with bitPosition := 9 } })

section Frame
variable {s : State} (hc : s.tx.configured = true)
  (hw : ¬(payloadByte s s.cur.bytePosition.toNat = 0 ∧ payloadByte s (s.cur.bytePosition.toNat + 1) = 0))
include hc hw

theorem bitPeriod_of_lastBit (hp : s.cur.bitPosition = 9) : bitPeriod s = afterFrame s := by
  rw [bitPeriod_of_window hc (le_of_eq hp) hw, afterFrame, ← hp]

theorem bitPeriod_of_innerBit (hp : s.cur.bitPosition < 9) : bitPeriod s = { loadWindow s with
    cur := { (loadWindow s).cur with
      currentBit := windowBit s s.cur.bitPosition
      bitPosition := s.cur.bitPosition + 1 } } := by
  have hne : (loadWindow s).cur.bitPosition ≠ 9 := Nat.ne_of_lt hp
  rw [bitPeriod_of_window hc (Nat.le_of_lt hp) hw, sendNamedBit, nextBitPosition, nextBytePosition, if_neg hne,
    if_neg hne]
  rfl

/-- The bit periods from any bit of a frame to its last one: each leaves the window, and so the rest of the frame, as it
was. -/
theorem sendBits_restOfFrame (k : Nat) (hp : s.cur.bitPosition + k = 9) :
    sendBits (k + 1) s = some ((List.range' s.cur.bitPosition (k + 1)).map (windowBit s), afterFrame s) := by
  induction k generalizing s with
  | zero =>
    have hlast := bitPeriod_of_lastBit hc hw hp
    rw [sendBits_succ (show sendBits 0 (bitPeriod s) = some ([], afterFrame s) by rw [hlast]; rfl), hlast,
      show s.cur.bitPosition = 9 from hp]
    rfl
  | succ k ih =>
    have hinner := bitPeriod_of_innerBit hc hw (by omega)
    have hrest := ih (s := bitPeriod s) (by rw [hinner]; exact hc) (by rw [hinner]; exact hw)
      (by rw [hinner]; show s.cur.bitPosition + 1 + k = 9; omega)
    rw [sendBits_succ hrest, hinner]
    rfl

/-- Ten bit periods from bit 0 send the frame of the window (R235). -/
theorem sendBits_frame (hp : s.cur.bitPosition = 0) :
    sendBits 10 s = some ((List.range 10).map (windowBit s), afterFrame s) := by
  have h := sendBits_restOfFrame hc hw 9 (by rw [hp])
  rw [hp] at h
  exact h

/-- After the frame the cursor is one byte on, or two in format B: it does not wrap, for the window began inside the
payload (R239). -/
theorem afterFrame_bytePosition : (afterFrame s).cur.bytePosition.toNat =
    s.cur.bytePosition.toNat + if formatA s then 1 else 2 := by
  have hlt := bytePosition_lt_of_not_atTerminator hc (Bool.eq_false_iff.mpr (mt (loadWindow_terminator_iff hc).mp hw))
  show (s.cur.bytePosition + if formatA s then 1 else 2).toNat = _
  have hlt : s.cur.bytePosition.toNat < 512 := hlt
  split <;> bv_omega

end Frame

/-- Settles O16: the frame of the window, its ten bits written out. -/
theorem tenBitPeriodsSendOneFrame : Obligations.TenBitPeriodsSendOneFrame := by
  intro s hc hp hw
  exact ⟨_, sendBits_frame hc hw hp, rfl, afterFrame_bytePosition hc hw, rfl, rfl, rfl, rfl⟩

/-! ### A transmission -/

/-- The bits of the frames of the first `n` windows of a transmission (R245): one every byte, or every second byte. -/
def transmissionBits (s : State) (w n : Nat) : List Bool :=
  (List.range n).flatMap fun i => (List.range 10).map
    (frameBitAt (payloadByte s (w * i)) (lastFrameBit s (payloadByte s (w * i + 1))))

/-- From `s` to `t` only the cursor moved, on to bit 0 of byte `i` and with no restart. -/
structure AtByte (s : State) (i : Nat) (t : State) : Prop where
  keeps : t = { s with cur := t.cur }
  bitPosition : t.cur.bitPosition = 0
  bytePosition : t.cur.bytePosition.toNat = i
  repeatCounter : t.cur.repeatCounter = s.cur.repeatCounter

section Transmission
variable {s t : State}

/-- One frame of a transmission: its window is read from the payload that no bit period writes. -/
theorem AtByte.frame {i : Nat} (h : AtByte s i t) (hc : s.tx.configured = true)
    (hw : ¬(payloadByte s i = 0 ∧ payloadByte s (i + 1) = 0)) :
    sendBits 10 t = some ((List.range 10).map
        (frameBitAt (payloadByte s i) (lastFrameBit s (payloadByte s (i + 1)))), afterFrame t) ∧
      AtByte s (i + if formatA s then 1 else 2) (afterFrame t) := by
  obtain ⟨hkeeps, hbit, rfl, hrepeat⟩ := h
  obtain ⟨c, rfl⟩ : ∃ c, t = { s with cur := c } := ⟨_, hkeeps⟩
  exact ⟨sendBits_frame hc hw hbit, rfl, rfl, afterFrame_bytePosition hc hw, hrepeat⟩

theorem sendBits_transmission {w : Nat} (hc : s.tx.configured = true) (hw : w = if formatA s then 1 else 2)
    (hs : AtByte s 0 s) (n : Nat) (hwindows : ∀ i < n, ¬(payloadByte s (w * i) = 0 ∧ payloadByte s (w * i + 1) = 0)) :
    ∃ t, sendBits (10 * n) s = some (transmissionBits s w n, t) ∧ AtByte s (w * n) t := by
  induction n with
  | zero => exact ⟨s, rfl, hs⟩
  | succ n ih =>
    obtain ⟨t, hbits, ht⟩ := ih fun i hi => hwindows i (Nat.lt_succ_of_lt hi)
    obtain ⟨hframe, hnext⟩ := ht.frame hc (hwindows n n.lt_succ_self)
    rw [← hw] at hnext
    refine ⟨_, (sendBits_add hbits hframe).trans ?_, hnext⟩
    simp [transmissionBits, List.range_succ]

/-- The bit period at the terminator that ends a transmission: no gap (R245). -/
theorem AtByte.bitPeriod_terminator {i : Nat} (h : AtByte s i t) (hc : s.tx.configured = true)
    (h0 : payloadByte s i = 0) (h1 : payloadByte s (i + 1) = 0) :
    (s.cur.repeatCounter.toNat < s.tx.repeatCount.toNat →
      (bitPeriod t).tx = s.tx ∧ (bitPeriod t).cur.bytePosition = 0 ∧ (bitPeriod t).cur.currentByte = payloadByte s 0 ∧
      (bitPeriod t).qOut = (pushStatus (s.cur.repeatCounter + 1) t).qOut ∧
      (bitPeriod t).history = (pushStatus (s.cur.repeatCounter + 1) t).history) ∧
    (s.tx.repeatCount.toNat ≤ s.cur.repeatCounter.toNat →
      (bitPeriod t).tx.configured = false ∧ (bitPeriod t).qOut = (pushStatus 0 t).qOut ∧
      (bitPeriod t).history = (pushStatus 0 t).history) := by
  obtain ⟨hkeeps, hbit, rfl, hrepeat⟩ := h
  obtain ⟨c, rfl⟩ : ∃ c, t = { s with cur := c } := ⟨_, hkeeps⟩
  rw [← hrepeat]
  constructor
  · intro hr
    rw [bitPeriod_of_restart (s := { s with cur := c }) hc h0 h1 hr]
    exact ⟨pushStatus_tx _ _, rfl, rfl, rfl, rfl⟩
  · intro hr
    rw [bitPeriod_of_finish (s := { s with cur := c }) hc h0 h1 (le_of_eq_of_le hbit (Nat.zero_le 9)) hr]
    exact ⟨rfl, rfl, rfl⟩

end Transmission

/-- Settles O17: one frame after the other up to the first terminator, by induction on the frames; there the bit period
restarts or finishes, and at bit 0 either way sends a start bit. -/
theorem transmissionSendsThePayload : Obligations.TransmissionSendsThePayload := by
  intro s n w hc hp hb hw hwindows
  obtain ⟨t, hbits, ht⟩ := sendBits_transmission hc hw ⟨rfl, hp, by rw [hb]; rfl, rfl⟩ n hwindows
  have hkeeps := ht.keeps
  refine ⟨t, hbits, ht.bitPosition, ht.bytePosition, ht.repeatCounter, by rw [hkeeps], by rw [hkeeps], by rw [hkeeps],
    by rw [hkeeps], fun h0 h1 => ?_⟩
  obtain ⟨hstart, hone, -⟩ := bitPeriod_startBit ht.bitPosition
  obtain ⟨hrestart, hfinish⟩ := ht.bitPeriod_terminator hc h0 h1
  refine ⟨_, exec_bitPeriod t, hstart, hone, fun hr => ?_, fun hr => ?_⟩
  · obtain ⟨htx, hbyte, hcurrent, hout, hhistory⟩ := hrestart hr
    exact ⟨htx, hbyte, hcurrent, _, exec_statusPush _, hout, hhistory⟩
  · obtain ⟨hidle, hout, hhistory⟩ := hfinish hr
    exact ⟨hidle, _, exec_statusPush 0, hout, hhistory⟩

/-! ### An empty payload -/

theorem reportNumbers_append (es fs : List Event) : reportNumbers (es ++ fs) = reportNumbers es ++ reportNumbers fs := by
  induction es with
  | nil => rfl
  | cons e es ih => cases e <;> simp [reportNumbers, ih]

/-- The report is in the history, pushed or dropped (R185, R243). -/
theorem reportNumbers_pushStatus (n : Word) (s : State) :
    reportNumbers (pushStatus n s).history = reportNumbers s.history ++ [n] := by
  rcases pushStatus_cases n s with ⟨_, _, h⟩ | ⟨_, h⟩ <;> rw [h, record_history, reportNumbers_append] <;> rfl

/-- From `s` to `t` the empty payload restarted `k` times: the cursor is at the first bit of byte 0, or after it. -/
structure Restarted (s : State) (k : Nat) (t : State) : Prop where
  tx : t.tx = s.tx
  bytePosition : t.cur.bytePosition = 0
  bitPosition : t.cur.bitPosition ≤ 1
  repeatCounter : t.cur.repeatCounter.toNat = k
  reports : reportNumbers t.history =
    reportNumbers s.history ++ (List.range k).map fun j => BitVec.ofNat 32 (j + 1)

section EmptyPayload
variable {s t : State} {k : Nat} (hc : s.tx.configured = true) (h0 : payloadByte s 0 = 0) (h1 : payloadByte s 1 = 0)
  (h : Restarted s k t)
include hc h0 h1 h

theorem Restarted.terminator : t.tx.configured = true ∧ payloadByte t t.cur.bytePosition.toNat = 0 ∧
    payloadByte t (t.cur.bytePosition.toNat + 1) = 0 := by
  unfold payloadByte
  rw [h.tx, h.bytePosition]
  exact ⟨hc, h0, h1⟩

theorem Restarted.restart (hk : k < s.tx.repeatCount.toNat) :
    Restarted s (k + 1) (bitPeriod t) ∧ (bitPeriod t).cur.currentBit = false := by
  obtain ⟨hc', h0', h1'⟩ := h.terminator hc h0 h1
  have hr : t.cur.repeatCounter.toNat < t.tx.repeatCount.toNat := by rw [h.tx, h.repeatCounter]; exact hk
  have hnext : t.cur.repeatCounter + 1 = BitVec.ofNat 32 (k + 1) := by rw [BitVec.add_def, h.repeatCounter]; rfl
  have hlt := s.tx.repeatCount.isLt
  rw [bitPeriod_of_restart hc' h0' h1' hr]
  refine ⟨⟨(pushStatus_tx _ t).trans h.tx, rfl, le_refl 1, ?_, ?_⟩, rfl⟩
  · show (t.cur.repeatCounter + 1).toNat = k + 1
    rw [hnext, BitVec.toNat_ofNat]
    omega
  · show reportNumbers (pushStatus _ t).history = _
    rw [reportNumbers_pushStatus, h.reports, hnext]
    simp [List.range_succ]

theorem Restarted.finish (hk : s.tx.repeatCount.toNat ≤ k) : (bitPeriod t).tx.configured = false ∧
    (bitPeriod t).cur.currentBit = false ∧ reportNumbers (bitPeriod t).history = reportNumbers t.history ++ [0] := by
  obtain ⟨hc', h0', h1'⟩ := h.terminator hc h0 h1
  have hr : t.tx.repeatCount.toNat ≤ t.cur.repeatCounter.toNat := by rw [h.tx, h.repeatCounter]; exact hk
  have hp := h.bitPosition
  rw [bitPeriod_of_finish hc' h0' h1' (by omega) hr]
  refine ⟨rfl, ?_, reportNumbers_pushStatus 0 t⟩
  show frameBitAt 0 _ t.cur.bitPosition = false
  simp [frameBitAt, show t.cur.bitPosition ≠ 9 by omega]

end EmptyPayload

theorem restarted_iterate {s : State} (hc : s.tx.configured = true) (h0 : payloadByte s 0 = 0) (h1 : payloadByte s 1 = 0)
    (hs : Restarted s 0 s) : ∀ k ≤ s.tx.repeatCount.toNat, Restarted s k (bitPeriod^[k] s)
  | 0, _ => hs
  | k + 1, hk => by
    rw [Function.iterate_succ_apply']
    exact ((restarted_iterate hc h0 h1 hs k (Nat.le_of_lt hk)).restart hc h0 h1 hk).1

/-- Settles O26: C restarts by induction, then the finish. -/
theorem emptyPayloadReportsEachRepeat : Obligations.EmptyPayloadReportsEachRepeat := by
  intro s hc h0 h1 hbyte hbit hrepeat _
  have hs : Restarted s 0 s := ⟨rfl, hbyte, by omega, by rw [hrepeat]; rfl, (List.append_nil _).symm⟩
  have hrestarted := restarted_iterate hc h0 h1 hs
  constructor
  · intro k hk hkC
    obtain ⟨j, rfl⟩ := Nat.exists_eq_add_of_le' hk
    obtain ⟨h, hstart⟩ := (hrestarted j (Nat.le_of_lt hkC)).restart hc h0 h1 hkC
    rw [← Function.iterate_succ_apply' bitPeriod] at h hstart
    exact ⟨_, repeatExec_eq_iterate exec_bitPeriod .., h.tx ▸ hc, h.repeatCounter, hstart, h.reports⟩
  · have hC := hrestarted _ (le_refl _)
    obtain ⟨hidle, hstart, hreports⟩ := hC.finish hc h0 h1 (le_refl _)
    rw [hC.reports] at hreports
    refine ⟨_, repeatExec_eq_iterate exec_bitPeriod .., ?_⟩
    rw [Function.iterate_succ_apply']
    exact ⟨hidle, hstart, hreports⟩

/-! ### The gate -/

section Gate
variable {s t : State}

theorem exec_audioTick (s : State) : exec .audioTick s = .next (audioTick s) := rfl

theorem onAudioTick_iff (s : State) : onAudioTick s = true ↔ s.synth.divCounter = 0 := beq_iff_eq

theorem gateOpen_iff (s : State) : gateOpen s = true ↔ s.tx.samplesPerBit.toNat ≤ s.cur.sampleCounter.toNat :=
  decide_eq_true_iff

theorem audioTick_of_gateOpen (hd : s.synth.divCounter = 0) (hg : gateOpen s = true) :
    audioTick s = toneStep (setSampleCounter (reloadValue s) (bitPeriod s)) := by
  rw [audioTick, if_pos ((onAudioTick_iff s).mpr hd), encoderTick, if_pos hg]

theorem audioTick_of_gateClosed (hd : s.synth.divCounter = 0) (hg : ¬gateOpen s = true) :
    audioTick s = toneStep (setSampleCounter (s.cur.sampleCounter + 1) s) := by
  rw [audioTick, if_pos ((onAudioTick_iff s).mpr hd), encoderTick, if_neg hg]

/-- The bit's length is not written by a run of audio ticks. -/
theorem iterate_audioTick_samplesPerBit (n : Nat) (s : State) :
    (audioTick^[n] s).tx.samplesPerBit = s.tx.samplesPerBit := by
  induction n generalizing s with
  | zero => rfl
  | succ n ih => rw [Function.iterate_succ_apply, ih, (audioTick_keeps s).tx]

/-- The gate's counter stands at `v`, and the next output sample is an audio tick. -/
structure CountsTo (v : Nat) (t : State) : Prop where
  divCounter : t.synth.divCounter = 0
  sampleCounter : t.cur.sampleCounter.toNat = v

/-- The counter starts at the reload value with the bit period, and counts the ticks while the gate is closed (R231). -/
theorem countsTo_iterate_audioTick (hd : s.synth.divCounter = 0) (hg : gateOpen s = true) :
    ∀ j, (reloadValue s).toNat + j ≤ s.tx.samplesPerBit.toNat →
      CountsTo ((reloadValue s).toNat + j) (audioTick^[j + 1] s)
  | 0, _ => by
    rw [Function.iterate_one, audioTick_of_gateOpen hd hg]
    exact ⟨(congrArg _ (bitPeriod_keeps s).synth).trans hd, rfl⟩
  | j + 1, hj => by
    obtain ⟨hdiv, hcount⟩ := countsTo_iterate_audioTick hd hg j (by omega)
    have hlength := iterate_audioTick_samplesPerBit (j + 1) s
    have hclosed : ¬gateOpen (audioTick^[j + 1] s) = true := by rw [gateOpen_iff, hlength, hcount]; omega
    have hlt := s.tx.samplesPerBit.isLt
    rw [Function.iterate_succ_apply', audioTick_of_gateClosed hdiv hclosed]
    refine ⟨hdiv, ?_⟩
    show ((audioTick^[j + 1] s).cur.sampleCounter + 1).toNat = _
    rw [BitVec.toNat_add, hcount, show (1 : Word).toNat = 1 from rfl]
    omega

/-- Within one bit the gate opens again when the counter has reached the bit's length. -/
theorem gateOpen_iterate_audioTick (hd : s.synth.divCounter = 0) (hg : gateOpen s = true) {j : Nat}
    (hj : (reloadValue s).toNat + j ≤ s.tx.samplesPerBit.toNat) :
    ∃ t, repeatExec .audioTick (j + 1) s = some t ∧ t.cur.sampleCounter.toNat = (reloadValue s).toNat + j ∧
      (gateOpen t = true ↔ (reloadValue s).toNat + j = s.tx.samplesPerBit.toNat) := by
  have hcount := (countsTo_iterate_audioTick hd hg j hj).sampleCounter
  refine ⟨_, repeatExec_eq_iterate exec_audioTick .., hcount, ?_⟩
  rw [gateOpen_iff, iterate_audioTick_samplesPerBit, hcount]
  omega

end Gate

/-- Settles O25: the counter from the reload value to the bit's length, for either reload value. -/
theorem bitPeriodsAreEvenlySpaced : Obligations.BitPeriodsAreEvenlySpaced := by
  intro s hd hg
  refine ⟨fun hone k hk hks => ?_, fun hzero k hk hks => ?_, fun hs k => ?_⟩
  · have hreload : (reloadValue s).toNat = 1 := by rw [reloadValue, if_pos hone]; rfl
    obtain ⟨j, rfl⟩ := Nat.exists_eq_add_of_le hk
    have h := gateOpen_iterate_audioTick hd hg (j := j) (by omega)
    rwa [hreload, Nat.add_comm j 1] at h
  · have hreload : (reloadValue s).toNat = 0 := by rw [reloadValue, if_neg (Bool.eq_false_iff.mp hzero)]; rfl
    obtain ⟨j, rfl⟩ := Nat.exists_eq_add_of_le' hk
    have h := gateOpen_iterate_audioTick hd hg (j := j) (by omega)
    rw [hreload, Nat.zero_add] at h
    simpa using h
  · refine ⟨_, repeatExec_eq_iterate exec_audioTick .., ?_⟩
    rw [gateOpen_iff, iterate_audioTick_samplesPerBit, hs]
    exact Nat.zero_le _

/-! ### The first sample -/

/-- What one sample does to Config, OUT, the cursor and the tone is its audio tick's (R312, R313). -/
theorem resultOf_fill_one {s : State} (hi : s.io.issuer = .rt) (hc : s.tx.configured = true) :
    (resultOf (.fill 1) s).tx = (audioTick s).tx ∧ (resultOf (.fill 1) s).qOut = (audioTick s).qOut ∧
      (resultOf (.fill 1) s).cur = (audioTick s).cur ∧
      (resultOf (.fill 1) s).synth.tonePhase = (audioTick s).synth.tonePhase := by
  have hone : fillFrom (1 : Word).toNat 0 s = outputSample 0 s := rfl
  rw [resultOf_fill, asAgent_of_issuer s hi, if_pos hc, hone]
  simp only [respond_tx, respond_qOut, respond_cur, respond_synth, returnBuffer_tx, returnBuffer_qOut, returnBuffer_cur,
    returnBuffer_synth, outputSample, advanceSample]
  generalize audioTick s = u
  exact ⟨rfl, rfl, rfl, rfl⟩

/-- Settles O37: a configuration leaves the gate open and the divider at 0, so the first sample's tick is a bit period, and
it is a frame's first. -/
theorem firstSampleCarriesTheStartBit : Obligations.FirstSampleCarriesTheStartBit := by
  intro c s _ hi
  have hgate : gateOpen (applyConfiguration c s) = true := (gateOpen_iff _).mpr (le_refl _)
  have htick := audioTick_of_gateOpen (s := applyConfiguration c s) rfl hgate
  have hperiod := exec_bitPeriod (applyConfiguration c s)
  have hkeeps := bitPeriod_keeps (applyConfiguration c s)
  obtain ⟨hstart, hone, hbyte⟩ := bitPeriod_startBit (s := applyConfiguration c s) rfl
  obtain ⟨htx, hout, hcur, htone⟩ := resultOf_fill_one (s := applyConfiguration c s) hi rfl
  generalize bitPeriod (applyConfiguration c s) = u at htick hperiod hkeeps hstart hone hbyte
  rw [htick] at htx hout hcur htone
  refine ⟨_, u, _, rfl, hperiod, exec_eq_resultOf _ _, htx, hout, hcur, ?_, ?_, ?_, htone.trans ?_⟩
  · rw [hcur]
    exact hstart
  · rw [hcur]
    exact hone
  · rw [hcur]
    exact hbyte rfl
  · show u.synth.tonePhase + (if u.cur.currentBit then u.tx.phaseIncMark else u.tx.phaseIncSpace) = _
    rw [hstart, hkeeps.tx, hkeeps.synth]
    rfl

end Sys2Proof.Machine

/-! SUPPORT. The carrier: what FM_STEP adds to it, and the quarter of the table between I and Q (43_fm_iq.md R270, R271,
R272). -/

namespace Sys2Proof.Machine

theorem exec_fmStep (ts : Byte) (s : State) : exec (.fmStep ts) s = .next (fmStep ts s) := rfl

theorem exec_iqRead (s : State) : exec .iqRead s = .next (s.respond (.iqPair (inPhase s) (quadrature s))) := rfl

/-- Reducing the product modulo 2^32 before the sum or after it is the same (R270). -/
theorem add_deviation (a : Word) (ts : Byte) (scale : Word) :
    a + deviation ts scale = BitVec.ofInt 32 ((a.toNat : Int) + ts.toInt * scale.toInt) := by
  rw [deviation, BitVec.ofInt_add, BitVec.ofInt_natCast, BitVec.ofNat_toNat, BitVec.setWidth_eq]

theorem tableIndex_lt (a : Word) : tableIndex a < 256 := Nat.mod_lt _ (by decide)

/-- QUARTER is 64 entries of the table, which the index wraps around (R272). -/
theorem tableIndex_add_quarter (a : Word) : tableIndex (a + quarter) = (tableIndex a + 64) % 256 := by
  have hq : quarter.toNat = 64 * 2 ^ 18 := rfl
  rw [tableIndex_eq, tableIndex_eq, BitVec.toNat_add, hq]
  omega

/-- Settles O43: the sum modulo 2^32 of `carrier_phase` and the deviation is that of the exact integers. -/
theorem fmStepAddsTheDeviation : Obligations.FmStepAddsTheDeviation := by
  intro ts s
  rw [exec_fmStep, fmStep, add_deviation]

/-- Settles O44: both indices are below 256, where a legal table has its entries, and QUARTER moves the index by 64. -/
theorem iqReadIsAQuarterApart : Obligations.IqReadIsAQuarterApart := by
  intro s hl
  rw [← tableIndex_eq, ← tableIndex_add_quarter]
  exact ⟨_, _, tableEntry_eq hl (tableIndex_lt _), tableEntry_eq hl (tableIndex_lt _), exec_iqRead s⟩

end Sys2Proof.Machine

/-! SUPPORT. The Control Interface: the configuration a body decodes to, what APPLY_CONFIGURATION writes, and CTL_SERVICE by
what it finds in IN (44_control.md R290, R292, R294). -/

namespace Sys2Proof.Machine

/-! ### APPLY_CONFIGURATION and the message rows -/

section Apply
variable {c : ConfigMsg} {s t : State}

theorem exec_applyConfiguration (c : ConfigMsg) (s : State) :
    exec (.applyConfiguration c) s = .next (applyConfiguration c s) := rfl

theorem exec_msgConfigure (c : ConfigMsg) (s : State) : exec (.msgConfigure c) s = .next (deliver (.configure c) s) := rfl

theorem exec_msgStatus (n : Word) (s : State) : exec (.msgStatus n) s = .next (deliver (.status n) s) := rfl

theorem deliver_configure (c : ConfigMsg) (s : State) :
    deliver (.configure c) s = ((applyConfiguration c s).record .configApplied).respond .applied := rfl

theorem deliver_status (n : Word) (s : State) :
    deliver (.status n) s = (s.record (.configIgnored .status)).respond .ignored := rfl

theorem payload_length_of_wellFormed (h : c.wellFormed = true) : c.payload.length = 512 := by
  simpa [ConfigMsg.wellFormed] using h

/-- Config, Cursor and the synthesizer are all that `AppliedBy` reads of the next state. -/
theorem AppliedBy.congr {u : State} (h : AppliedBy c s t) (tx : u.tx = t.tx) (cur : u.cur = t.cur)
    (synth : u.synth = t.synth) : AppliedBy c s u where
  configured := tx ▸ h.configured
  payload i hi := by simpa only [payloadByte, tx] using h.payload i hi
  samplesPerBit := tx ▸ h.samplesPerBit
  phaseIncMark := tx ▸ h.phaseIncMark
  phaseIncSpace := tx ▸ h.phaseIncSpace
  bandwidthScale := tx ▸ h.bandwidthScale
  repeatCount := tx ▸ h.repeatCount
  alternateFormat := tx ▸ h.alternateFormat
  cursor := cur.trans h.cursor
  synth := synth.trans h.synth

/-- A delivered ConfigureMessage is applied, so what is applied is what the delivery's rule says (R292). -/
theorem applyConfiguration_appliedBy (h : c.wellFormed = true) (s : State) : AppliedBy c s (applyConfiguration c s) :=
  (deliver_configure_appliedBy (payload_length_of_wellFormed h) (u := s) rfl).congr rfl rfl rfl

end Apply

/-- A body of a ConfigureMessage's length and discriminant is one (R124, R126). -/
theorem decode_body_configure {b : List Byte} (hl : b.length = 534) (h0 : b[0]? = some 1) :
    decode (.body b) = .ok (.msgConfigure (decConfig b)) := by
  have hkind : byteField b 0 = 0x01#8 := by rw [byteField, List.getD_eq_getElem?_getD, h0]; rfl
  have hdec : decMsg b = some (.configure (decConfig b)) := if_pos ⟨hl, hkind⟩
  simp only [decode, decodeBody, hdec]

/-- The last byte of the body is the format's, and only 0 in it is false (R126). -/
theorem decConfig_alternateFormat_eq_false_iff {b : List Byte} (hl : b.length = 534) :
    (decConfig b).alternateFormat = false ↔ b[533]? = some 0 := by
  have hlt : 533 < b.length := by omega
  simp [decConfig, byteField, hlt]

/-- Settles O36: the fields an application writes, its frame by computation, and the decoded body. -/
theorem applyConfigurationReplacesConfigAndCursor : Obligations.ApplyConfigurationReplacesConfigAndCursor := by
  refine ⟨fun c s hw => ?_, fun b hl h0 => ?_⟩
  · exact ⟨_, exec_applyConfiguration c s, applyConfiguration_appliedBy hw s, rfl, rfl, rfl, rfl, rfl, rfl, rfl⟩
  · exact ⟨_, decode_body_configure hl h0, decConfig_wellFormed hl, decConfig_alternateFormat_eq_false_iff hl⟩

/-- Settles O38: both rows deliver their message. -/
theorem messageRowsArriveAtControl : Obligations.MessageRowsArriveAtControl := by
  refine fun s => ⟨fun c hw => ?_, fun n => ?_⟩
  · refine ⟨_, _, exec_applyConfiguration c s, exec_msgConfigure c s, ?_, ?_⟩
    · rw [deliver_configure]
      rfl
    · exact deliver_configure_appliedBy (payload_length_of_wellFormed hw) rfl
  · rw [exec_msgStatus, deliver_status]
    rfl

/-! ### CTL_SERVICE by what it finds in IN -/

section Service
variable {s : State}

theorem exec_ctlService_of_issuer (ha : s.io.issuer = .ctl) : exec .ctlService s = .next (serviceControl s) := by
  rw [exec_eq_resultOf, resultOf_ctlService, asAgent_of_issuer s ha]

theorem popQueue_of_used {x : QueueId} (hu : (s.queue x).used = 0) : popQueue x s = (.empty, s) := if_pos hu

theorem popQueue_of_malformed {x : QueueId} (hu : (s.queue x).used ≠ 0)
    (hd : decMsg ((s.queue x).headBody (ringCapacity s.params x)) = none) : popQueue x s = (.corrupt, s) := by
  rcases popQueue_cases x s with ⟨h, _⟩ | ⟨_, _, e⟩ | ⟨m, _, h, _⟩
  · exact absurd h hu
  · exact e
  · rw [hd] at h
    cases h

theorem serviceControl_of_used (hu : s.qIn.used = 0) :
    serviceControl s = (setDoorbell .inbound false s).respond .empty := by
  rw [serviceControl, popQueue_of_used (x := .inbound) (s := setDoorbell .inbound false s) hu]

/-- The doorbell is taken before the record is read (R290, log 19). -/
theorem serviceControl_of_malformed (hu : s.qIn.used ≠ 0)
    (hd : decMsg (s.qIn.headBody (ringCapacity s.params .inbound)) = none) :
    serviceControl s = (setDoorbell .inbound false s).fail .queueCorrupt := by
  rw [serviceControl, popQueue_of_malformed (x := .inbound) (s := setDoorbell .inbound false s) hu hd]

/-- The first message is taken out of IN and delivered; the rest stays (R290). -/
theorem serviceControl_of_contents {m : Msg} {ms : List Msg} (h : Contents s .inbound (m :: ms)) :
    ∃ q : Queue, q = { s.qIn with rd := s.qIn.rd + BitVec.ofNat 32 (encRecord m).length, dbPending := false } ∧
      serviceControl s = deliver m { s with qIn := q } ∧ Contents { s with qIn := q } .inbound ms := by
  have hbell : Contents (setDoorbell .inbound false s) .inbound (m :: ms) := ⟨h.used, h.records⟩
  obtain ⟨hpop, hrest⟩ := popQueue_of_contents hbell
  refine ⟨_, rfl, ?_, hrest.congr rfl rfl⟩
  rw [serviceControl, hpop]
  rfl

end Service

theorem encRecord_configure_length {c : ConfigMsg} (h : c.wellFormed = true) :
    (encRecord (.configure c)).length = 536 := by
  rw [encRecord_length, encMsg, encConfig_length h, show recHdr + maxMsg = 536 from rfl]

/-- Settles O34: the service delivers the record's message, whose length is a ConfigureMessage's. -/
theorem ctlServiceAppliesAConfiguration : Obligations.CtlServiceAppliesAConfiguration := by
  intro c ms s ha h
  have hw : c.wellFormed = true := h.records.1 (.configure c) (List.mem_cons_self ..)
  obtain ⟨q, hq, hservice, hrest⟩ := serviceControl_of_contents h
  rw [encRecord_configure_length hw] at hq
  refine ⟨_, (exec_ctlService_of_issuer ha).trans (congrArg _ hservice), rfl,
    deliver_configure_appliedBy (payload_length_of_wellFormed hw) rfl, hq, hrest.congr rfl rfl, rfl, rfl, rfl, rfl,
    rfl, rfl⟩

/-- Settles O35: nothing in IN, a StatusMessage first, and a record that is no message. -/
theorem ctlServiceWithoutAConfiguration : Obligations.CtlServiceWithoutAConfiguration := by
  intro s ha
  rw [exec_ctlService_of_issuer ha]
  refine ⟨fun hu => ?_, fun n ms h => ?_, ?_⟩
  · rw [serviceControl_of_used hu]
    rfl
  · obtain ⟨q, hq, hservice, -⟩ := serviceControl_of_contents h
    rw [encRecord_status_length] at hq
    rw [hservice, deliver_status, hq]
    rfl
  · rintro _ hu rfl hconfig hstatus
    rw [serviceControl_of_malformed hu (decMsg_eq_none hconfig hstatus)]
    rfl

end Sys2Proof.Machine

/-! SUPPORT. AUDIO_TICK by its conditions, and the reports one tick makes (45_sample_callback.md R312, 42_frame_encoder.md
R243). -/

namespace Sys2Proof.Machine

theorem audioTick_offTick {s : State} (hd : s.synth.divCounter ≠ 0) : audioTick s = s := by
  rw [audioTick, if_neg (mt (onAudioTick_iff s).mp hd)]

/-- Of the synthesizer an audio tick writes the tone's accumulator only (R312). -/
theorem audioTick_synth (s : State) :
    (audioTick s).synth = { s.synth with tonePhase := (audioTick s).synth.tonePhase } := by
  have h := (encoderTick_keeps s).synth
  unfold audioTick
  split
  · rw [toneStep, h]
  · rfl

/-- Settles O11: the three conditions of the tick; the bit period writes nothing that TONE_STEP reads but the bit. -/
theorem audioTickRunsTheGateThenTheTone : Obligations.AudioTickRunsTheGateThenTheTone := by
  intro s
  rw [exec_audioTick]
  refine ⟨fun hd => ?_, fun hd hclosed => ?_, fun hd hopen => ⟨bitPeriod s, exec_bitPeriod s, ?_⟩⟩
  · rw [audioTick_offTick hd]
  · rw [audioTick_of_gateClosed hd (by rw [gateOpen_iff]; omega), BitVec.ofNat_add, BitVec.ofNat_toNat,
      BitVec.setWidth_eq]
    rfl
  · have hkeeps := bitPeriod_keeps s
    rw [audioTick_of_gateOpen hd ((gateOpen_iff s).mpr hopen), ← hkeeps.synth,
      show s.tx.phaseIncMark = (bitPeriod s).tx.phaseIncMark by rw [hkeeps.tx],
      show s.tx.phaseIncSpace = (bitPeriod s).tx.phaseIncSpace by rw [hkeeps.tx]]
    rfl

/-! ### The reports of a tick -/

section Reports
variable {s t : State}

/-- From `s` to `t` the reports `ns` were made: OUT's read side and its lock are kept, and the history grows by the reports'
events, none of them a Sample (R185, R243). -/
structure Reported (s : State) (ns : List Word) (t : State) : Prop where
  rd : t.qOut.rd = s.qOut.rd
  lock : t.qOut.lock = s.qOut.lock
  events : ∃ es, t.history = s.history ++ es ∧ es.filter isSample = [] ∧ reportNumbers es = ns

theorem Reported.reportNumbers_eq {ns : List Word} (h : Reported s ns t) :
    reportNumbers t.history = reportNumbers s.history ++ ns := by
  obtain ⟨es, hes, _, rfl⟩ := h.events
  rw [hes, reportNumbers_append]

/-- Where OUT and the history stay, nothing was reported. -/
theorem reported_nil (qOut : t.qOut = s.qOut) (history : t.history = s.history) : Reported s [] t :=
  ⟨by rw [qOut], by rw [qOut], [], by rw [history, List.append_nil], rfl, rfl⟩

/-- A push takes the free lock and gives it back; a dropped report leaves OUT alone (R174, R185). -/
theorem pushStatus_reported (n : Word) (s : State) : Reported s [n] (pushStatus n s) := by
  rcases pushStatus_cases n s with ⟨hlock, _, h⟩ | ⟨r, h⟩ <;> rw [h]
  · exact ⟨rfl, hlock.symm, _, rfl, rfl, rfl⟩
  · exact ⟨rfl, rfl, _, rfl, rfl, rfl⟩

/-- The report of a bit period: at a terminator the number of the restart, or 0 for the finish (R240, R241). -/
def windowReport (s : State) : List Word :=
  if atTerminator (loadWindow s) then [if repeatsLeft s then s.cur.repeatCounter + 1 else 0] else []

theorem checkWindow_reported (s : State) : Reported s (windowReport s) (checkWindow s) := by
  unfold windowReport
  rcases checkWindow_cases s with ⟨hc, h⟩ | ⟨_, ht, h⟩ | ⟨_, ht, hr, h⟩ | ⟨_, ht, hr, h⟩ <;> rw [h]
  · have ht : ¬atTerminator (loadWindow s) = true := fun ht => by
      have hc' : s.tx.configured = true := ((atTerminator_iff _).mp ht).1
      rw [hc] at hc'
      cases hc'
    rw [if_neg ht]
    exact reported_nil rfl rfl
  · rw [if_neg (Bool.eq_false_iff.mp ht)]
    exact reported_nil rfl rfl
  · have hr : repeatsLeft s = true := hr
    obtain ⟨hrd, hlock, hevents⟩ := pushStatus_reported (s.cur.repeatCounter + 1) (loadWindow s)
    rw [if_pos ht, if_pos hr, restartPayload_eq]
    exact ⟨hrd, hlock, hevents⟩
  · have hr : ¬repeatsLeft s = true := Bool.eq_false_iff.mp hr
    obtain ⟨hrd, hlock, hevents⟩ := pushStatus_reported 0 (loadWindow s)
    rw [if_pos ht, if_neg hr, finishTransmission_eq]
    exact ⟨hrd, hlock, hevents⟩

/-- The report of an audio tick is that of its bit period, if it runs one (R231, R312). -/
def tickReport (s : State) : List Word :=
  if onAudioTick s && gateOpen s then windowReport s else []

theorem audioTick_reported (s : State) : Reported s (tickReport s) (audioTick s) := by
  unfold tickReport
  by_cases hd : s.synth.divCounter = 0
  · by_cases hg : gateOpen s = true
    · obtain ⟨hrd, hlock, hevents⟩ := checkWindow_reported s
      rw [if_pos (by simp [onAudioTick_iff, hd, hg]), audioTick_of_gateOpen hd hg, bitPeriod, bitAdvance_eq]
      exact ⟨hrd, hlock, hevents⟩
    · rw [if_neg (by simp [hg]), audioTick_of_gateClosed hd hg]
      exact reported_nil rfl rfl
  · rw [if_neg (by simp [onAudioTick_iff, hd]), audioTick_offTick hd]
    exact reported_nil rfl rfl

end Reports

end Sys2Proof.Machine

/-! SUPPORT. One output sample as what it does beyond its audio tick, and FILL as one sample after another
(45_sample_callback.md R310, R311, R313, R316). -/

namespace Sys2Proof.Machine

/-! ### One output sample -/

/-- The synthesizer after an output sample whose audio tick left `s`: the carrier moves by the new tone sample, the divider
by one (R313). -/
def sampledSynth (s : State) : Synth where
  tonePhase := s.synth.tonePhase
  carrierPhase := s.synth.carrierPhase + deviation (toneSample s) s.tx.bandwidthScale
  divCounter := (s.synth.divCounter + 1) % s.params.audioDiv

section Sample
variable (i : Nat) (s : State)

theorem advanceSample_eq : advanceSample s = { audioTick s with synth := sampledSynth (audioTick s) } := rfl

theorem outputSample_tx : (outputSample i s).tx = (audioTick s).tx := rfl

theorem outputSample_synth : (outputSample i s).synth = sampledSynth (audioTick s) := rfl

theorem outputSample_cur : (outputSample i s).cur = (audioTick s).cur := rfl

theorem outputSample_qIn : (outputSample i s).qIn = (audioTick s).qIn := rfl

theorem outputSample_qOut : (outputSample i s).qOut = (audioTick s).qOut := rfl

theorem outputSample_history : (outputSample i s).history =
    (audioTick s).history ++ [.sample i (inPhase (advanceSample s)) (quadrature (advanceSample s))] := rfl

theorem outputSample_buffer : (outputSample i s).io.buffer =
    writeByte (writeByte s.io.buffer (2 * i) (inPhase (advanceSample s))) (2 * i + 1)
      (quadrature (advanceSample s)) := by
  show writeByte (writeByte (audioTick s).io.buffer _ _) _ _ = _
  rw [audioTick_io]

/-- An output sample writes no byte but its element's two (R85). -/
theorem outputSample_buffer_ne {a : Nat} (h0 : a ≠ 2 * i) (h1 : a ≠ 2 * i + 1) :
    readByte (outputSample i s).io.buffer a = readByte s.io.buffer a := by
  rw [outputSample_buffer, readByte_writeByte_ne _ h1, readByte_writeByte_ne _ h0]

/-- Its element holds the pair: I at the even byte, Q at the odd one (R85). -/
theorem outputSample_buffer_pair (hwf : s.io.buffer.wf = true) :
    readByte (outputSample i s).io.buffer (2 * i) = inPhase (advanceSample s) ∧
      readByte (outputSample i s).io.buffer (2 * i + 1) = quadrature (advanceSample s) := by
  rw [outputSample_buffer]
  constructor
  · rw [readByte_writeByte_ne _ (by omega), readByte_writeByte hwf, if_pos rfl]
  · rw [readByte_writeByte (writeByte_wf _ _ hwf), if_pos rfl]

/-- What the carrier's accumulator adds up to, in exact integers (R270, R271). -/
theorem advanceSample_carrierPhase : (advanceSample s).synth.carrierPhase = BitVec.ofInt 32
    ((s.synth.carrierPhase.toNat : Int) + (toneSample (audioTick s)).toInt * s.tx.bandwidthScale.toInt) := by
  rw [← add_deviation, advanceSample_eq, sampledSynth, audioTick_synth, (audioTick_keeps s).tx]

end Sample

/-- A read of the table at a phase (R44, R211). -/
theorem sineTable_getElem? {s : State} (hl : s.params.legal) (a : Word) :
    s.params.sineTable[a.toNat / 2 ^ 18 % 256]? = some (tableEntry s (tableIndex a)) := by
  rw [← tableIndex_eq]
  exact tableEntry_eq hl (tableIndex_lt a)

/-- A read of the table a quarter cycle on (R272). -/
theorem sineTable_getElem?_quarter {s : State} (hl : s.params.legal) (a : Word) :
    s.params.sineTable[(a.toNat + 2 ^ 24) / 2 ^ 18 % 256]? = some (tableEntry s (tableIndex (a + quarter))) := by
  have hindex : (a.toNat + 2 ^ 24) / 2 ^ 18 % 256 = tableIndex (a + quarter) := by
    rw [tableIndex_add_quarter, tableIndex_eq]
    omega
  rw [hindex]
  exact tableEntry_eq hl (tableIndex_lt _)

/-! ### FILL -/

/-- The last sample of a FILL is an output sample after the others. -/
theorem fillFrom_succ (n i : Nat) (s : State) : fillFrom (n + 1) i s = outputSample (i + n) (fillFrom n i s) :=
  fillFrom_add n 1 i s

/-- Beyond its last element a FILL writes nothing (R85, R310). -/
theorem fillFrom_buffer_rest (n i : Nat) (s : State) {a : Nat} (ha : 2 * (i + n) ≤ a) :
    readByte (fillFrom n i s).io.buffer a = readByte s.io.buffer a := by
  induction n with
  | zero => rfl
  | succ n ih => rw [fillFrom_succ, outputSample_buffer_ne _ _ (by omega) (by omega), ih (by omega)]

/-- FILL reports on OUT but neither reads it nor keeps its lock (R182, R185). -/
theorem fillFrom_readSide (n i : Nat) (s : State) :
    (fillFrom n i s).qOut.rd = s.qOut.rd ∧ (fillFrom n i s).qOut.lock = s.qOut.lock := by
  refine fillFrom_induction (P := fun t => t.qOut.rd = s.qOut.rd ∧ t.qOut.lock = s.qOut.lock) ?_ n i s ⟨rfl, rfl⟩
  rintro j t ⟨hrd, hlock⟩
  have h := audioTick_reported t
  rw [outputSample_qOut]
  exact ⟨h.rd.trans hrd, h.lock.trans hlock⟩

/-- Returning the buffer and handing back the outcome write the edge only (R340, R398). -/
theorem returnBuffer_respond_eq (n : Word) (s : State) (r : Response) :
    (returnBuffer n s).respond r = { s with io := { s.io with
      filled := (returnBuffer n s).io.filled
      response := r } } := by
  unfold returnBuffer
  split <;> rfl

theorem exec_fill_of_idle (n : Word) {s : State} (hi : s.io.issuer = .rt) (hc : s.tx.configured = false) :
    exec (.fill n) s = .next (s.respond .notConfigured) := by
  rw [exec_eq_resultOf, resultOf_fill, asAgent_of_issuer s hi, hc]
  rfl

/-- Settles O4: the branch of an idle FILL. -/
theorem fillWhileIdleDoesNothing : Obligations.FillWhileIdleDoesNothing := by
  intro n s hi hc
  exact exec_fill_of_idle n hi hc

/-- Settles O5: no sample, and no buffer to return. -/
theorem fillOfNoSamplesWritesNothing : Obligations.FillOfNoSamplesWritesNothing := by
  intro s hi
  cases hc : s.tx.configured with
  | false => exact exec_fill_of_idle 0 hi hc
  | true => exact exec_fill 0 hi hc

/-- Settles O6: the frames of the samples, and the one buffer returned after them. -/
theorem fillCompletesAndKeepsTheRest : Obligations.FillCompletesAndKeepsTheRest := by
  intro n s hi hc
  have hkeeps := fillFrom_keeps n.toNat 0 s
  obtain ⟨hrd, hlock⟩ := fillFrom_readSide n.toNat 0 s
  have hio := hkeeps.io
  refine ⟨_, exec_fill n hi hc, ?_⟩
  rw [returnBuffer_respond_eq, returnBuffer_filled]
  refine ⟨rfl, hkeeps.params, hkeeps.tx, hkeeps.qIn, hrd, hlock, hkeeps.faultMark, hkeeps.refusalMark, ?_, ?_,
    fun a ha => fillFrom_buffer_rest n.toNat 0 s (by omega)⟩
  · rw [hio]
  · rw [hio]

/-! ### The pairs of a FILL -/

/-- From `s` to `t` the pairs `iq` were written to the elements from 0 up, and recorded in order. -/
structure SamplesWritten (s : State) (iq : List (Byte × Byte)) (t : State) : Prop where
  bufferWf : t.io.buffer.wf = true
  events : ∃ es, t.history = s.history ++ es ∧ es.filter isSample = iq.mapIdx fun i p => .sample i p.1 p.2
  elements : ∀ i p, iq[i]? = some p →
    readByte t.io.buffer (2 * i) = p.1 ∧ readByte t.io.buffer (2 * i + 1) = p.2

/-- The next output sample's pair is the next one written: its reports are no Samples, and it touches no earlier
element. -/
theorem SamplesWritten.outputSample {s t : State} {iq : List (Byte × Byte)} (h : SamplesWritten s iq t) :
    SamplesWritten s (iq ++ [(inPhase (advanceSample t), quadrature (advanceSample t))])
      (outputSample iq.length t) := by
  obtain ⟨es, hes, hsamples⟩ := h.events
  obtain ⟨rs, hrs, hnone, _⟩ := (audioTick_reported t).events
  refine ⟨?_, ⟨es ++ rs ++ [.sample iq.length (inPhase (advanceSample t)) (quadrature (advanceSample t))], ?_, ?_⟩, ?_⟩
  · rw [outputSample_buffer]
    exact writeByte_wf _ _ (writeByte_wf _ _ h.bufferWf)
  · rw [outputSample_history, hrs, hes]
    simp only [List.append_assoc]
  · rw [List.filter_append, List.filter_append, hsamples, hnone, List.mapIdx_append]
    simp [isSample]
  · intro i p hp
    rcases Nat.lt_or_ge i iq.length with hi | hi
    · rw [List.getElem?_append_left hi] at hp
      rw [outputSample_buffer_ne _ _ (by omega) (by omega), outputSample_buffer_ne _ _ (by omega) (by omega)]
      exact h.elements i p hp
    · obtain ⟨rfl, rfl⟩ : i = iq.length ∧ p = (inPhase (advanceSample t), quadrature (advanceSample t)) := by
        rw [List.getElem?_append_right hi, List.getElem?_singleton] at hp
        split at hp
        · next h0 => exact ⟨by omega, by simpa using hp.symm⟩
        · cases hp
      exact outputSample_buffer_pair _ _ h.bufferWf

theorem fillFrom_samplesWritten {s : State} (hwf : s.io.buffer.wf = true) (n : Nat) :
    ∃ iq, iq.length = n ∧ SamplesWritten s iq (fillFrom n 0 s) := by
  induction n with
  | zero => exact ⟨[], rfl, hwf, ⟨[], (List.append_nil _).symm, rfl⟩, fun _ _ hp => by simp at hp⟩
  | succ n ih =>
    obtain ⟨iq, rfl, h⟩ := ih
    rw [fillFrom_succ, Nat.zero_add]
    exact ⟨_, List.length_append, h.outputSample⟩

/-- Settles O7: the pairs are those of the output samples, collected one by one. -/
theorem fillWritesEachElementOnce : Obligations.FillWritesEachElementOnce := by
  intro n s hi hc hwf
  obtain ⟨iq, hlen, h⟩ := fillFrom_samplesWritten hwf n.toNat
  obtain ⟨es, hes, hsamples⟩ := h.events
  refine ⟨_, es, iq, exec_fill n hi hc, ?_⟩
  rw [returnBuffer_respond_eq]
  exact ⟨hes, hlen, hsamples, h.elements⟩

/-- Settles O8: sample `n` is an output sample of the state after `n` of them, which FILL of `n` leaves but for the edge,
and the edge is nothing to an audio tick. -/
theorem fillOneSampleFollowsTheOrder : Obligations.FillOneSampleFollowsTheOrder := by
  intro n s hi hc hl hwf hn
  have hlt : (BitVec.ofNat 32 n).toNat = n := by rw [BitVec.toNat_ofNat]; omega
  have hlt' : (BitVec.ofNat 32 (n + 1)).toNat = n + 1 := by rw [BitVec.toNat_ofNat]; omega
  have hfill := exec_fill (BitVec.ofNat 32 n) hi hc
  have hfill' := exec_fill (BitVec.ofNat 32 (n + 1)) hi hc
  rw [hlt, returnBuffer_respond_eq] at hfill
  rw [hlt', fillFrom_succ, Nat.zero_add, returnBuffer_respond_eq] at hfill'
  have hkeeps := fillFrom_keeps n 0 s
  have hbuffer := fillFrom_bufferWf n 0 s hwf
  generalize fillFrom n 0 s = b at hfill hfill' hkeeps hbuffer
  have hparams := (audioTick_keeps b).params.trans hkeeps.params
  have hscale : b.tx.bandwidthScale = s.tx.bandwidthScale := by rw [hkeeps.tx]
  obtain ⟨hI, hQ⟩ := outputSample_buffer_pair n b hbuffer
  rw [← hparams] at hl ⊢
  refine ⟨_, _, _, toneSample (audioTick b), inPhase (advanceSample b), quadrature (advanceSample b),
    (advanceSample b).synth.carrierPhase, hfill, (exec_audioTick _).trans (congrArg _ (audioTick_setIo b _)), hfill',
    sineTable_getElem? hl _, ?_, sineTable_getElem? hl _, sineTable_getElem?_quarter hl _, ?_, outputSample_cur n b,
    outputSample_tx n b, outputSample_qIn n b, outputSample_qOut n b, outputSample_history n b, hI, hQ,
    fun a h0 h1 => outputSample_buffer_ne n b h0 h1⟩
  · rw [← hscale]
    exact advanceSample_carrierPhase b
  · rw [show b.synth.divCounter = (audioTick b).synth.divCounter by rw [audioTick_synth]]
    exact outputSample_synth n b

/-! ### FILLs one after another -/

/-- The block stands in `t` as in `s`, up to the edge, the marks and what the history says beside the reports. -/
structure SameRun (s t : State) : Prop where
  params : t.params = s.params
  tx : t.tx = s.tx
  synth : t.synth = s.synth
  cur : t.cur = s.cur
  qIn : t.qIn = s.qIn
  qOut : t.qOut = s.qOut
  reports : reportNumbers t.history = reportNumbers s.history

section SameRun
variable {s t : State}

/-- Two such states differ in their ghosts and at the edge. -/
theorem SameRun.exists_eq (h : SameRun s t) : ∃ g io, t = { s.withGhosts g with io := io } := by
  obtain ⟨hparams, htx, hsynth, hcur, hin, hout, _⟩ := h
  refine ⟨⟨t.history, t.faultMark, t.refusalMark, .none⟩, t.io, ?_⟩
  rw [State.withGhosts, ← hparams, ← htx, ← hsynth, ← hcur, ← hin, ← hout]

/-- An audio tick reads neither ghosts nor the edge, and what it reports it reads from the block. -/
theorem audioTick_sameRun (h : SameRun s t) : SameRun (audioTick s) (audioTick t) := by
  have hs := (audioTick_reported s).reportNumbers_eq
  have ht := (audioTick_reported t).reportNumbers_eq
  have hreports := h.reports
  obtain ⟨g, io, rfl⟩ := h.exists_eq
  obtain ⟨g', hg'⟩ := audioTick_ignoresGhosts s g
  have htick : audioTick { s.withGhosts g with io := io } = { (audioTick s).withGhosts g' with io := io } := by
    rw [audioTick_setIo, hg']
  have hreport : tickReport { s.withGhosts g with io := io } = tickReport s := rfl
  rw [hreports, hreport, ← hs, htick] at ht
  rw [htick]
  exact ⟨rfl, rfl, rfl, rfl, rfl, rfl, ht⟩

theorem outputSample_sameRun (h : SameRun s t) (i j : Nat) : SameRun (outputSample i s) (outputSample j t) := by
  obtain ⟨hparams, htx, hsynth, hcur, hin, hout, hreports⟩ := audioTick_sameRun h
  refine ⟨hparams, htx, ?_, hcur, hin, hout, ?_⟩
  · simp only [outputSample_synth, sampledSynth, toneSample, tableEntry, hparams, htx, hsynth]
  · simp only [outputSample_history, reportNumbers_append, reportNumbers, hreports]

/-- FILL runs alike from any element, into any buffer. -/
theorem fillFrom_sameRun (n : Nat) (h : SameRun s t) (i j : Nat) : SameRun (fillFrom n i s) (fillFrom n j t) := by
  induction n with
  | zero => exact h
  | succ n ih =>
    rw [fillFrom_succ, fillFrom_succ]
    exact outputSample_sameRun ih _ _

/-- Returning the buffer and handing back the outcome leave the block alone. -/
theorem returnBuffer_respond_sameRun (n : Word) (s : State) (r : Response) :
    SameRun s ((returnBuffer n s).respond r) := by
  rw [returnBuffer_respond_eq]
  exact ⟨rfl, rfl, rfl, rfl, rfl, rfl, rfl⟩

end SameRun

/-- Settles O9: FILL of `m + n` is `m` samples and then `n` more, and those run alike from the state FILL of `m` leaves. -/
theorem fillRunsOnAcrossBuffers : Obligations.FillRunsOnAcrossBuffers := by
  intro m n s t hi hlt hc ht hct
  have hsum : (m + n).toNat = m.toNat + n.toNat := by rw [BitVec.toNat_add, Nat.mod_eq_of_lt hlt]
  obtain rfl := Host.Outcome.next.inj ((exec_fill m hi hc).symm.trans ht)
  have hissuer : ((returnBuffer m (fillFrom m.toNat 0 s)).respond .filled).io.issuer = .rt := by
    rw [respond_issuer, returnBuffer_issuer, (fillFrom_keeps m.toNat 0 s).io]
    exact hi
  have hrun := fillFrom_sameRun n.toNat (returnBuffer_respond_sameRun m (fillFrom m.toNat 0 s) .filled) (0 + m.toNat) 0
  rw [← fillFrom_add, ← hsum] at hrun
  refine ⟨_, _, exec_fill n hissuer hct, exec_fill (m + n) hi hc, ?_⟩
  rw [returnBuffer_respond_eq n, returnBuffer_respond_eq (m + n)]
  exact ⟨hrun.tx, hrun.synth, hrun.cur, hrun.qIn, hrun.qOut, hrun.reports⟩

end Sys2Proof.Machine

/-! SUPPORT. How a transaction can end: the refusal of an agent without the role, the outcomes each transaction hands back,
and what the fault mark leaves of a step (60_exceptions.md R343, R344, R345). -/

namespace Sys2Proof.Machine

/-! ### The refusal WrongAgent -/

section WrongAgent
variable {s : State}

/-- An agent without the role gets the refusal, whatever the effect would be. -/
theorem asAgent_of_issuer_ne {a : Agent} (h : s.io.issuer ≠ a) (t : State) : s.asAgent a t = s.refuse .wrongAgent :=
  if_neg h

/-- A refusal writes the mark, unless an earlier one stands in it (log 8), and the outcome. -/
theorem refuse_eq (s : State) (w : Refusal) : s.refuse w = { s with
    refusalMark := if s.refusalMark = none then some w else s.refusalMark
    io := { s.io with response := .refused w } } := by
  unfold State.refuse State.respond
  cases s.refusalMark <;> rfl

/-- An instruction that checks the role of `a` first is refused for every other agent. -/
theorem exec_of_issuer_ne {i : Instr} {a : Agent} {t : State} (hi : resultOf i s = s.asAgent a t)
    (ha : s.io.issuer ≠ a) : exec i s = .next (s.refuse .wrongAgent) := by
  rw [exec_eq_resultOf, hi, asAgent_of_issuer_ne ha]

theorem exec_push_of_issuer_ne {x : QueueId} (ha : s.io.issuer ≠ producer x) (m : Msg) :
    exec (.push x m) s = .next (s.refuse .wrongAgent) :=
  exec_of_issuer_ne (resultOf_push s x m) ha

/-- Both of the consumer's transactions on a queue are refused for every other agent (R171). -/
theorem exec_pop_doorbellTake_of_issuer_ne {x : QueueId} (ha : s.io.issuer ≠ consumer x) :
    exec (.pop x) s = .next (s.refuse .wrongAgent) ∧ exec (.doorbellTake x) s = .next (s.refuse .wrongAgent) :=
  ⟨exec_of_issuer_ne rfl ha, exec_of_issuer_ne (resultOf_doorbellTake s x) ha⟩

end WrongAgent

/-- Settles O45: every transaction with a role checks it before its effect. -/
theorem wrongAgentIsRefused : Obligations.WrongAgentIsRefused := by
  rintro s t ht
  obtain rfl : t = s.refuse .wrongAgent := ht.trans (refuse_eq s .wrongAgent).symm
  exact ⟨fun ha n => exec_of_issuer_ne (resultOf_fill s n) ha, fun ha => exec_of_issuer_ne (resultOf_ctlService s) ha,
    exec_push_of_issuer_ne (x := .inbound), exec_push_of_issuer_ne (x := .outbound),
    exec_pop_doorbellTake_of_issuer_ne (x := .inbound), exec_pop_doorbellTake_of_issuer_ne (x := .outbound)⟩

/-! ### The outcomes of a transaction -/

section Outcomes
variable (s : State) (x : QueueId)

theorem resultOf_fill_outcome (n : Word) : mayHandBack (.fill n) (resultOf (.fill n) s).io.response = true := by
  rcases resultOf_fill_cases s n with e | ⟨_, e⟩ | ⟨_, e⟩ <;> rw [e] <;> rfl

theorem serviceControl_outcome : mayHandBack .ctlService (serviceControl s).io.response = true := by
  rcases serviceControl_cases s with e | ⟨_, _, e⟩ | ⟨m, _, _, e⟩ <;> rw [e]
  · rfl
  · rfl
  · cases m <;> rfl

/-- A PUSH that finds the lock free is `Ok`, `Full` or refused: it neither waits nor is busy (R174). -/
theorem resultOf_push_outcome (m : Msg) (hlock : (s.queue x).lock = .free) :
    mayHandBack (.push x m) (resultOf (.push x m) s).io.response = true := by
  rw [resultOf_push]
  refine asAgent_induction (P := fun t => mayHandBack (.push x m) t.io.response = true) (fun _ => ?_) rfl
  rcases pushQueue_cases x m s.io.issuer s with ⟨⟨b, hb⟩, _⟩ | ⟨_, _, e⟩ | ⟨_, _, e⟩
  · rw [hlock] at hb
    cases hb
  · rw [e]; rfl
  · rw [e]; rfl

theorem resultOf_pop_outcome : mayHandBack (.pop x) (resultOf (.pop x) s).io.response = true := by
  rcases resultOf_pop_cases s x with e | e | ⟨_, _, e⟩ | ⟨m, _, _, e⟩ <;> rw [e] <;> rfl

theorem resultOf_doorbellTake_outcome :
    mayHandBack (.doorbellTake x) (resultOf (.doorbellTake x) s).io.response = true := by
  rw [resultOf_doorbellTake]
  exact asAgent_induction (P := fun t => mayHandBack (.doorbellTake x) t.io.response = true) (fun _ => rfl) rfl

end Outcomes

/-- Settles O47: each row of R345 read off what its transaction can do; only a PUSH needs its queue's lock free. -/
theorem outcomesAreThoseOfTheTable : Obligations.OutcomesAreThoseOfTheTable := by
  intro i s hi hin hout
  refine ⟨resultOf i s, exec_eq_resultOf i s, ?_⟩
  cases i, hi using transaction_cases with
  | reset => rfl
  | fill n => exact resultOf_fill_outcome s n
  | ctlService =>
    rw [resultOf_ctlService]
    exact asAgent_induction (P := fun t => mayHandBack .ctlService t.io.response = true)
      (fun _ => serviceControl_outcome s) rfl
  | push x m =>
    have hlock : (s.queue x).lock = .free := by
      cases x
      · exact hin
      · exact hout
    exact resultOf_push_outcome s x m hlock
  | pop x => exact resultOf_pop_outcome s x
  | doorbellTake x => exact resultOf_doorbellTake_outcome s x

/-! ### The fault mark -/

section Faulted
variable {s : State} {f : Fault}

theorem unlessHalted_of_faulted (hf : s.faultMark = some f) (fetched : Fetched) : unlessHalted s fetched = .halted :=
  if_pos (Option.isSome_of_eq_some hf)

/-- With the fault mark set, every turn but a RESET's finds the machine halted (R343). -/
theorem fetch_of_faulted (hf : s.faultMark = some f) (hreset : ∀ a turns rest, s.io.turns = .port a :: turns →
    decodeTransaction (portOf s.io.ports a) ≠ .ok .reset rest) : fetch s = .halted := by
  unfold fetch
  split
  · exact unlessHalted_of_faulted hf _
  · exact unlessHalted_of_faulted hf _
  · exact unlessHalted_of_faulted hf _
  · next a turns ht =>
    split
    · next i rest hd =>
      have hi : i ≠ .reset := fun hi => hreset a turns rest ht (hi ▸ hd)
      rw [if_neg hi]
      exact unlessHalted_of_faulted hf _
    · exact unlessHalted_of_faulted hf _
    · exact unlessHalted_of_faulted hf _

/-- RESET at the front of the port whose turn it is runs whatever the marks say (R380). -/
theorem step_of_reset {a : Agent} {turns : List Turn} {rest : List Byte} (ht : s.io.turns = .port a :: turns)
    (hd : decodeTransaction (portOf s.io.ports a) = .ok .reset rest) :
    step s = .next ((resetBlock (s.issue a rest turns)).respond .ok) := by
  rw [step_of_decoded ht hd (.inr rfl), exec_eq_resultOf, resultOf_reset]
  exact keepWaiting_of_ne (by simp)

end Faulted

/-- Settles O52: a turn brings RESET, whose step leaves the reset block, or the fetch is halted. -/
theorem faultMarkStopsAllButReset : Obligations.FaultMarkStopsAllButReset := by
  refine fun s f hf => ⟨fun a turns rest ht hd => ⟨_, step_of_reset ht hd, rfl, rfl, rfl⟩, fun hreset => ?_⟩
  rw [step, fetch_of_faulted hf hreset]

end Sys2Proof.Machine

/-! SUPPORT. RESET (70_reset_and_hazards.md R380, R381) and the block it leaves idle (R382). -/

namespace Sys2Proof.Machine

/-! ### The reset block -/

/-- Both queues are at their reset value (R381). -/
theorem resetBlock_queue (s : State) (x : QueueId) : (resetBlock s).queue x = Queue.reset := by
  cases x <;> rfl

/-- Every payload byte is 0: below 512 none is stored, and from there up none is read (R381, R238). -/
theorem resetBlock_payloadByte (s : State) (i : Nat) : payloadByte (resetBlock s) i = 0 :=
  ite_self 0

/-- RESET reads nothing of a state but its parameters and its edge. -/
theorem resetBlock_congr {s t : State} (params : t.params = s.params) (io : t.io = s.io) :
    resetBlock t = resetBlock s := by
  rw [resetBlock, resetBlock, params, io]

theorem queueReset_used : Queue.reset.used = 0 := rfl

/-- An empty ring is canonical and its lock is free (R54, R82). -/
theorem queueReset_queueInv (k : Nat) : QueueInv k Queue.reset := ⟨rfl, rfl, rfl⟩

/-- An empty ring holds no record, whatever its capacity (R53). -/
theorem queueReset_wholeRecords (k : Nat) : Queue.reset.WholeRecords k :=
  ⟨[], Nat.zero_le k, List.forall_mem_nil _, rfl⟩

section Invariant
variable {s : State} (legal : s.params.legal)
include legal

/-- The zero cursor is in its ranges; that of `div_counter` is not empty, as `AUDIO_DIV` is at least 1 (R59, R42). -/
theorem resetBlock_cursorInv : CursorInv (resetBlock s) :=
  ⟨Nat.zero_le 9, le_refl 0, fun _ => Nat.zero_le _, fun _ _ => rfl, Nat.zero_le _, legal.2.1⟩

theorem resetBlock_machineInv (buffer : s.io.buffer.wf = true) (filled : ∀ b ∈ s.io.filled, b.bytes.wf = true) :
    MachineInv (resetBlock s) := by
  refine (machineInv_iff _).mpr ⟨(blockInv_iff _).mpr ⟨legal, ?_, fun x => ?_⟩, fun x => ?_, rfl⟩
  · exact ⟨resetBlock_cursorInv legal, rfl, rfl, buffer, filled⟩
  · rw [resetBlock_queue]
    exact queueReset_queueInv _
  · rw [resetBlock_queue]
    exact queueReset_wholeRecords _

end Invariant

/-! ### Leaving Idle -/

/-- No transaction but CTL_SERVICE leaves Idle (R382): FILL finds nothing to do, and the queue transactions write no
Config. -/
theorem resultOf_idle {i : Instr} (hi : isTransaction i = true) (hne : i ≠ .ctlService) {s : State}
    (hc : s.tx.configured = false) : (resultOf i s).tx.configured = false := by
  cases i, hi using transaction_cases with
  | reset => rfl
  | fill n =>
    rcases resultOf_fill_cases s n with e | ⟨_, e⟩ | ⟨hc', _⟩
    · rw [e]; exact hc
    · rw [e]; exact hc
    · exact absurd (hc.symm.trans hc') Bool.false_ne_true
  | ctlService => exact absurd rfl hne
  | push x m => rw [(resultOf_push_keeps x s m).tx, hc]
  | pop x => rw [(resultOf_pop_keeps x s).tx, hc]
  | doorbellTake x => rw [(resultOf_doorbellTake_keeps x s).tx, hc]

/-- A service either leaves an idle block idle or applies a ConfigureMessage (R290, R294). -/
theorem serviceControl_idle_or_applied {s : State} (hc : s.tx.configured = false) :
    (serviceControl s).tx.configured = false ∨ (serviceControl s).io.response = .applied := by
  rcases serviceControl_cases s with e | ⟨_, _, e⟩ | ⟨m, _, _, e⟩ <;> rw [e]
  · exact .inl hc
  · exact .inl hc
  · cases m with
    | configure c => exact .inr rfl
    | status n => exact .inl hc

theorem resultOf_ctlService_idle_or_applied {s : State} (hc : s.tx.configured = false) :
    (resultOf .ctlService s).tx.configured = false ∨ (resultOf .ctlService s).io.response = .applied := by
  rw [resultOf_ctlService]
  exact asAgent_induction (P := fun t => t.tx.configured = false ∨ t.io.response = .applied)
    (fun _ => serviceControl_idle_or_applied hc) (.inl hc)

/-! ### The obligations -/

/-- Settles O3: the reset block is idle with both queues empty; of the transactions, the service alone leaves Idle. -/
theorem resetBlockIsIdleUntilConfigured : Obligations.ResetBlockIsIdleUntilConfigured := by
  refine ⟨fun s t ht => ?_, fun i s t hi hc ht hc' => ?_⟩
  · obtain rfl := (eq_resultOf_of_exec ht).trans (resultOf_reset s)
    exact ⟨fun n => exec_fill_of_idle n rfl rfl, (ctlServiceWithoutAConfiguration _ rfl).1 queueReset_used,
      (popReturnsTheFirstMessage .outbound _ rfl).1 queueReset_used⟩
  · obtain rfl := eq_resultOf_of_exec ht
    obtain rfl : i = .ctlService := by
      by_contra hne
      exact absurd ((resultOf_idle hi hne hc).symm.trans hc') Bool.false_ne_true
    refine ⟨rfl, (resultOf_ctlService_idle_or_applied hc).resolve_left fun h => ?_⟩
    exact absurd (h.symm.trans hc') Bool.false_ne_true

/-- Settles O1: the fields of the reset block, with the queues' and the payload's by their lemmas. -/
theorem resetGivesTheListedValues : Obligations.ResetGivesTheListedValues := by
  intro s
  refine ⟨(resetBlock s).respond .ok, exec_eq_resultOf .reset s, rfl, rfl, fun i _ => resetBlock_payloadByte s i, rfl,
    rfl, rfl, rfl, rfl, rfl, rfl, rfl, rfl, rfl, rfl, rfl, rfl, rfl, rfl, fun x => ?_, rfl, rfl, rfl, rfl, rfl⟩
  rw [respond_queue, resetBlock_queue]
  exact ⟨rfl, rfl, rfl, rfl⟩

/-- Settles O2: the two states agree on all that RESET reads, and so do a state and its reset but for the outcome, which
RESET hands back anew. -/
theorem resetForgetsEverything : Obligations.ResetForgetsEverything := by
  intro s s' hp hio
  refine ⟨(resetBlock s).respond .ok, exec_eq_resultOf .reset s, ?_, exec_eq_resultOf .reset _, rfl, rfl⟩
  rw [exec_eq_resultOf, resultOf_reset, resetBlock_congr hp hio]

/-- Settles O58: the reset state is the reset block of itself, and the outcome RESET hands back is not read by the
invariant. -/
theorem resetMeetsTheInvariant : Obligations.ResetMeetsTheInvariant := by
  refine ⟨?_, fun s t legal buffer filled ht => ?_⟩
  · exact resetBlock_machineInv (s := State.reset) default_legal rfl (List.forall_mem_nil _)
  · obtain rfl := (eq_resultOf_of_exec ht).trans (resultOf_reset s)
    exact machineInv_same (sameBlock_edge _ s.io.ports s.io.turns s.io.issuer .ok)
      (resetBlock_machineInv legal buffer filled)

end Sys2Proof.Machine
